-- ==== Sys2Proof/Word.lean ====
section
/-! DEFINITION. The word types of the block: every word of the command port, the response port and the register
space is 32 bits (R13), an amplitude is a binary32 bit pattern in such a word (R14), a code is 8 bits (R16), a
register address is 16 bits (R50). -/

namespace Sys2Proof

/-- One byte, for the byte serialisation of R54. -/
abbrev Byte := BitVec 8

/-- A word of a port or of the register space (R13). -/
abbrev Word := BitVec 32

/-- A value of type F32, carried as its 32-bit pattern (R14): `f32bits` and `f32frombits` are the identity. -/
abbrev F32 := BitVec 32

/-- A code: an 8-bit unsigned integer 0 to 255 (R16). -/
abbrev Code := BitVec 8

/-- A register-space word address (R50). -/
abbrev Addr := BitVec 16

end Sys2Proof
end

