-- ==== Sys2Proof/Config.lean ====
section
/-! DEFINITION. What an instance fixes for its life (00_scope.md R9, R49; 93_implementation_defined.md U9), as a
record of plain data, and the one free value of the model: the pattern of a NaN that arithmetic produces (R15, U3). -/

namespace Sys2Proof

/-- The numeric literals of R11, held as configuration as U9 asks (log 4). -/
structure Consts where
  /-- `PREEMPH`, a binary32 pattern (R130). -/
  preemph : F32
  /-- The output clamp bound: samples lie in `-clampBound .. clampBound` (R132). -/
  clampBound : Nat
  /-- The lower bound of the pitch lag (R106). -/
  lagMin : Nat
  /-- The upper bound of the pitch lag (R106). -/
  lagMax : Nat
  /-- The bias of the lag formula is `lagBiasNum / lagBiasDen` (R106: one tenth). -/
  lagBiasNum : Nat
  /-- See `lagBiasNum`. -/
  lagBiasDen : Nat
  /-- The factor of the feature in the lag formula (R106: 50). -/
  lagScale : Nat
  /-- The offset of the lag formula (R106: 100). -/
  lagOffset : Nat
  deriving DecidableEq, Repr

/-- The parameters of an instance (R9), under the spec's names. -/
structure Params where
  /-- LPC order: taps of `last_sig`, coefficients per set. -/
  P : Nat
  /-- Look-ahead depth: slots of each delay line. -/
  D : Nat
  /-- Length of a frame-input vector. -/
  F : Nat
  /-- Ceiling of `frame_count`. -/
  CAP : Nat
  /-- The decoder table, `DEC[0..255]` (R91). -/
  DEC : List F32
  /-- The encoder thresholds `THR[1..255]`, so entry `k` stands at place `k - 1` (R92). -/
  THR : List F32
  /-- The literals of R11. -/
  consts : Consts
  deriving DecidableEq, Repr

/-- DESIGN CHOICE (log 13). The free value of R15 and U3: raw bits from which the pattern of a NaN that an
arithmetic primitive produces is taken, one for each epoch (the counter `State.nanEpoch`) and each site inside the
operation. It has no body: nothing can evaluate it or prove a value of it. -/
opaque Config.freeNaN : Nat → Nat → BitVec 32

end Sys2Proof
end

