-- ==== Sys2Proof/Machine/Float.lean ====
section
/-! DEFINITION. The arithmetic record `Num` of 00_scope.md R14: IEEE 754 binary32, round to nearest with ties to
even, gradual underflow, no fused operation. Every finite value, and the step between any two, is a whole number of
units of 2^-149, so `real(a)` is carried exactly as the integer `units a`: real(a) = units a / 2^149 (log 14). -/

namespace Sys2Proof

/-- 2^149: how many units make 1.0. -/
def Num.one : Nat := 2 ^ 149

/-- The sign bit (R14: bit 31). -/
def Num.signBit (a : F32) : Bool := a.getLsbD 31

/-- The biased exponent, 8 bits (R14). -/
def Num.expField (a : F32) : Nat := a.toNat / 2 ^ 23 % 256

/-- The fraction, 23 bits (R14). -/
def Num.fracField (a : F32) : Nat := a.toNat % 2 ^ 23

/-- `isnan(a)` (R14). -/
def Num.isNaN (a : F32) : Bool := Num.expField a == 255 && Num.fracField a != 0

/-- An infinity of either sign. -/
def Num.isInf (a : F32) : Bool := Num.expField a == 255 && Num.fracField a == 0

/-- A finite value: one `real` is defined on (R14). -/
def Num.isFinite (a : F32) : Bool := Num.expField a != 255

/-- The magnitude in units of 2^-149: subnormals and zero have exponent field 0. An infinity gets 2^277, which is
above every finite magnitude, so that the comparisons below order infinities as R14 says. -/
def Num.mag (a : F32) : Nat :=
  if Num.expField a = 0 then Num.fracField a
  else (2 ^ 23 + Num.fracField a) * 2 ^ (Num.expField a - 1)

/-- The signed value in units of 2^-149: for a finite `a`, `real(a) = units a / 2^149` (R14). -/
def Num.units (a : F32) : Int :=
  if Num.signBit a then -(Num.mag a : Int) else (Num.mag a : Int)

/-- `flt(a, b)`: ordered a < b, false on a NaN, −0 equal to +0 (R14). -/
def Num.flt (a b : F32) : Bool :=
  !Num.isNaN a && !Num.isNaN b && decide (Num.units a < Num.units b)

/-- `fgt(a, b)`: ordered a > b (R14). -/
def Num.fgt (a b : F32) : Bool := Num.flt b a

/-- `fge(a, b)`: ordered a ≥ b (R14). -/
def Num.fge (a b : F32) : Bool :=
  !Num.isNaN a && !Num.isNaN b && decide (Num.units b ≤ Num.units a)

/-- A NaN pattern made from free bits: every NaN pattern is reached, and nothing else is (R15, U3). -/
def Num.nanOf (free : Word) : F32 :=
  if Num.isNaN (free ||| 0x7F800000#32) then free ||| 0x7F800000#32 else 0x7FC00000#32

/-- Half the way of rounding to nearest, ties to even: `m / 2^s` rounded to an integer (R14). -/
def Num.roundEven (m s : Nat) : Nat :=
  if 2 ^ s < 2 * (m % 2 ^ s) ∨ (2 * (m % 2 ^ s) = 2 ^ s ∧ m / 2 ^ s % 2 = 1) then m / 2 ^ s + 1
  else m / 2 ^ s

/-- How many low bits of the magnitude `m`, in units of 2^-(149+e), a binary32 value of that size cannot hold. -/
def Num.discard (m e : Nat) : Nat := max e (Nat.log2 m - 23)

/-- The pattern, sign apart, of the binary32 value nearest to `m · 2^-(149+e)`. A significand of 24 bits with the
exponent above it is one number, so a carry out of the significand lands in the exponent by itself, and what passes
the largest finite value becomes infinity (R14). -/
def Num.roundBits (m e : Nat) : Nat :=
  min ((Num.discard m e - e) * 2 ^ 23 + Num.roundEven m (Num.discard m e)) 0x7F800000

/-- The value `±m · 2^-(149+e)` rounded once to binary32, to nearest, ties to even (R14). -/
def Num.round (neg : Bool) (m e : Nat) : F32 :=
  BitVec.ofNat 32 (if neg then 2 ^ 31 + Num.roundBits m e else Num.roundBits m e)

/-- The value −a: the pattern with the sign bit turned. -/
def Num.neg (a : F32) : F32 := a ^^^ 0x80000000#32

/-- `fadd(a, b)` (R14); `free` supplies the pattern where the result is a NaN (R15). An exact zero sum is +0 unless
both operands are negative zeros. -/
def Num.fadd (free : Word) (a b : F32) : F32 :=
  if Num.isNaN a || Num.isNaN b then Num.nanOf free
  else if Num.isInf a then
    if Num.isInf b && Num.signBit a != Num.signBit b then Num.nanOf free else a
  else if Num.isInf b then b
  else if Num.units a + Num.units b = 0 then
    if Num.signBit a && Num.signBit b then 0x80000000#32 else 0#32
  else Num.round (decide (Num.units a + Num.units b < 0)) (Num.units a + Num.units b).natAbs 0

/-- `fsub(a, b)` (R14): the sum of `a` and −b. -/
def Num.fsub (free : Word) (a b : F32) : F32 := Num.fadd free a (Num.neg b)

/-- `fmul(a, b)` (R14); `free` supplies the pattern where the result is a NaN (R15): a NaN operand, or 0 · ∞. -/
def Num.fmul (free : Word) (a b : F32) : F32 :=
  if Num.isNaN a || Num.isNaN b then Num.nanOf free
  else if Num.isInf a || Num.isInf b then
    if Num.mag a = 0 ∨ Num.mag b = 0 then Num.nanOf free
    else if Num.signBit a != Num.signBit b then 0xFF800000#32 else 0x7F800000#32
  else Num.round (Num.signBit a != Num.signBit b) (Num.mag a * Num.mag b) 149

/-- The binary32 value nearest to an integer (exact below 2^24): the clamp constants of R132. -/
def Num.ofInt (k : Int) : F32 := Num.round (decide (k < 0)) (k.natAbs * Num.one) 0

/-- The binary32 value nearest to `±num / den`, ties to even: a decimal literal of R79. Two bits and a sticky bit
below any kept bit make the single rounding of `Num.round` exact. -/
def Num.ofRatio (neg : Bool) (num den : Nat) : F32 :=
  Num.round neg
    (2 * (num * 2 ^ 451 / den) + if num * 2 ^ 451 % den = 0 then 0 else 1) 303

end Sys2Proof
end

