-- ==== Sys2Proof/Machine/Params.lean ====
section
/-! DEFINITION. The parameter record of an instance: the default compander tables T-DEC and T-THR (40_compander.md
R95), the literals of R11, the suggested sizes of R9, the constraints of R9, R10, R93 and R94, and the tables as
functions. -/

namespace Sys2Proof

/-- `SILENCE`, the code of zero amplitude (R16). -/
def silence : Code := 128#8

/-- Table T-DEC, entries 0 to 31 (R95). -/
def tableDecPart0 : List F32 :=
  [0xC7000000, 0xC6F51A98, 0xC6EAAB72, 0xC6E0AD8C, 0xC6D71C19, 0xC6CDF27F, 0xC6C52C56, 0xC6BCC569,
   0xC6B4B9AD, 0xC6AD0544, 0xC6A5A47B, 0xC69E93C6, 0xC697CFC0, 0xC6915529, 0xC68B20E3, 0xC6852FF3,
   0xC67EFEFF, 0xC6741997, 0xC669AA71, 0xC65FAC8B, 0xC6561B18, 0xC64CF17E, 0xC6442B55, 0xC63BC468,
   0xC633B8AC, 0xC62C0443, 0xC624A37A, 0xC61D92C5, 0xC616CEBF, 0xC6105428, 0xC60A1FE2, 0xC6042EF2]

/-- Table T-DEC, entries 32 to 63 (R95). -/
def tableDecPart1 : List F32 :=
  [0xC5FCFCFD, 0xC5F21795, 0xC5E7A86F, 0xC5DDAA89, 0xC5D41916, 0xC5CAEF7C, 0xC5C22953, 0xC5B9C266,
   0xC5B1B6AA, 0xC5AA0241, 0xC5A2A178, 0xC59B90C3, 0xC594CCBD, 0xC58E5226, 0xC5881DE0, 0xC5822CF0,
   0xC578F8F9, 0xC56E1391, 0xC563A46B, 0xC559A685, 0xC5501512, 0xC546EB78, 0xC53E254F, 0xC535BE62,
   0xC52DB2A6, 0xC525FE3D, 0xC51E9D74, 0xC5178CBF, 0xC510C8B9, 0xC50A4E22, 0xC50419DC, 0xC4FC51D9]

/-- Table T-DEC, entries 64 to 95 (R95). -/
def tableDecPart2 : List F32 :=
  [0xC4F0F0F1, 0xC4E60B89, 0xC4DB9C63, 0xC4D19E7D, 0xC4C80D0A, 0xC4BEE370, 0xC4B61D47, 0xC4ADB65A,
   0xC4A5AA9E, 0xC49DF635, 0xC496956C, 0xC48F84B7, 0xC488C0B1, 0xC482461A, 0xC47823A7, 0xC46C41C9,
   0xC460E0E1, 0xC455FB79, 0xC44B8C53, 0xC4418E6D, 0xC437FCFA, 0xC42ED35F, 0xC4260D37, 0xC41DA64A,
   0xC4159A8E, 0xC40DE625, 0xC406855C, 0xC3FEE94E, 0xC3F16142, 0xC3E46C13, 0xC3D80387, 0xC3CC21A8]

/-- Table T-DEC, entries 96 to 127 (R95). -/
def tableDecPart3 : List F32 :=
  [0xC3C0C0C1, 0xC3B5DB58, 0xC3AB6C33, 0xC3A16E4D, 0xC397DCDA, 0xC38EB33F, 0xC385ED17, 0xC37B0C54,
   0xC36AF4DB, 0xC35B8C0A, 0xC34CCA78, 0xC33EA90E, 0xC3312102, 0xC3242BD3, 0xC317C347, 0xC30BE168,
   0xC3008081, 0xC2EB3630, 0xC2D657E6, 0xC2C25C1A, 0xC2AF3933, 0xC29CE5FE, 0xC28B59AE, 0xC27517A6,
   0xC254E8B6, 0xC2361713, 0xC21893EF, 0xC1F8A235, 0xC1C28205, 0xC18EAD49, 0xC13A1634, 0xC0B60E7B]

/-- Table T-DEC, entries 128 to 159 (R95). -/
def tableDecPart4 : List F32 :=
  [0x00000000, 0x40B60E7B, 0x413A1634, 0x418EAD49, 0x41C28205, 0x41F8A235, 0x421893EF, 0x42361713,
   0x4254E8B6, 0x427517A6, 0x428B59AE, 0x429CE5FE, 0x42AF3933, 0x42C25C1A, 0x42D657E6, 0x42EB3630,
   0x43008081, 0x430BE168, 0x4317C347, 0x43242BD3, 0x43312102, 0x433EA90E, 0x434CCA78, 0x435B8C0A,
   0x436AF4DB, 0x437B0C54, 0x4385ED17, 0x438EB33F, 0x4397DCDA, 0x43A16E4D, 0x43AB6C33, 0x43B5DB58]

/-- Table T-DEC, entries 160 to 191 (R95). -/
def tableDecPart5 : List F32 :=
  [0x43C0C0C1, 0x43CC21A8, 0x43D80387, 0x43E46C13, 0x43F16142, 0x43FEE94E, 0x4406855C, 0x440DE625,
   0x44159A8E, 0x441DA64A, 0x44260D37, 0x442ED35F, 0x4437FCFA, 0x44418E6D, 0x444B8C53, 0x4455FB79,
   0x4460E0E1, 0x446C41C9, 0x447823A7, 0x4482461A, 0x4488C0B1, 0x448F84B7, 0x4496956C, 0x449DF635,
   0x44A5AA9E, 0x44ADB65A, 0x44B61D47, 0x44BEE370, 0x44C80D0A, 0x44D19E7D, 0x44DB9C63, 0x44E60B89]

/-- Table T-DEC, entries 192 to 223 (R95). -/
def tableDecPart6 : List F32 :=
  [0x44F0F0F1, 0x44FC51D9, 0x450419DC, 0x450A4E22, 0x4510C8B9, 0x45178CBF, 0x451E9D74, 0x4525FE3D,
   0x452DB2A6, 0x4535BE62, 0x453E254F, 0x4546EB78, 0x45501512, 0x4559A685, 0x4563A46B, 0x456E1391,
   0x4578F8F9, 0x45822CF0, 0x45881DE0, 0x458E5226, 0x4594CCBD, 0x459B90C3, 0x45A2A178, 0x45AA0241,
   0x45B1B6AA, 0x45B9C266, 0x45C22953, 0x45CAEF7C, 0x45D41916, 0x45DDAA89, 0x45E7A86F, 0x45F21795]

/-- Table T-DEC, entries 224 to 255 (R95). -/
def tableDecPart7 : List F32 :=
  [0x45FCFCFD, 0x46042EF2, 0x460A1FE2, 0x46105428, 0x4616CEBF, 0x461D92C5, 0x4624A37A, 0x462C0443,
   0x4633B8AC, 0x463BC468, 0x46442B55, 0x464CF17E, 0x46561B18, 0x465FAC8B, 0x4669AA71, 0x46741997,
   0x467EFEFF, 0x46852FF3, 0x468B20E3, 0x46915529, 0x4697CFC0, 0x469E93C6, 0x46A5A47B, 0x46AD0544,
   0x46B4B9AD, 0x46BCC569, 0x46C52C56, 0x46CDF27F, 0x46D71C19, 0x46E0AD8C, 0x46EAAB72, 0x46F51A98]

/-- PRESUMED (log 3, the spec's G6). Table T-DEC (R95). -/
def tableDec : List F32 :=
  tableDecPart0 ++ tableDecPart1 ++ tableDecPart2 ++ tableDecPart3 ++ tableDecPart4 ++ tableDecPart5 ++ tableDecPart6 ++ tableDecPart7

/-- Table T-THR, entries 1 to 32 (R95). -/
def tableThrPart0 : List F32 :=
  [0xC6FA7E31, 0xC6EFD48E, 0xC6E59EA6, 0xC6DBD78F, 0xC6D27A98, 0xC6C98341, 0xC6C0ED3A, 0xC6B8B464,
   0xC6B0D4CA, 0xC6A94AA5, 0xC6A21255, 0xC69B2862, 0xC6948979, 0xC68E326C, 0xC688202F, 0xC6824FD6,
   0xC6797D30, 0xC66ED38D, 0xC6649DA5, 0xC65AD68E, 0xC6517997, 0xC6488240, 0xC63FEC39, 0xC637B363,
   0xC62FD3C9, 0xC62849A4, 0xC6211154, 0xC61A2761, 0xC6138878, 0xC60D316B, 0xC6071F2E, 0xC6014ED5]

/-- Table T-THR, entries 33 to 64 (R95). -/
def tableThrPart1 : List F32 :=
  [0xC5F77B2E, 0xC5ECD18B, 0xC5E29BA3, 0xC5D8D48C, 0xC5CF7795, 0xC5C6803E, 0xC5BDEA37, 0xC5B5B161,
   0xC5ADD1C7, 0xC5A647A2, 0xC59F0F52, 0xC598255F, 0xC5918676, 0xC58B2F69, 0xC5851D2C, 0xC57E99A7,
   0xC573772A, 0xC568CD87, 0xC55E979F, 0xC554D088, 0xC54B7391, 0xC5427C3A, 0xC539E633, 0xC531AD5D,
   0xC529CDC3, 0xC522439E, 0xC51B0B4E, 0xC514215B, 0xC50D8272, 0xC5072B65, 0xC5011928, 0xC4F6919F]

/-- Table T-THR, entries 65 to 96 (R95). -/
def tableThrPart2 : List F32 :=
  [0xC4EB6F22, 0xC4E0C57F, 0xC4D68F96, 0xC4CCC880, 0xC4C36B89, 0xC4BA7432, 0xC4B1DE2B, 0xC4A9A555,
   0xC4A1C5BB, 0xC49A3B96, 0xC4930346, 0xC48C1953, 0xC4857A6A, 0xC47E46BA, 0xC472223F, 0xC466818F,
   0xC45B5F12, 0xC450B56F, 0xC4467F86, 0xC43CB870, 0xC4335B79, 0xC42A6422, 0xC421CE1B, 0xC4199545,
   0xC411B5AB, 0xC40A2B86, 0xC402F336, 0xC3F81286, 0xC3EAD4B4, 0xC3DE269A, 0xC3D2021F, 0xC3C6616F]

/-- Table T-THR, entries 97 to 128 (R95). -/
def tableThrPart3 : List F32 :=
  [0xC3BB3EF2, 0xC3B0954F, 0xC3A65F66, 0xC39C9850, 0xC3933B59, 0xC38A4402, 0xC381ADFB, 0xC372EA49,
   0xC3632B16, 0xC35416CC, 0xC345A62C, 0xC337D246, 0xC32A9474, 0xC31DE659, 0xC311C1DF, 0xC306212E,
   0xC2F5FD63, 0xC2E0AA1D, 0xC2CC3E4C, 0xC2B8B01F, 0xC2A5F631, 0xC2940783, 0xC282DB75, 0xC264D391,
   0xC245552B, 0xC2272C97, 0xC20A4B57, 0xC1DD4715, 0xC1A84FCD, 0xC16B2EC7, 0xC10A0AF3, 0xC03415BC]

/-- Table T-THR, entries 129 to 160 (R95). -/
def tableThrPart4 : List F32 :=
  [0x403415BC, 0x410A0AF3, 0x416B2EC7, 0x41A84FCD, 0x41DD4715, 0x420A4B57, 0x42272C97, 0x4245552B,
   0x4264D391, 0x4282DB75, 0x42940783, 0x42A5F631, 0x42B8B01F, 0x42CC3E4C, 0x42E0AA1D, 0x42F5FD63,
   0x4306212E, 0x4311C1DF, 0x431DE659, 0x432A9474, 0x4337D246, 0x4345A62C, 0x435416CC, 0x43632B16,
   0x4372EA49, 0x4381ADFB, 0x438A4402, 0x43933B59, 0x439C9850, 0x43A65F66, 0x43B0954F, 0x43BB3EF2]

/-- Table T-THR, entries 161 to 192 (R95). -/
def tableThrPart5 : List F32 :=
  [0x43C6616F, 0x43D2021F, 0x43DE269A, 0x43EAD4B4, 0x43F81286, 0x4402F336, 0x440A2B86, 0x4411B5AB,
   0x44199545, 0x4421CE1B, 0x442A6422, 0x44335B79, 0x443CB870, 0x44467F86, 0x4450B56F, 0x445B5F12,
   0x4466818F, 0x4472223F, 0x447E46BA, 0x44857A6A, 0x448C1953, 0x44930346, 0x449A3B96, 0x44A1C5BB,
   0x44A9A555, 0x44B1DE2B, 0x44BA7432, 0x44C36B89, 0x44CCC880, 0x44D68F96, 0x44E0C57F, 0x44EB6F22]

/-- Table T-THR, entries 193 to 224 (R95). -/
def tableThrPart6 : List F32 :=
  [0x44F6919F, 0x45011928, 0x45072B65, 0x450D8272, 0x4514215B, 0x451B0B4E, 0x4522439E, 0x4529CDC3,
   0x4531AD5D, 0x4539E633, 0x45427C3A, 0x454B7391, 0x4554D088, 0x455E979F, 0x4568CD87, 0x4573772A,
   0x457E99A7, 0x45851D2C, 0x458B2F69, 0x45918676, 0x4598255F, 0x459F0F52, 0x45A647A2, 0x45ADD1C7,
   0x45B5B161, 0x45BDEA37, 0x45C6803E, 0x45CF7795, 0x45D8D48C, 0x45E29BA3, 0x45ECD18B, 0x45F77B2E]

/-- Table T-THR, entries 225 to 255 (R95). -/
def tableThrPart7 : List F32 :=
  [0x46014ED5, 0x46071F2E, 0x460D316B, 0x46138878, 0x461A2761, 0x46211154, 0x462849A4, 0x462FD3C9,
   0x4637B363, 0x463FEC39, 0x46488240, 0x46517997, 0x465AD68E, 0x46649DA5, 0x466ED38D, 0x46797D30,
   0x46824FD6, 0x4688202F, 0x468E326C, 0x46948979, 0x469B2862, 0x46A21255, 0x46A94AA5, 0x46B0D4CA,
   0x46B8B464, 0x46C0ED3A, 0x46C98341, 0x46D27A98, 0x46DBD78F, 0x46E59EA6, 0x46EFD48E]

/-- PRESUMED (log 3, the spec's G6). Table T-THR (R95). -/
def tableThr : List F32 :=
  tableThrPart0 ++ tableThrPart1 ++ tableThrPart2 ++ tableThrPart3 ++ tableThrPart4 ++ tableThrPart5 ++ tableThrPart6 ++ tableThrPart7

/-- The literals as the source states them (R11, R106, R130, R132). -/
def specConsts : Consts where
  preemph := 0x3F59999A
  clampBound := 32767
  lagMin := 33
  lagMax := 255
  lagBiasNum := 1
  lagBiasDen := 10
  lagScale := 50
  lagOffset := 100

/-- PRESUMED (log 2, the spec's G1 to G4). The suggested sizes of R9 with the default tables: the instance that
`State.reset` is an instance of. -/
def defaultParams : Params where
  P := 16
  D := 2
  F := 102
  CAP := 1000
  DEC := tableDec
  THR := tableThr
  consts := specConsts

/-- `DEC[u]` (R91). -/
def Params.decAt (p : Params) (u : Nat) : F32 := p.DEC.getD u 0

/-- `THR[k]` for `k` in 1 to 255 (R92). -/
def Params.thrAt (p : Params) (k : Nat) : F32 := p.THR.getD (k - 1) 0

/-- The sizes' constraints (R9, R10). -/
abbrev Params.SizesOk (p : Params) : Prop :=
  2 ≤ p.P ∧ p.P ≤ 256 ∧ 1 ≤ p.D ∧ p.D ≤ 256 ∧ p.D * p.P ≤ 4096 ∧ p.D * p.F ≤ 57344 ∧ 1 ≤ p.F ∧
    p.D < p.CAP ∧ p.CAP ≤ 65535

/-- The constraints on `DEC` (R93): (a) finite, (b) strictly increasing, (c) silence decodes to +0.0, (d) the spacing
`DEC[u+1] − DEC[u]` does not decrease as `u` moves away from 128, up or down. -/
abbrev Params.DecOk (p : Params) : Prop :=
  p.DEC.length = 256 ∧
  (∀ u, u < 256 → Num.isFinite (p.decAt u) = true) ∧
  (∀ u, u < 255 → Num.units (p.decAt u) < Num.units (p.decAt (u + 1))) ∧
  p.decAt silence.toNat = 0#32 ∧
  (∀ u, u < 254 →
    if 128 ≤ u then
      Num.units (p.decAt (u + 1)) - Num.units (p.decAt u) ≤ Num.units (p.decAt (u + 2)) - Num.units (p.decAt (u + 1))
    else
      Num.units (p.decAt (u + 2)) - Num.units (p.decAt (u + 1)) ≤ Num.units (p.decAt (u + 1)) - Num.units (p.decAt u))

/-- The constraints on `THR` (R94): (a) finite, (b) each threshold above the amplitude below it and not above the one
it belongs to. -/
abbrev Params.ThrOk (p : Params) : Prop :=
  p.THR.length = 255 ∧
  (∀ k, k < 255 → Num.isFinite (p.thrAt (k + 1)) = true) ∧
  (∀ k, k < 255 →
    Num.units (p.decAt k) < Num.units (p.thrAt (k + 1)) ∧ Num.units (p.thrAt (k + 1)) ≤ Num.units (p.decAt (k + 1)))

/-- What the block needs of the literals to be a block at all: a sample fits 16 bits, a lag 32. -/
abbrev Consts.Ok (k : Consts) : Prop :=
  k.clampBound ≤ 32767 ∧ k.lagMin ≤ k.lagMax ∧ k.lagMax < 2 ^ 32 ∧ 0 < k.lagBiasDen

/-- An instance the spec gives a meaning to (R9, R10, R93, R94; U14). -/
abbrev Params.Valid (p : Params) : Prop := p.SizesOk ∧ p.DecOk ∧ p.ThrOk ∧ p.consts.Ok

/-- `STATE_SIZE`: the number of words of persistent state (R42). -/
def Params.stateSize (p : Params) : Nat := p.D * (p.F + p.P + 1) + p.P + 3

end Sys2Proof
end

