-- ==== Sys2Proof/Syntax.lean ====
section
/-! DEFINITION. The commands of the block, one constructor per row of spec/opcode_table.json, each with the operands
its word and its payload carry (R67, R68); the error codes (R166); the registers of the register map (R40). -/

namespace Sys2Proof

/-- The nine commands (30_encoding.md R69). -/
inductive Instr where
  /-- `INIT` (R150). -/
  | init
  /-- `PITCH f` (R107): payload word `f`. -/
  | pitch (f : F32)
  /-- `FRAME n, g, a, v` (R110): `n` is IMM16; the payload is `g`, then the `P` words of `a`, then the `F` of `v`. -/
  | frame (n : BitVec 16) (g : F32) (a v : List F32)
  /-- `PREDICT` (R142). -/
  | predict
  /-- `COMMIT e1, e0` (R143): `e1 = IMM16[15:8]`, `e0 = IMM16[7:0]`. -/
  | commit (e1 e0 : Code)
  /-- `ENC x` (R99): payload word `x`. -/
  | enc (x : F32)
  /-- `DEC u` (R100): `u = IMM16[7:0]`. -/
  | dec (u : Code)
  /-- `RDREG r` (R153): the register-space address is IMM16. -/
  | rdreg (addr : Addr)
  /-- `WRREG r, v` (R156): the address is IMM16, the payload word is `v`. -/
  | wrreg (addr : Addr) (v : Word)
  deriving DecidableEq, Repr

/-- The errors a command can be refused with (60_exceptions.md R166). -/
inductive ErrCode where
  /-- `E_OPCODE` (R169). -/
  | opcode
  /-- `E_RESERVED` (R170). -/
  | reserved
  /-- `E_PHASE` (R171). -/
  | phase
  /-- `E_ODD` (R172). -/
  | odd
  /-- `E_ADDR` (R173). -/
  | addr
  /-- `E_RO` (R174). -/
  | ro
  /-- `E_LATCHED` (R175). -/
  | latched
  deriving DecidableEq, Repr

/-- The registers of the register map (10_state.md R40), array elements by index. -/
inductive Reg where
  | id
  | paramP
  | paramD
  | paramF
  | paramCap
  | stateSize
  | status
  | frameCount
  | deemphMem
  | lastExc
  | gainCur
  | pred1
  | lastSig (j : Nat)
  | lpcCur (i : Nat)
  | gainHist (j : Nat)
  | lpcHist (j i : Nat)
  | featHist (j i : Nat)
  deriving DecidableEq, Repr

end Sys2Proof
end

