-- ==== Sys2Proof/WellFormed.lean ====
section
/-! DEFINITION. Which terms of `Instr` the port can carry: the payload lengths of R65 and R68. Immediates are well
formed by their types (`n` 16 bits, codes 8 bits, addresses 16 bits: R67). -/

namespace Sys2Proof

/-- FRAME carries exactly `P` coefficients and `F` inputs (R68, R110); every other command fits by its type. -/
def Instr.WellFormed (p : Params) : Instr → Bool
  | .frame _ _ a v => a.length == p.P && v.length == p.F
  | _ => true

end Sys2Proof
end

