-- ==== Sys2Proof/Decode.lean ====
section
/-! DEFINITION. Reading a command transaction (30_encoding.md R65 to R72) and writing one: the decoder is total on any
command word and payload and rejects by name; the encoder is written from the same table (R69). The byte form of R54
stands beside them. -/

namespace Sys2Proof

/-- `OP`, bits [31:28] (R66). -/
def opField (w : Word) : BitVec 4 := w.extractLsb' 28 4

/-- `IMM16`, bits [15:0] (R66). -/
def immField (w : Word) : BitVec 16 := w.extractLsb' 0 16

/-- The column `match` of the opcode map (R69): the opcode in [31:28], zeros below. -/
def rowMatch (op : BitVec 4) : Word := op ++ 0#28

/-- The column `mask` of the opcode map (R69): which bits are not operand bits. -/
def rowMask (op : BitVec 4) : Word :=
  match op.toNat with
  | 0 => 0xFFFFFFFF#32
  | 1 => 0xFFFFFFFF#32
  | 3 => 0xFFFFFFFF#32
  | 5 => 0xFFFFFFFF#32
  | 6 => 0xFFFFFF00#32
  | _ => 0xFFFF0000#32

/-- How many payload words a defined opcode has (R68, R69, R77). For a reserved opcode, 0x9 to 0xF, the spec gives no
length, since R70 discards whatever payload came with it; here it is 0: DESIGN CHOICE (log 21). -/
def payloadWords (p : Params) (op : BitVec 4) : Nat :=
  match op.toNat with
  | 1 => 1
  | 2 => 1 + p.P + p.F
  | 5 => 1
  | 8 => 1
  | _ => 0

/-- The command of a row whose payload is empty (R68). -/
def noPayload (i : Instr) : List Word → Option Instr
  | [] => some i
  | _ :: _ => none

/-- The command of a row whose payload is one word (R68). -/
def onePayload (f : Word → Instr) : List Word → Option Instr
  | [x] => some (f x)
  | _ => none

/-- FRAME's payload (R68): `g`, then the `P` words of `a`, then the `F` words of `v`, each array in ascending index
order (R64). -/
def framePayload (p : Params) (n : BitVec 16) : List Word → Option Instr
  | [] => none
  | g :: rest => if rest.length = p.P + p.F then some (.frame n g (rest.take p.P) (rest.drop p.P)) else none

/-- The command that an opcode, its immediate and its payload spell (R67, R68, R69); `none` where the payload does
not have the opcode's length. -/
def decodeOperands (p : Params) (op : Nat) (imm : BitVec 16) (payload : List Word) : Option Instr :=
  match op with
  | 0 => noPayload .init payload
  | 1 => onePayload .pitch payload
  | 2 => framePayload p imm payload
  | 3 => noPayload .predict payload
  | 4 => noPayload (.commit (imm.extractLsb' 8 8) (imm.extractLsb' 0 8)) payload
  | 5 => onePayload .enc payload
  | 6 => noPayload (.dec (imm.extractLsb' 0 8)) payload
  | 7 => noPayload (.rdreg imm) payload
  | 8 => onePayload (.wrreg imm) payload
  | _ => none

/-- What a transaction says. -/
inductive Decoded where
  /-- One of the nine commands. -/
  | instr (i : Instr)
  /-- The word is refused: `E_OPCODE` or `E_RESERVED` (R70, R71). -/
  | refuse (e : ErrCode)
  /-- The payload has not the length the opcode fixes: the port cannot carry this (R65; log 10). -/
  | unframed
  deriving DecidableEq, Repr

/-- The decoder (R72): `E_OPCODE` for opcodes 9 to F, then `E_RESERVED` for a set must-be-zero bit, both whatever the
payload is (R70, R169, R170), then the command. -/
def decode (p : Params) (w : Word) (payload : List Word) : Decoded :=
  if 9 ≤ (opField w).toNat then .refuse .opcode
  else if w &&& rowMask (opField w) ≠ rowMatch (opField w) then .refuse .reserved
  else
    match decodeOperands p (opField w).toNat (immField w) payload with
    | some i => .instr i
    | none => .unframed

/-- The opcode of a command (R69). -/
def Instr.opcode : Instr → BitVec 4
  | .init => 0
  | .pitch _ => 1
  | .frame _ _ _ _ => 2
  | .predict => 3
  | .commit _ _ => 4
  | .enc _ => 5
  | .dec _ => 6
  | .rdreg _ => 7
  | .wrreg _ _ => 8

/-- The immediate of a command (R67). -/
def Instr.imm : Instr → BitVec 16
  | .frame n _ _ _ => n
  | .commit e1 e0 => e1 ++ e0
  | .dec u => 0#8 ++ u
  | .rdreg addr => addr
  | .wrreg addr _ => addr
  | .init => 0
  | .pitch _ => 0
  | .predict => 0
  | .enc _ => 0

/-- The command word (R66, R78): `{OP, RSV = 0, IMM16}`. -/
def encodeWord (i : Instr) : Word := i.opcode ++ 0#12 ++ i.imm

/-- The payload (R68). -/
def encodePayload : Instr → List Word
  | .pitch f => [f]
  | .frame _ g a v => g :: (a ++ v)
  | .enc x => [x]
  | .wrreg _ v => [v]
  | .init => []
  | .predict => []
  | .commit _ _ => []
  | .dec _ => []
  | .rdreg _ => []

/-- The words of a command transaction, the command word first (R65, R77). -/
def encode (i : Instr) : List Word := encodeWord i :: encodePayload i

/-- A word as bytes, least significant first (R54). -/
def wordBytes (w : Word) : List Byte :=
  [w.extractLsb' 0 8, w.extractLsb' 8 8, w.extractLsb' 16 8, w.extractLsb' 24 8]

/-- The words a byte-wide channel carried (R54); `none` where the bytes are no whole number of words. -/
def wordsOfBytes : List Byte → Option (List Word)
  | [] => some []
  | b0 :: b1 :: b2 :: b3 :: rest => (wordsOfBytes rest).map fun ws => (b3 ++ b2 ++ b1 ++ b0) :: ws
  | [_] => none
  | [_, _] => none
  | [_, _, _] => none

/-- The decoder on the bytes of one transaction: total on any bytes. Bytes that are no whole number of words, or none at
all, are no transaction the port can carry (R65; log 10). -/
def decodeBytes (p : Params) (bytes : List Byte) : Decoded :=
  match wordsOfBytes bytes with
  | some (w :: payload) => decode p w payload
  | _ => .unframed

/-- The words a command transaction takes from a word stream: the first word's opcode fixes how many follow (R77);
`none` where the stream is too short for it. A reserved opcode stands alone: DESIGN CHOICE (log 21). -/
def splitTransaction (p : Params) : List Word → Option ((Word × List Word) × List Word)
  | [] => none
  | w :: rest =>
    if rest.length < payloadWords p (opField w) then none
    else some ((w, rest.take (payloadWords p (opField w))), rest.drop (payloadWords p (opField w)))

/-- Word `k` of the bits `w`, `nbits` of which are given: bit 0 is the least significant bit of the first word. -/
def tableWord (nbits w k : Nat) : Word := BitVec.ofNat 32 (w % 2 ^ nbits / 2 ^ (32 * k))

/-- The transaction whose bits are `w`, as long as its first word's opcode says under the parameters `p` (a reserved
opcode has no payload here: log 21), zeros above the `nbits` given. -/
def tableTransaction (p : Params) (nbits w : Nat) : Word × List Word :=
  (tableWord nbits w 0,
   (List.range (payloadWords p (opField (tableWord nbits w 0)))).map fun k => tableWord nbits w (k + 1))

/-- The command this decoder reads from the bits `w` numbered as spec/opcode_table.json numbers them, for the
instance `State.reset` is one of. -/
def decodeTableWord (nbits w : Nat) : Option Instr :=
  match decode defaultParams (tableTransaction defaultParams nbits w).1 (tableTransaction defaultParams nbits w).2 with
  | .instr i => some i
  | .refuse _ => none
  | .unframed => none

end Sys2Proof
end

