-- ==== Sys2Proof/Machine/State.lean ====
section
/-! DEFINITION. The state of the block (10_state.md): the persistent state, the working latches and the error latch of
R20, beside the parameters of the instance (R49; log 1) and the two ports as queues (log 5, log 6). -/

namespace Sys2Proof.Machine

/-- The sequencer `phase` (R32). The pattern 3 is never produced (U5) and has no value here. -/
inductive Phase where
  /-- Between frames: FRAME and WRREG accepted. -/
  | idle
  /-- Inside an active frame, a pair is due: PREDICT accepted. -/
  | pairReady
  /-- PREDICT answered, excitation awaited: COMMIT accepted. -/
  | pairWait
  deriving DecidableEq, Repr

/-- One response transaction: header and data words (R73). -/
structure Response where
  header : Word
  data : List Word
  deriving DecidableEq, Repr

/-- What can happen to the block at its ports: the host presents a whole command transaction (R65), or hardware reset
arrives (R187). A reset that comes while a command executes is this event in that command's place: the command leaves
no response and no write (R187; log 8). -/
inductive PortEvent where
  | command (word : Word) (payload : List Word)
  | reset
  deriving DecidableEq, Repr

/-- The whole machine. -/
structure State where
  /-- The parameters of the instance (R9, R49); no step changes them (log 1). -/
  params : Params
  /-- `frame_count`, 16 bits (R21). -/
  frameCount : BitVec 16
  /-- `feat_hist[j][i]`, slot 0 the newest (R22). -/
  featHist : List (List F32)
  /-- `lpc_hist[j][i]`, slot 0 the newest (R23). -/
  lpcHist : List (List F32)
  /-- `gain_hist[j]`, slot 0 the newest (R24). -/
  gainHist : List F32
  /-- `last_sig[j]`, tap 0 the newest (R25). -/
  lastSig : List F32
  /-- `last_exc[0]`, the most recent excitation code (R26). -/
  lastExc0 : Code
  /-- `last_exc[1]`, the one before (R26). -/
  lastExc1 : Code
  /-- `deemph_mem` (R27). -/
  deemphMem : F32
  /-- `lpc_cur[i]` (R30). -/
  lpcCur : List F32
  /-- `gain_cur` (R31). -/
  gainCur : F32
  /-- `pred1` (R34). -/
  pred1 : F32
  /-- `pairs_left`, 16 bits (R33). -/
  pairsLeft : BitVec 16
  /-- `phase` (R32). -/
  phase : Phase
  /-- `err` (R35). -/
  err : Bool
  /-- `err_code`, 4 bits (R35). -/
  errCode : BitVec 4
  /-- The command port: what has been presented and not yet taken, oldest first (R59; the model's own, log 5). -/
  pending : List PortEvent
  /-- The response port: what has been emitted, oldest first (R59, R73; the model's own, log 6). -/
  responses : List Response
  /-- The epoch from which the free NaN patterns are drawn (R15, U3; the model's own, log 13). -/
  nanEpoch : Nat
  deriving DecidableEq, Repr

/-- Why the machine stops. The spec itself stops nowhere: a forbidden command is refused by the block with a response
and the error latch, which is a next state (R168; log 12). -/
inductive Fault where
  /-- Raised by `step`, and by FRAME's meaning, for a defined command whose payload has not the length its opcode
  fixes. The ports carry whole transactions, so such a payload cannot be presented and has no meaning (R65, D32;
  log 10). Safe: nothing can be proved of what follows. -/
  | unframedPayload
  deriving DecidableEq, Repr

/-- Why an instruction has no meaning. -/
inductive Refusal where
  /-- For an arm of `exec` without a meaning; no arm of this model answers with it. Safe. -/
  | notModelled (mnemonic : String)
  deriving DecidableEq, Repr

/-- The state after reset of an instance with the parameters `p`: the table of R38, ports empty. -/
def State.resetOf (p : Params) : State where
  params := p
  frameCount := 0
  featHist := List.replicate p.D (List.replicate p.F 0)
  lpcHist := List.replicate p.D (List.replicate p.P 0)
  gainHist := List.replicate p.D 0
  lastSig := List.replicate p.P 0
  lastExc0 := silence
  lastExc1 := silence
  deemphMem := 0
  lpcCur := List.replicate p.P 0
  gainCur := 0
  pred1 := 0
  pairsLeft := 0
  phase := .idle
  err := false
  errCode := 0
  pending := []
  responses := []
  nanEpoch := 0

/-- The machine right after reset (R38, R185), for the instance with the suggested parameters (log 2, log 3). -/
def State.reset : State := State.resetOf defaultParams

end Sys2Proof.Machine
end

