-- ==== Sys2Proof/Machine/Flags.lean ====
section
/-! DEFINITION. The flags and the words that show them: `ACTIVE`, the error code numbers, the response header and
`STATUS`. The block has no arithmetic condition codes (R36). -/

namespace Sys2Proof.Machine

/-- `ACTIVE`: not stored, the predicate `frame_count > D` (R36). -/
def active (s : State) : Bool := decide (s.params.D < s.frameCount.toNat)

/-- The 2-bit code of a phase (R32). -/
def phaseCode : Phase → BitVec 2
  | .idle => 0
  | .pairReady => 1
  | .pairWait => 2

/-- The 4-bit error codes (R166). -/
def errNumber : ErrCode → BitVec 4
  | .opcode => 1
  | .reserved => 2
  | .phase => 3
  | .odd => 4
  | .addr => 5
  | .ro => 6
  | .latched => 7

/-- The response header (R74): `{OP, ERR, ECODE, 0000, ACTIVE, PHASE, NDATA}`, flags as the state `s` has them. -/
def headerWord (op : BitVec 4) (err : Bool) (ecode : BitVec 4) (ndata : Nat) (s : State) : Word :=
  op ++ BitVec.ofBool err ++ ecode ++ 0#4 ++ BitVec.ofBool (active s) ++ phaseCode s.phase ++ BitVec.ofNat 16 ndata

/-- `STATUS` (R43): `{PAIRS_LEFT, 00000000, ERR_CODE, ERR, ACTIVE, PHASE}`. -/
def statusWord (s : State) : Word :=
  s.pairsLeft ++ 0#8 ++ s.errCode ++ BitVec.ofBool s.err ++ BitVec.ofBool (active s) ++ phaseCode s.phase

/-- Whether the error latch stops a command with this opcode field: all but INIT and RDREG (R175, R176 check 1). -/
def latchBlocks (op : BitVec 4) (s : State) : Bool := s.err && op != 0 && op != 7

end Sys2Proof.Machine
end

