-- ==== Sys2Proof/Machine/Operands.lean ====
section
/-! DEFINITION. The register map as an operand form (10_state.md R40, R47): which register an address names, at what
address a register stands, and which registers WRREG may write. -/

namespace Sys2Proof.Machine

/-- The scalar registers by address (R40). -/
def scalarAt : Nat → Option Reg
  | 0x0 => some .id
  | 0x1 => some .paramP
  | 0x2 => some .paramD
  | 0x3 => some .paramF
  | 0x4 => some .paramCap
  | 0x5 => some .stateSize
  | 0x8 => some .status
  | 0x9 => some .frameCount
  | 0xA => some .deemphMem
  | 0xB => some .lastExc
  | 0xC => some .gainCur
  | 0xD => some .pred1
  | _ => none

/-- The array windows by address (R40, R47): dense, the two-dimensional ones slot-major. -/
def windowAt (p : Params) (a : Nat) : Option Reg :=
  if 0x100 ≤ a ∧ a < 0x100 + p.P then some (.lastSig (a - 0x100))
  else if 0x200 ≤ a ∧ a < 0x200 + p.P then some (.lpcCur (a - 0x200))
  else if 0x300 ≤ a ∧ a < 0x300 + p.D then some (.gainHist (a - 0x300))
  else if 0x1000 ≤ a ∧ a < 0x1000 + p.D * p.P then some (.lpcHist ((a - 0x1000) / p.P) ((a - 0x1000) % p.P))
  else if 0x2000 ≤ a ∧ a < 0x2000 + p.D * p.F then some (.featHist ((a - 0x2000) / p.F) ((a - 0x2000) % p.F))
  else none

/-- The register at an address; `none` where the address is unmapped (R40, R48). -/
def regAt (p : Params) (addr : Addr) : Option Reg :=
  match scalarAt addr.toNat with
  | some r => some r
  | none => windowAt p addr.toNat

/-- The address of a register (R40). -/
def regAddr (p : Params) : Reg → Nat
  | .id => 0x0
  | .paramP => 0x1
  | .paramD => 0x2
  | .paramF => 0x3
  | .paramCap => 0x4
  | .stateSize => 0x5
  | .status => 0x8
  | .frameCount => 0x9
  | .deemphMem => 0xA
  | .lastExc => 0xB
  | .gainCur => 0xC
  | .pred1 => 0xD
  | .lastSig j => 0x100 + j
  | .lpcCur i => 0x200 + i
  | .gainHist j => 0x300 + j
  | .lpcHist j i => 0x1000 + j * p.P + i
  | .featHist j i => 0x2000 + j * p.F + i

/-- Whether a register exists in an instance with these sizes: its indices lie in their ranges (R40). -/
def regExists (p : Params) : Reg → Bool
  | .lastSig j => decide (j < p.P)
  | .lpcCur i => decide (i < p.P)
  | .gainHist j => decide (j < p.D)
  | .lpcHist j i => decide (j < p.D) && decide (i < p.P)
  | .featHist j i => decide (j < p.D) && decide (i < p.F)
  | .id => true
  | .paramP => true
  | .paramD => true
  | .paramF => true
  | .paramCap => true
  | .stateSize => true
  | .status => true
  | .frameCount => true
  | .deemphMem => true
  | .lastExc => true
  | .gainCur => true
  | .pred1 => true

/-- Access `RW` (R40): the persistent state. -/
def regWritable : Reg → Bool
  | .frameCount => true
  | .deemphMem => true
  | .lastExc => true
  | .lastSig _ => true
  | .gainHist _ => true
  | .lpcHist _ _ => true
  | .featHist _ _ => true
  | .id => false
  | .paramP => false
  | .paramD => false
  | .paramF => false
  | .paramCap => false
  | .stateSize => false
  | .status => false
  | .gainCur => false
  | .pred1 => false
  | .lpcCur _ => false

end Sys2Proof.Machine
end

