-- ==== Sys2Proof/Machine/Ops.lean ====
section
/-! DEFINITION. The operations the commands share: answering, refusing with the error latch (60_exceptions.md R168),
setting the state to its reset values (R38), the register-space accesses MemRead and MemWrite (20_memory.md R52, R53)
and the delay-line primitive (41_frame_alignment.md R108). -/

namespace Sys2Proof.Machine

/-- Put one response on the response port, its flags those of `s` (R73, R74). -/
def emit (op : BitVec 4) (err : Bool) (ecode : BitVec 4) (data : List Word) (s : State) : State :=
  { s with responses := s.responses ++ [{ header := headerWord op err ecode data.length s, data := data }] }

/-- `respond(data)`: the answer of an accepted command (R17, R75). -/
def respond (op : BitVec 4) (data : List Word) (s : State) : State := emit op false 0 data s

/-- The error latch keeps the first cause (R35, R168 b). -/
def latch (e : ErrCode) (s : State) : State :=
  if s.err then s else { s with err := true, errCode := errNumber e }

/-- `raise E` (R17, R168): the one way a command is refused. Nothing changes but the latch, and the response is the
header with ERR, ECODE and no data (R76). This is all there is to "trap entry" (R177). -/
def raise (op : BitVec 4) (e : ErrCode) (s : State) : State := emit op true (errNumber e) [] (latch e s)

/-- The refusal of a word that spells no command, with the check of the latch before it (R176 checks 1 to 3). -/
def refuseWord (op : BitVec 4) (e : ErrCode) (s : State) : State :=
  if latchBlocks op s then raise op .latched s else raise op e s

/-- Every piece of state at the value of R38, for INIT (R150) and hardware reset (R185): the return from the latched
state (R178). The ports keep what they hold (log 9) and the epoch of free patterns goes on (log 13). -/
def clearState (s : State) : State :=
  { State.resetOf s.params with pending := s.pending, responses := s.responses, nanEpoch := s.nanEpoch }

/-- `Push(line, v)` (R108): every slot one place towards the old end, the oldest dropped, `v` in slot 0. The same
shift is the tap-delay update of R127. -/
def push {α : Type} (line : List α) (v : α) : List α := v :: line.dropLast

/-- `MemRead(addr, 1)` for the register `r` at `addr` (R52; contents R41 to R47). -/
def memRead (r : Reg) (s : State) : Word :=
  match r with
  | .id => 0x424C5053#32
  | .paramP => BitVec.ofNat 32 s.params.P
  | .paramD => BitVec.ofNat 32 s.params.D
  | .paramF => BitVec.ofNat 32 s.params.F
  | .paramCap => BitVec.ofNat 32 s.params.CAP
  | .stateSize => BitVec.ofNat 32 s.params.stateSize
  | .status => statusWord s
  | .frameCount => s.frameCount.setWidth 32
  | .deemphMem => s.deemphMem
  | .lastExc => 0#16 ++ s.lastExc1 ++ s.lastExc0
  | .gainCur => s.gainCur
  | .pred1 => s.pred1
  | .lastSig j => s.lastSig.getD j 0
  | .lpcCur i => s.lpcCur.getD i 0
  | .gainHist j => s.gainHist.getD j 0
  | .lpcHist j i => (s.lpcHist.getD j []).getD i 0
  | .featHist j i => (s.featHist.getD j []).getD i 0

/-- Element `i` of slot `j` of a vector line replaced (R47). -/
def setElem (line : List (List F32)) (j i : Nat) (v : F32) : List (List F32) :=
  line.set j ((line.getD j []).set i v)

/-- `MemWrite(addr, 1, v)` for the register `r` at `addr` (R53, R158): the one register addressed. A register without
access `RW` is refused before this is called; it keeps its value. -/
def memWrite (r : Reg) (v : Word) (s : State) : State :=
  match r with
  | .frameCount => { s with frameCount := BitVec.ofNat 16 (min v.toNat s.params.CAP) }
  | .deemphMem => { s with deemphMem := v }
  | .lastExc => { s with lastExc0 := v.extractLsb' 0 8, lastExc1 := v.extractLsb' 8 8 }
  | .lastSig j => { s with lastSig := s.lastSig.set j v }
  | .gainHist j => { s with gainHist := s.gainHist.set j v }
  | .lpcHist j i => { s with lpcHist := setElem s.lpcHist j i v }
  | .featHist j i => { s with featHist := setElem s.featHist j i v }
  | .id => s
  | .paramP => s
  | .paramD => s
  | .paramF => s
  | .paramCap => s
  | .stateSize => s
  | .status => s
  | .gainCur => s
  | .pred1 => s
  | .lpcCur _ => s

end Sys2Proof.Machine
end

