-- ==== Sys2Proof/Machine/Compander.lean ====
section
/-! DEFINITION. The mu-law compander and its commands ENC and DEC (40_compander.md). -/

namespace Sys2Proof.Machine

/-- `Enc(x)`: the number of thresholds that `x` reaches (R92). A NaN reaches none (R97). -/
def encode8 (p : Params) (x : F32) : Code := BitVec.ofNat 8 (p.THR.countP fun t => Num.fge x t)

/-- `Dec(u)`: the table entry (R91). -/
def decode8 (p : Params) (u : Code) : F32 := p.decAt u.toNat

/-- ENC (R99). -/
def execEnc (x : F32) (s : State) : Host.Outcome State Fault Refusal :=
  if latchBlocks 5 s then .next (raise 5 .latched s)
  else .next (respond 5 [(encode8 s.params x).setWidth 32] s)

/-- DEC (R100). -/
def execDec (u : Code) (s : State) : Host.Outcome State Fault Refusal :=
  if latchBlocks 6 s then .next (raise 6 .latched s)
  else .next (respond 6 [decode8 s.params u] s)

end Sys2Proof.Machine
end

