-- ==== Sys2Proof/Machine/FrameAlignment.lean ====
section
/-! DEFINITION. The frame step: PITCH and FRAME (41_frame_alignment.md). -/

namespace Sys2Proof.Machine

/-- `floor(1/10 + 50·real(f) + 100)` for a finite `f`, exact on the rational value (R106); `/` on Int rounds down. -/
def lagFloor (k : Consts) (f : F32) : Int :=
  ((k.lagBiasNum * Num.one + k.lagOffset * k.lagBiasDen * Num.one : Nat) + (k.lagScale * k.lagBiasDen : Nat) * Num.units f) /
    (k.lagBiasDen * Num.one : Nat)

/-- `Pitch(f)` (R106): clamped to the lag bounds; +∞ gives the upper bound, −∞ and NaN the lower. -/
def pitchLag (k : Consts) (f : F32) : Nat :=
  if Num.isNaN f then k.lagMin
  else if Num.isInf f then (if Num.signBit f then k.lagMin else k.lagMax)
  else (min (k.lagMax : Int) (max (k.lagMin : Int) (lagFloor k f))).toNat

/-- PITCH (R107): a pure function. -/
def execPitch (f : F32) (s : State) : Host.Outcome State Fault Refusal :=
  if latchBlocks 1 s then .next (raise 1 .latched s)
  else .next (respond 1 [BitVec.ofNat 32 (pitchLag s.params.consts f)] s)

/-- FRAME step 2 (R111): push the gain, then read back the oldest slot. -/
def alignGain (g : F32) (s : State) : State :=
  { s with gainHist := push s.gainHist g, gainCur := (push s.gainHist g).getD (s.params.D - 1) 0 }

/-- FRAME step 3, the block's share (R112, R113): push the frame-input vector, count the frame, saturating. -/
def countFrame (v : List F32) (s : State) : State :=
  { s with
    featHist := push s.featHist v
    frameCount := BitVec.ofNat 16 (min (s.frameCount.toNat + 1) s.params.CAP) }

/-- FRAME step 4 (R114): push the LPC set, then latch the oldest one. -/
def alignLpc (a : List F32) (s : State) : State :=
  { s with lpcHist := push s.lpcHist a, lpcCur := (push s.lpcHist a).getD (s.params.D - 1) [] }

/-- FRAME steps 2 to 4, in order (R110). -/
def alignFrame (g : F32) (a v : List F32) (s : State) : State := alignLpc a (countFrame v (alignGain g s))

/-- FRAME step 5 and outcome (R115, R116): a warm-up frame answers the gain and `n` zero samples and opens no pair; an
active frame answers the gain and opens `n / 2` pairs. -/
def openFrame (n : BitVec 16) (s : State) : State :=
  if active s then
    respond 2 [s.gainCur] { s with pairsLeft := n >>> 1, phase := if n = 0 then .idle else .pairReady }
  else
    respond 2 (s.gainCur :: List.replicate n.toNat 0) { s with pairsLeft := 0, phase := .idle }

/-- FRAME (R110 to R118). A payload that is not `1 + P + F` words long cannot be presented (R65; log 10). -/
def execFrame (n : BitVec 16) (g : F32) (a v : List F32) (s : State) : Host.Outcome State Fault Refusal :=
  if a.length ≠ s.params.P ∨ v.length ≠ s.params.F then .fault .unframedPayload
  else if latchBlocks 2 s then .next (raise 2 .latched s)
  else if s.phase ≠ .idle then .next (raise 2 .phase s)
  else if n.getLsbD 0 then .next (raise 2 .odd s)
  else .next (openFrame n (alignFrame g a v s))

end Sys2Proof.Machine
end

