-- ==== Sys2Proof/Machine/PairSynthesis.lean ====
section
/-! DEFINITION. Sample-pair synthesis: PREDICT and COMMIT (42_pair_synthesis.md). Every arithmetic operation takes the
pattern of a NaN it may produce from the epoch in which it runs and its own site there (log 13). -/

namespace Sys2Proof.Machine

/-- The accumulation of `LpcPredict` (R125): `acc <- fsub(acc, fmul(s[j], c[j]))` for ascending `j`. -/
def lpcAccumulate (epoch : Nat) : Nat → F32 → List F32 → List F32 → F32
  | j, acc, s :: ss, c :: cs =>
    lpcAccumulate epoch (j + 1)
      (Num.fsub (Config.freeNaN epoch (2 * j + 1)) acc (Num.fmul (Config.freeNaN epoch (2 * j)) s c)) ss cs
  | _, acc, _, _ => acc

/-- `LpcPredict(c, s)` (R125): the negative dot product, from +0.0. -/
def lpcPredict (epoch : Nat) (c s : List F32) : F32 := lpcAccumulate epoch 0 0 s c

/-- Reconstruction (R129): `pcm = fadd(p, Dec(e))`. -/
def reconstruct (epoch : Nat) (p : Params) (pred : F32) (e : Code) : F32 :=
  Num.fadd (Config.freeNaN epoch 0) pred (decode8 p e)

/-- The de-emphasis step (R131): `y = fadd(pcm, fmul(PREEMPH, deemph_mem))`. -/
def deemphasise (epoch : Nat) (k : Consts) (pcm mem : F32) : F32 :=
  Num.fadd (Config.freeNaN epoch 2) pcm (Num.fmul (Config.freeNaN epoch 1) k.preemph mem)

/-- The quantiser `Quant(y)` (R132 to R134): NaN gives 0; clamp by F32 comparison; then `floor(real(y) + 1/2)`,
exactly. -/
def quant (k : Consts) (y : F32) : Int :=
  if Num.isNaN y then 0
  else if Num.flt y (Num.ofInt (-(k.clampBound : Int))) then -(k.clampBound : Int)
  else if Num.fgt y (Num.ofInt k.clampBound) then k.clampBound
  else (2 * Num.units y + (Num.one : Nat)) / (2 * Num.one : Nat)

/-- `EmitSample(p, e)` (R135): the sample and the state after it: one push into the window, the filter memory, one
epoch of free patterns used. -/
def emitSample (pred : F32) (e : Code) (s : State) : BitVec 16 × State :=
  let pcm := reconstruct s.nanEpoch s.params pred e
  let y := deemphasise s.nanEpoch s.params.consts pcm s.deemphMem
  (BitVec.ofInt 16 (quant s.params.consts y),
   { s with lastSig := push s.lastSig pcm, deemphMem := y, nanEpoch := s.nanEpoch + 1 })

/-- The word of the context bundle for one pair index (R75, R137): `{0x00, exc, pred, sig}`. -/
def bundleWord (exc pred sig : Code) : Word := 0#8 ++ exc ++ pred ++ sig

/-- The prediction PREDICT makes, for both pair indices (R138). -/
def currentPrediction (s : State) : F32 := lpcPredict s.nanEpoch s.lpcCur s.lastSig

/-- PREDICT's data words (R75, R142). -/
def bundle (s : State) : List Word :=
  [bundleWord s.lastExc0 (encode8 s.params (currentPrediction s)) (encode8 s.params (s.lastSig.getD 0 0)),
   bundleWord s.lastExc1 (encode8 s.params (currentPrediction s)) (encode8 s.params (s.lastSig.getD 1 0)),
   s.gainCur]

/-- PREDICT (R142). -/
def execPredict (s : State) : Host.Outcome State Fault Refusal :=
  if latchBlocks 3 s then .next (raise 3 .latched s)
  else if s.phase ≠ .pairReady then .next (raise 3 .phase s)
  else
    .next (respond 3 (bundle s)
      { s with pred1 := currentPrediction s, phase := .pairWait, nanEpoch := s.nanEpoch + 1 })

/-- COMMIT steps d and e (R143): the pair's first sample, from the latched prediction; `last_exc[1]` recorded. -/
def commitFirst (e1 : Code) (s : State) : BitVec 16 × State :=
  ((emitSample s.pred1 e1 s).1, { (emitSample s.pred1 e1 s).2 with lastExc1 := e1 })

/-- COMMIT steps f and g (R139, R143): a fresh prediction from the window as it now stands, then the pair's second
sample; `last_exc[0]` recorded. -/
def commitSecond (e0 : Code) (s : State) : BitVec 16 × State :=
  let p0 := lpcPredict s.nanEpoch s.lpcCur s.lastSig
  let t := { s with nanEpoch := s.nanEpoch + 1 }
  ((emitSample p0 e0 t).1, { (emitSample p0 e0 t).2 with lastExc0 := e0 })

/-- One pair is done (R143): `pairs_left` counts down and `phase` follows it. -/
def closePair (s : State) : State :=
  { s with pairsLeft := s.pairsLeft - 1, phase := if s.pairsLeft - 1 = 0 then .idle else .pairReady }

/-- COMMIT (R143): the two samples leave in chronological order, sign-extended (R75, R140). -/
def execCommit (e1 e0 : Code) (s : State) : Host.Outcome State Fault Refusal :=
  if latchBlocks 4 s then .next (raise 4 .latched s)
  else if s.phase ≠ .pairWait then .next (raise 4 .phase s)
  else
    let first := commitFirst e1 s
    let second := commitSecond e0 first.2
    .next (respond 4 [first.1.signExtend 32, second.1.signExtend 32] (closePair second.2))

end Sys2Proof.Machine
end

