-- ==== Sys2Proof/Machine/StateAccess.lean ====
section
/-! DEFINITION. State creation and access: INIT, RDREG and WRREG (43_state_access.md). -/

namespace Sys2Proof.Machine

/-- INIT (R150): in every phase and with the error latched; header only. -/
def execInit (s : State) : Host.Outcome State Fault Refusal := .next (respond 0 [] (clearState s))

/-- RDREG (R153): in every phase and with the error latched. -/
def execRdreg (addr : Addr) (s : State) : Host.Outcome State Fault Refusal :=
  match regAt s.params addr with
  | none => .next (raise 7 .addr s)
  | some r => .next (respond 7 [memRead r s] s)

/-- WRREG (R156): phase, then address, then access. -/
def execWrreg (addr : Addr) (v : Word) (s : State) : Host.Outcome State Fault Refusal :=
  if latchBlocks 8 s then .next (raise 8 .latched s)
  else if s.phase ≠ .idle then .next (raise 8 .phase s)
  else
    match regAt s.params addr with
    | none => .next (raise 8 .addr s)
    | some r => if regWritable r then .next (respond 8 [] (memWrite r v s)) else .next (raise 8 .ro s)

end Sys2Proof.Machine
end

