-- ==== Sys2Proof/Machine/Dispatch.lean ====
section
/-! DEFINITION. The dispatch: one arm per command, each one direct call of its meaning. -/

namespace Sys2Proof.Machine

def exec (i : Instr) (s : State) : Host.Outcome State Fault Refusal :=
  match i with
  | .init => Sys2Proof.Machine.execInit s
  | .pitch f => Sys2Proof.Machine.execPitch f s
  | .frame n g a v => Sys2Proof.Machine.execFrame n g a v s
  | .predict => Sys2Proof.Machine.execPredict s
  | .commit e1 e0 => Sys2Proof.Machine.execCommit e1 e0 s
  | .enc x => Sys2Proof.Machine.execEnc x s
  | .dec u => Sys2Proof.Machine.execDec u s
  | .rdreg addr => Sys2Proof.Machine.execRdreg addr s
  | .wrreg addr v => Sys2Proof.Machine.execWrreg addr v s

end Sys2Proof.Machine
end

