-- ==== Sys2Proof/Machine/Transaction.lean ====
section
/-! DEFINITION. What one event at the ports does: a command transaction, executed whole (R59, R65), or hardware reset
(R185, R187). There is no program counter and no fetch (R32): the host presents each command. -/

namespace Sys2Proof.Machine

/-- One command transaction: the checks of R176 stand in `refuseWord` and in each meaning. -/
def runTransaction (w : Word) (payload : List Word) (s : State) : Host.Outcome State Fault Refusal :=
  match decode s.params w payload with
  | .instr i => exec i s
  | .refuse e => .next (refuseWord (opField w) e s)
  | .unframed => .fault .unframedPayload

/-- One event, taken from the port. -/
def handleEvent (ev : PortEvent) (s : State) : Host.Outcome State Fault Refusal :=
  match ev with
  | .command w payload => runTransaction w payload s
  | .reset => .next (clearState s)

/-- The event that presents a command (R65, R78). -/
def presented (i : Instr) : PortEvent := .command (encodeWord i) (encodePayload i)

/-- The transaction of `tableTransaction` as an event. -/
def tableEvent (p : Params) (nbits w : Nat) : PortEvent :=
  .command (tableTransaction p nbits w).1 (tableTransaction p nbits w).2

end Sys2Proof.Machine
end

