-- ==== Sys2Proof/Machine/Step.lean ====
section
/-! DEFINITION. One step of the block: it takes the oldest event at the command port, and with none there it stays as
it is (R4, R59, R184, R186; log 7). -/

namespace Sys2Proof.Machine

/-- One step. -/
def step (s : State) : Host.Outcome State Fault Refusal :=
  match s.pending with
  | [] => .next s
  | ev :: rest => handleEvent ev { s with pending := rest }

/-- `s` with the transaction whose bits are `w` presented at the front of the command port, so that the next step
takes exactly it (log 18). -/
def State.withFetchWord (s : State) (nbits w : Nat) : State :=
  { s with pending := tableEvent s.params nbits w :: s.pending }

end Sys2Proof.Machine
end

