-- ==== Sys2Proof/Machine/Assembler.lean ====
section
/-! DEFINITION. The assembler of 30_encoding.md R78 and R79 and the pseudo-instructions of R80: one line of text, as a
list of characters, gives the commands it stands for. `encode` (Decode.lean) then gives their words. -/

namespace Sys2Proof.Machine

/-! ## The register operands of SAVE and RESTORE -/

/-- The persistent registers in ascending address order (R80, R42): the words of a state image. -/
def savedRegs (p : Params) : List Reg :=
  [.frameCount, .deemphMem, .lastExc] ++
  (List.range p.P).map Reg.lastSig ++
  (List.range p.D).map Reg.gainHist ++
  (List.range p.D).flatMap (fun j => (List.range p.P).map fun i => Reg.lpcHist j i) ++
  (List.range p.D).flatMap (fun j => (List.range p.F).map fun i => Reg.featHist j i)

/-- The address of a register as an immediate (R79). A register of an instance within the spec's bounds stands below
2^16; the immediate of another would be cut to 16 bits (log 19). -/
def regImm (p : Params) (r : Reg) : Addr := BitVec.ofNat 16 (regAddr p r)

/-- `SAVE` (R80): one RDREG for each word of the image. -/
def saveCommands (p : Params) : List Instr := (savedRegs p).map fun r => .rdreg (regImm p r)

/-- `RESTORE img` (R80): INIT, then the image's words written back to the same addresses in the same order. The image
has `STATE_SIZE` words, which `plainLine` checks. -/
def restoreCommands (p : Params) (img : List Word) : List Instr :=
  .init :: ((savedRegs p).zip img).map fun rv => .wrreg (regImm p rv.1) rv.2

/-- `NOP` (R80). -/
def nopCommand (p : Params) : Instr := .rdreg (regImm p .id)

/-- `RDSTATUS` (R80). -/
def rdstatusCommand (p : Params) : Instr := .rdreg (regImm p .status)

/-! ## Characters to tokens -/

/-- The tokens of a line. -/
inductive Token where
  | word (cs : List Char)
  | comma
  | lbracket
  | rbracket
  deriving DecidableEq, Repr

/-- A pending word, if any, before the tokens that follow. -/
def flushWord (acc : List Char) (ts : List Token) : List Token :=
  if acc.isEmpty then ts else .word acc.reverse :: ts

/-- The tokens of a line (R78): `;` starts a comment. Spaces and tabs separate words: DESIGN CHOICE (log 22). `acc` is
the word being read, reversed. -/
def lexLine : List Char → List Char → List Token
  | acc, [] => flushWord acc []
  | acc, c :: cs =>
    if c = ';' then flushWord acc []
    else if c = ' ' ∨ c = '\t' then flushWord acc (lexLine [] cs)
    else if c = ',' then flushWord acc (.comma :: lexLine [] cs)
    else if c = '[' then flushWord acc (.lbracket :: lexLine [] cs)
    else if c = ']' then flushWord acc (.rbracket :: lexLine [] cs)
    else lexLine (c :: acc) cs

/-! ## Numbers (R79) -/

/-- The value of a digit, hexadecimal included; both cases are read: DESIGN CHOICE (log 22). -/
def digitValue (c : Char) : Option Nat :=
  let n := c.toNat
  if 48 ≤ n ∧ n ≤ 57 then some (n - 48)
  else if 65 ≤ n ∧ n ≤ 70 then some (n - 55)
  else if 97 ≤ n ∧ n ≤ 102 then some (n - 87)
  else none

/-- The digits `cs` after the value `acc`; `none` on a character that is no digit of the base. -/
def readDigits (base : Nat) : Nat → List Char → Option Nat
  | acc, [] => some acc
  | acc, c :: cs =>
    match digitValue c with
    | some d => if d < base then readDigits base (acc * base + d) cs else none
    | none => none

/-- A non-empty run of digits. -/
def readNumber (base : Nat) (cs : List Char) : Option Nat := if cs.isEmpty then none else readDigits base 0 cs

/-- An unsigned integer in decimal or `0x` hexadecimal, below `bound` (R79). -/
def readUnsigned (bound : Nat) (cs : List Char) : Option Nat :=
  let n :=
    match cs with
    | '0' :: 'x' :: ds => readNumber 16 ds
    | ds => readNumber 10 ds
  match n with
  | some k => if k < bound then some k else none
  | none => none

/-- A decimal digit. -/
def isDecimal (c : Char) : Bool := decide (48 ≤ c.toNat) && decide (c.toNat ≤ 57)

/-- The exponent part of a literal, from its `e` on; absent, it is 0. -/
def readExponent : List Char → Option Int
  | [] => some 0
  | e :: rest =>
    if e = 'e' ∨ e = 'E' then
      match rest with
      | '-' :: ds => (readNumber 10 ds).map fun k => -(k : Int)
      | '+' :: ds => (readNumber 10 ds).map fun k => (k : Int)
      | ds => (readNumber 10 ds).map fun k => (k : Int)
    else none

/-- `digits · 10^ex` as the nearest binary32 value (R79). -/
def decimalF32 (neg : Bool) (digits : Nat) (ex : Int) : F32 :=
  if ex < 0 then Num.ofRatio neg digits (10 ^ ex.natAbs) else Num.ofRatio neg (digits * 10 ^ ex.natAbs) 1

/-- A decimal literal with a point or an exponent (R79), its sign already read. The digits may be missing on one side of
the point, and the exponent is `e` or `E` with or without a sign: DESIGN CHOICE (log 22). -/
def readDecimal (neg : Bool) (cs : List Char) : Option F32 :=
  let whole := cs.takeWhile isDecimal
  let rest := cs.dropWhile isDecimal
  let part : List Char × List Char :=
    match rest with
    | '.' :: more => (more.takeWhile isDecimal, more.dropWhile isDecimal)
    | more => ([], more)
  if rest.isEmpty then none
  else
    match readNumber 10 (whole ++ part.1), readExponent part.2 with
    | some digits, some ex => some (decimalF32 neg digits (ex - part.1.length))
    | _, _ => none

/-- An F32 operand (R79): a decimal literal, `#` and eight hexadecimal digits, `inf` or `-inf`. -/
def readF32 (cs : List Char) : Option F32 :=
  match cs with
  | '#' :: ds => if ds.length = 8 then (readNumber 16 ds).map (BitVec.ofNat 32) else none
  | ['i', 'n', 'f'] => some 0x7F800000#32
  | ['-', 'i', 'n', 'f'] => some 0xFF800000#32
  | '-' :: ds => readDecimal true ds
  | ds => readDecimal false ds

/-! ## Operands -/

/-- An operand: a word, a register name with indices, or an array (R78, R79). -/
inductive Operand where
  | atom (w : List Char)
  | indexed (w : List Char) (indices : List (List Char))
  | array (items : List (List Char))
  deriving DecidableEq, Repr

/-- The items of an array after its opening bracket, and what follows its closing one. -/
def readItems : List Token → Option (List (List Char) × List Token)
  | .word w :: .rbracket :: ts => some ([w], ts)
  | .word w :: .comma :: ts => (readItems ts).map fun x => (w :: x.1, x.2)
  | _ => none

/-- One operand and what follows it. -/
def readOperand : List Token → Option (Operand × List Token)
  | .word w :: .lbracket :: .word i :: .rbracket :: .lbracket :: .word j :: .rbracket :: ts => some (.indexed w [i, j], ts)
  | .word w :: .lbracket :: .word i :: .rbracket :: ts => some (.indexed w [i], ts)
  | .word w :: ts => some (.atom w, ts)
  | .lbracket :: ts => (readItems ts).map fun x => (.array x.1, x.2)
  | _ => none

/-- The operands of a line, separated by commas; the first argument bounds how many. -/
def readOperands : Nat → List Token → Option (List Operand)
  | 0, _ => none
  | fuel + 1, ts =>
    match readOperand ts with
    | some (o, []) => some [o]
    | some (o, .comma :: rest) => (readOperands fuel rest).map (o :: ·)
    | _ => none

/-- A register name without indices (R40). -/
def scalarNamed (w : List Char) : Option Reg :=
  if w = "ID".toList then some .id
  else if w = "PARAM_P".toList then some .paramP
  else if w = "PARAM_D".toList then some .paramD
  else if w = "PARAM_F".toList then some .paramF
  else if w = "PARAM_CAP".toList then some .paramCap
  else if w = "STATE_SIZE".toList then some .stateSize
  else if w = "STATUS".toList then some .status
  else if w = "FRAME_COUNT".toList then some .frameCount
  else if w = "DEEMPH_MEM".toList then some .deemphMem
  else if w = "LAST_EXC".toList then some .lastExc
  else if w = "GAIN_CUR".toList then some .gainCur
  else if w = "PRED1".toList then some .pred1
  else none

/-- An indexed register name (R40, R79). -/
def arrayNamed (w : List Char) (idx : List Nat) : Option Reg :=
  match idx with
  | [j] =>
    if w = "LAST_SIG".toList then some (.lastSig j)
    else if w = "LPC_CUR".toList then some (.lpcCur j)
    else if w = "GAIN_HIST".toList then some (.gainHist j)
    else none
  | [j, i] =>
    if w = "LPC_HIST".toList then some (.lpcHist j i)
    else if w = "FEAT_HIST".toList then some (.featHist j i)
    else none
  | _ => none

/-- A register operand (R79): a name, with its indices, or a 16-bit address. The address comes with the register it
names, if it names one. R40 gives an array name no address beyond its last element, so such a name (`LAST_SIG[2]` with
P = 2, or an index that would lead past 0xFFFF) is no operand and the line is rejected; its address, where it has 16
bits, can be written as a number: DESIGN CHOICE (log 22). -/
def readReg (p : Params) : Operand → Option (Addr × Option Reg)
  | .atom w =>
    match scalarNamed w with
    | some r => some (regImm p r, some r)
    | none => (readUnsigned 65536 w).map fun a => (BitVec.ofNat 16 a, regAt p (BitVec.ofNat 16 a))
  | .indexed w idx =>
    match idx.mapM (readUnsigned 65536) with
    | some ns => ((arrayNamed w ns).filter (regExists p)).map fun r => (regImm p r, some r)
    | none => none
  | .array _ => none

/-- Whether a register holds one F32 (R45). -/
def holdsF32 : Reg → Bool
  | .deemphMem => true
  | .gainCur => true
  | .pred1 => true
  | .lastSig _ => true
  | .lpcCur _ => true
  | .gainHist _ => true
  | .lpcHist _ _ => true
  | .featHist _ _ => true
  | .id => false
  | .paramP => false
  | .paramD => false
  | .paramF => false
  | .paramCap => false
  | .stateSize => false
  | .status => false
  | .frameCount => false
  | .lastExc => false

/-- The value operand of WRREG (R79): an F32 for a register that holds one, an unsigned 32-bit integer for another. At
a numeric address without a register the spec gives no spelling; here it is an integer too: DESIGN CHOICE (log 22). -/
def readValue (r : Option Reg) (w : List Char) : Option Word :=
  match r with
  | some r => if holdsF32 r then readF32 w else (readUnsigned (2 ^ 32) w).map (BitVec.ofNat 32)
  | none => (readUnsigned (2 ^ 32) w).map (BitVec.ofNat 32)

/-! ## Lines -/

/-- A command without array operands, or a pseudo-instruction (R78, R80). The spec does not spell the operand of
`RESTORE img`; here it is one bracketed array of exactly `STATE_SIZE` unsigned 32-bit integers: DESIGN CHOICE
(log 22). -/
def plainLine (p : Params) (m : List Char) (ops : List Operand) : Option (List Instr) :=
  match ops with
  | [] =>
    if m = "INIT".toList then some [.init]
    else if m = "PREDICT".toList then some [.predict]
    else if m = "NOP".toList then some [nopCommand p]
    else if m = "RDSTATUS".toList then some [rdstatusCommand p]
    else if m = "SAVE".toList then some (saveCommands p)
    else none
  | [.array ws] =>
    if m = "RESTORE".toList then
      match ws.mapM (readUnsigned (2 ^ 32)) with
      | some ns =>
        if ns.length = p.stateSize then some (restoreCommands p (ns.map (BitVec.ofNat 32))) else none
      | none => none
    else none
  | [o] =>
    if m = "RDREG".toList then (readReg p o).map fun x => [.rdreg x.1]
    else
      match o with
      | .atom w =>
        if m = "PITCH".toList then (readF32 w).map fun f => [.pitch f]
        else if m = "ENC".toList then (readF32 w).map fun x => [.enc x]
        else if m = "DEC".toList then (readUnsigned 256 w).map fun u => [.dec (BitVec.ofNat 8 u)]
        else none
      | _ => none
  | [.atom w1, .atom w0] =>
    if m = "COMMIT".toList then
      match readUnsigned 256 w1, readUnsigned 256 w0 with
      | some e1, some e0 => some [.commit (BitVec.ofNat 8 e1) (BitVec.ofNat 8 e0)]
      | _, _ => none
    else if m = "WRREG".toList then
      match readReg p (.atom w1) with
      | some x => (readValue x.2 w0).map fun v => [.wrreg x.1 v]
      | none => none
    else none
  | [o, .atom w] =>
    if m = "WRREG".toList then
      match readReg p o with
      | some x => (readValue x.2 w).map fun v => [.wrreg x.1 v]
      | none => none
    else none
  | _ => none

/-- FRAME (R78): the arrays have exactly `P` and `F` elements. -/
def frameLine (p : Params) (m : List Char) (ops : List Operand) : Option (List Instr) :=
  match ops with
  | [.atom n, .atom g, .array as, .array vs] =>
    if m = "FRAME".toList then
      match readUnsigned 65536 n, readF32 g, as.mapM readF32, vs.mapM readF32 with
      | some n, some g, some a, some v =>
        if a.length = p.P ∧ v.length = p.F then some [.frame (BitVec.ofNat 16 n) g a v] else none
      | _, _, _, _ => none
    else none
  | _ => none

/-- One line of a listing (R78): the commands it stands for. An empty line or a comment alone stands for none: DESIGN
CHOICE (log 22). -/
def assembleLine (p : Params) (line : List Char) : Option (List Instr) :=
  match lexLine [] line with
  | [] => some []
  | .word m :: [] => plainLine p m []
  | .word m :: ts =>
    match readOperands ts.length ts with
    | some ops =>
      match frameLine p m ops with
      | some is => some is
      | none => plainLine p m ops
    | none => none
  | _ => none

end Sys2Proof.Machine
end

