-- ==== Sys2Proof/Machine/HostProcedure.lean ====
section
/-! DEFINITION. The host as an agent (R4): how it issues commands and the procedure of R190 that makes one frame of
samples from them. The neural stages are the host's (R7) and stand here as arguments with a state of their own. -/

namespace Sys2Proof.Machine

/-- Commands executed one after the other (R59), stopping where one stops. -/
def execAll : List Instr → State → Host.Outcome State Fault Refusal
  | [], s => .next s
  | i :: is, s =>
    match exec i s with
    | .next t => execAll is t
    | .fault r => .fault r
    | .refused r => .refused r

/-- The host issues one command and takes its response: `none` where the block stops or refuses it (R190 is the
procedure of a host that keeps the contract). -/
def issue (i : Instr) (s : State) : Option (Response × State) :=
  match handleEvent (presented i) s with
  | .next t =>
    match t.responses.getLast? with
    | some r => if r.header.getLsbD 27 then none else some (r, t)
    | none => none
  | .fault _ => none
  | .refused _ => none

/-- Step 5 of R190: `k` times PREDICT, the Sample Generation Stage on the bundle, COMMIT; the samples in order. -/
def synthesizePairs {σ : Type} (generate : σ → List Word → (Code × Code) × σ) :
    Nat → σ → State → Option (List Word × σ × State)
  | 0, h, s => some ([], h, s)
  | k + 1, h, s =>
    (issue .predict s).bind fun b =>
      (issue (.commit (generate h b.1.data).1.1 (generate h b.1.data).1.2) b.2).bind fun r =>
        (synthesizePairs generate k (generate h b.1.data).2 r.2).map fun rest => (r.1.data ++ rest.1, rest.2)

/-- What the host's stages make of a frame before the FRAME command (R190 step 3): from the pitch lag and the counter
before the frame, the LPC set `a` and the frame-input vector `v`. -/
structure FrameInputs where
  a : List F32
  v : List F32

/-- One frame of `n` samples with the pitch feature `f` and the gain feature `g` (R190). -/
def synthesize {σ : Type} (condition : σ → Word → Word → FrameInputs × σ)
    (generate : σ → List Word → (Code × Code) × σ) (n : BitVec 16) (f g : F32) (h : σ) (s : State) :
    Option (List Word × σ × State) :=
  (issue (.pitch f) s).bind fun lag =>
    (issue (.rdreg (regImm s.params .frameCount)) lag.2).bind fun count =>
      let x := condition h (lag.1.data.getD 0 0) (count.1.data.getD 0 0)
      (issue (.frame n g x.1.a x.1.v) count.2).bind fun r =>
        if r.1.data.tail.length = n.toNat then some (r.1.data.tail, x.2, r.2)
        else synthesizePairs generate (n.toNat / 2) x.2 r.2

end Sys2Proof.Machine
end

