-- ==== Sys2Proof/Safety.lean ====
section
/-! DEFINITION. The terms claims are stated in: the invariant of the block, when a run has ended well (R201), which
states a run reaches, F32 values up to the pattern of a NaN (R15), and the exact rational value of an F32 (R14). -/

namespace Sys2Proof

/-- `real(a)`: the exact rational value of a finite F32 (R14). -/
def Num.real (a : F32) : ℚ := (Num.units a : ℚ) / 2 ^ 149

/-- The same value as an F32, where the spec fixes no pattern for a NaN: equal, or both NaN (R15, U3). -/
abbrev Num.Same (a b : F32) : Prop := a = b ∨ (Num.isNaN a = true ∧ Num.isNaN b = true)

/-- The quantisation step at code `u`, in units of 2^-149 (R98): the wider of the two spacings beside it, one at the
ends. -/
def Params.stepAt (p : Params) (u : Nat) : Int :=
  if u = 0 then Num.units (p.decAt 1) - Num.units (p.decAt 0)
  else if u = 255 then Num.units (p.decAt 255) - Num.units (p.decAt 254)
  else max (Num.units (p.decAt u) - Num.units (p.decAt (u - 1))) (Num.units (p.decAt (u + 1)) - Num.units (p.decAt u))

namespace Machine

/-- A command completes: it answers the next state `t`, with one response more, whose header has ERR = 0 and the flags
of `t` (R74), and whose data words are `data` (R75). -/
abbrev Completes (i : Instr) (s t : State) (data : List Word) : Prop :=
  exec i s = .next t ∧
  t.responses = s.responses ++ [{ header := headerWord i.opcode false 0 data.length t, data := data }]

/-- What a refusal with the code `e` leaves (R168): the state before it plus the latch, which keeps the first cause,
and one response with ERR = 1, ECODE, NDATA = 0 and the flags as they stand (R76). -/
abbrev refusedState (op : BitVec 4) (e : ErrCode) (s : State) : State :=
  { s with
    err := true
    errCode := if s.err then s.errCode else errNumber e
    responses := s.responses ++ [{ header := headerWord op true (errNumber e) 0 s, data := [] }] }

/-- Only the response port differs. -/
abbrev OnlyAnswered (s t : State) : Prop := t = { s with responses := t.responses }

/-- Every piece of state has the value of R38. -/
abbrev AtResetValues (s : State) : Prop :=
  s.frameCount = 0 ∧
  s.featHist = List.replicate s.params.D (List.replicate s.params.F 0) ∧
  s.lpcHist = List.replicate s.params.D (List.replicate s.params.P 0) ∧
  s.gainHist = List.replicate s.params.D 0 ∧
  s.lastSig = List.replicate s.params.P 0 ∧
  s.lastExc0 = 128 ∧ s.lastExc1 = 128 ∧
  s.deemphMem = 0 ∧
  s.lpcCur = List.replicate s.params.P 0 ∧
  s.gainCur = 0 ∧ s.pred1 = 0 ∧ s.pairsLeft = 0 ∧ s.phase = .idle ∧ s.err = false ∧ s.errCode = 0

/-- The content of a register (R40 to R47), field by field: `w` is what a read of `r` gives in `s`. -/
def ReadsAs (s : State) : Reg → Word → Prop
  | .id, w => w = 0x424C5053#32
  | .paramP, w => w.toNat = s.params.P
  | .paramD, w => w.toNat = s.params.D
  | .paramF, w => w.toNat = s.params.F
  | .paramCap, w => w.toNat = s.params.CAP
  | .stateSize, w => w.toNat = s.params.D * s.params.F + s.params.D * s.params.P + s.params.D + s.params.P + 3
  | .status, w =>
    w.extractLsb' 0 2 = phaseCode s.phase ∧ w.getLsbD 2 = active s ∧ w.getLsbD 3 = s.err ∧
    w.extractLsb' 4 4 = s.errCode ∧ w.extractLsb' 8 8 = 0 ∧ w.extractLsb' 16 16 = s.pairsLeft
  | .frameCount, w => w.toNat = s.frameCount.toNat
  | .deemphMem, w => w = s.deemphMem
  | .lastExc, w => w.extractLsb' 0 8 = s.lastExc0 ∧ w.extractLsb' 8 8 = s.lastExc1 ∧ w.extractLsb' 16 16 = 0
  | .gainCur, w => w = s.gainCur
  | .pred1, w => w = s.pred1
  | .lastSig j, w => s.lastSig[j]? = some w
  | .lpcCur i, w => s.lpcCur[i]? = some w
  | .gainHist j, w => s.gainHist[j]? = some w
  | .lpcHist j i, w => ∃ set, s.lpcHist[j]? = some set ∧ set[i]? = some w
  | .featHist j i, w => ∃ vec, s.featHist[j]? = some vec ∧ vec[i]? = some w

/-- No register of the map of R40 stands at the address. -/
abbrev Unmapped (p : Params) (addr : Addr) : Prop := ∀ r, regExists p r = true → regAddr p r ≠ addr.toNat

/-- The gains, LPC sets and input vectors of the FRAME commands of a sequence, in order (R109). -/
def framedGains : List Instr → List F32
  | [] => []
  | .frame _ g _ _ :: is => g :: framedGains is
  | _ :: is => framedGains is

/-- See `framedGains`. -/
def framedSets : List Instr → List (List F32)
  | [] => []
  | .frame _ _ a _ :: is => a :: framedSets is
  | _ :: is => framedSets is

/-- See `framedGains`. -/
def framedInputs : List Instr → List (List F32)
  | [] => []
  | .frame _ _ _ v :: is => v :: framedInputs is
  | _ :: is => framedInputs is

/-- The state arrays have the sizes of the register files (R39, R47): all delay lines keep their depth (R28). -/
abbrev State.Shaped (s : State) : Prop :=
  s.gainHist.length = s.params.D ∧
  s.lpcHist.length = s.params.D ∧ (∀ set ∈ s.lpcHist, set.length = s.params.P) ∧
  s.featHist.length = s.params.D ∧ (∀ vec ∈ s.featHist, vec.length = s.params.F) ∧
  s.lastSig.length = s.params.P ∧ s.lpcCur.length = s.params.P

/-- The sequencer (R32, R33, R37): IDLE exactly when no pair is due, and pairs are due only in an active frame. -/
abbrev State.Sequenced (s : State) : Prop :=
  (s.phase = .idle ↔ s.pairsLeft = 0) ∧ (s.phase ≠ .idle → active s = true)

/-- The error latch (R35, R166): clear it holds 0, set it holds a code 1 to 6; `E_LATCHED` is never stored. -/
abbrev State.LatchOk (s : State) : Prop :=
  (s.err = false → s.errCode = 0) ∧ (s.err = true → 1 ≤ s.errCode.toNat ∧ s.errCode.toNat ≤ 6)

/-- The invariant of the block: every step keeps it and reset has it. -/
structure State.Inv (s : State) : Prop where
  /-- The instance is one the spec gives a meaning to (R10, R93, R94). -/
  valid : s.params.Valid
  shaped : s.Shaped
  /-- "`frame_count` never exceeds its cap" (R21). -/
  counted : s.frameCount.toNat ≤ s.params.CAP
  sequenced : s.Sequenced
  latchOk : s.LatchOk

/-- The latched prediction is the prediction of the window as it stands (R144), up to the pattern of a NaN. -/
def State.PredictionCurrent (s : State) : Prop :=
  s.phase = .pairWait → ∀ epoch, Num.Same s.pred1 (lpcPredict epoch s.lpcCur s.lastSig)

/-- The persistent state of two streams is the same (R20 class 1, R42, R160). -/
abbrev SamePersistent (s t : State) : Prop :=
  s.params = t.params ∧ s.frameCount = t.frameCount ∧ s.featHist = t.featHist ∧ s.lpcHist = t.lpcHist ∧
  s.gainHist = t.gainHist ∧ s.lastSig = t.lastSig ∧ s.lastExc0 = t.lastExc0 ∧ s.lastExc1 = t.lastExc1 ∧
  s.deemphMem = t.deemphMem

/-- Two states that differ at most in the patterns of the NaNs that arithmetic produced (the registers `LAST_SIG`,
`DEEMPH_MEM` and `PRED1`: U3), in the epoch of free patterns and in what stands at the ports. -/
abbrev SameButNaNs (s t : State) : Prop :=
  s.params = t.params ∧ s.frameCount = t.frameCount ∧ s.featHist = t.featHist ∧ s.lpcHist = t.lpcHist ∧
  s.gainHist = t.gainHist ∧ List.Forall₂ Num.Same s.lastSig t.lastSig ∧
  s.lastExc0 = t.lastExc0 ∧ s.lastExc1 = t.lastExc1 ∧ Num.Same s.deemphMem t.deemphMem ∧
  s.lpcCur = t.lpcCur ∧ s.gainCur = t.gainCur ∧ Num.Same s.pred1 t.pred1 ∧
  s.pairsLeft = t.pairsLeft ∧ s.phase = t.phase ∧ s.err = t.err ∧ s.errCode = t.errCode

/-- A run ended well (R201): nothing left to do, no refusal stands, no frame is half done. -/
abbrev State.EndedWell (s : State) : Prop := s.pending = [] ∧ s.err = false ∧ s.phase = .idle

/-- What a run reaches from `s` when the host presents the events `evs` (R201). -/
def runEvents : List PortEvent → State → Host.Outcome State Fault Refusal
  | [], s => .next s
  | ev :: evs, s =>
    match handleEvent ev s with
    | .next t => runEvents evs t
    | .fault r => .fault r
    | .refused r => .refused r

end Machine
end Sys2Proof
end

