-- ==== Sys2Proof/Certificates/Slice0/Obligations.lean ====
section
/-! DEFINITION. The statements for the provers, from the numbered rules of spec/. -/

open Sys2Proof Sys2Proof.Machine

/-! ## Encoding -/

/-- Decoding the words of a well-formed command gives the command back, for every parameter record, every command and
every operand (R66 to R69, R77, R78). -/
def Obligations.DecodeOfEncodedCommand : Prop :=
  ∀ (p : Params) (i : Instr), i.WellFormed p = true → decode p (encodeWord i) (encodePayload i) = .instr i

/-- Every transaction the decoder takes for a command is that command's own encoding, and the command is well formed:
no two transactions mean one command and no bit is dropped. -/
def Obligations.EncodeOfDecodedCommand : Prop :=
  ∀ (p : Params) (w : Word) (payload : List Word) (i : Instr), decode p w payload = .instr i →
    encodeWord i = w ∧ encodePayload i = payload ∧ i.WellFormed p = true

/-- The decoder is total (R72): by `OP` alone, each word with a payload of the length of R68 is one of the nine
commands, `E_RESERVED` where a must-be-zero bit of R71 is set, or `E_OPCODE`. -/
def Obligations.DecoderSortsEveryWord : Prop :=
  ∀ (p : Params) (w : Word) (payload : List Word),
    (9 ≤ (opField w).toNat → decode p w payload = .refuse .opcode) ∧
    ((opField w).toNat < 9 →
      (w.extractLsb' 16 12 ≠ 0 ∨
        ((opField w).toNat ∈ [0, 1, 3, 5] ∧ immField w ≠ 0) ∨
        ((opField w).toNat = 6 ∧ w.extractLsb' 8 8 ≠ 0)) →
      decode p w payload = .refuse .reserved) ∧
    ((opField w).toNat < 9 → w.extractLsb' 16 12 = 0 →
      ((opField w).toNat ∈ [0, 1, 3, 5] → immField w = 0) →
      ((opField w).toNat = 6 → w.extractLsb' 8 8 = 0) →
      payload.length = payloadWords p (opField w) →
      ∃ i, decode p w payload = .instr i ∧ i.opcode = opField w)

/-- The worked encodings of R81 with P = 2, F = 1 (a derived rule of the spec). -/
def Obligations.WorkedEncodingsDecode : Prop :=
  ∀ p : Params, p.P = 2 → p.F = 1 →
    decode p 0x20000004#32 [0x3F000000#32, 0xBF000000#32, 0xBE800000#32, 0x3F800000#32] =
      .instr (.frame 4#16 0x3F000000#32 [0xBF000000#32, 0xBE800000#32] [0x3F800000#32]) ∧
    decode p 0x40008280#32 [] = .instr (.commit 130#8 128#8) ∧
    decode p 0x600000FF#32 [] = .instr (.dec 255#8) ∧
    decode p 0x70000008#32 [] = .instr (.rdreg 8#16) ∧
    decode p 0x80000101#32 [0x40000000#32] = .instr (.wrreg 0x101#16 0x40000000#32) ∧
    decode p 0x90000000#32 [] = .refuse .opcode ∧
    decode p 0x30000001#32 [] = .refuse .reserved ∧
    decode p 0x60000100#32 [] = .refuse .reserved ∧
    decode p 0x20010000#32 [] = .refuse .reserved

/-- The first word fixes where a transaction ends (R77): a stream that begins with a command's words splits after
them, whatever follows. -/
def Obligations.FirstWordFixesTheLength : Prop :=
  ∀ (p : Params) (i : Instr) (rest : List Word), i.WellFormed p = true →
    splitTransaction p (encode i ++ rest) = some ((encodeWord i, encodePayload i), rest) ∧
    (encode i).length = 1 + payloadWords p i.opcode

/-- Words carried as bytes, least significant first (R54), come back as they were. -/
def Obligations.WordsSurviveTheByteChannel : Prop :=
  ∀ ws : List Word,
    wordsOfBytes (ws.flatMap wordBytes) = some ws ∧
    ∀ w : Word, (wordBytes w)[0]? = some (w.extractLsb' 0 8) ∧ (wordBytes w)[3]? = some (w.extractLsb' 24 8)

/-! ## The step, refusals and responses -/

/-- A step runs the decoded command: the oldest transaction at the port leaves it and is executed, in the state as it
then stands (R59; the port is the model's queue, log 5). With nothing at the port a step leaves the whole state as it
is (R184, R186; that there is such a step at all is the model's choice, log 7). -/
def Obligations.StepRunsTheDecodedCommand : Prop :=
  (∀ (s : State) (w : Word) (payload : List Word) (rest : List PortEvent) (i : Instr),
    s.pending = .command w payload :: rest → decode s.params w payload = .instr i →
    step s = exec i { s with pending := rest }) ∧
  (∀ s : State, s.pending = [] → step s = .next s)

/-- A reserved opcode is refused, whatever its other bits and payload (R70, R169): with `E_OPCODE`, or with
`E_LATCHED` where an error stands (R176 check 1). -/
def Obligations.ReservedOpcodeIsRefused : Prop :=
  ∀ (s : State) (w : Word) (payload : List Word) (rest : List PortEvent),
    s.pending = .command w payload :: rest → 9 ≤ (opField w).toNat →
    step s = .next (refusedState (opField w) (if s.err then .latched else .opcode) { s with pending := rest })

/-- A set must-be-zero bit under a defined opcode is refused, whatever the payload (R71, R170): with `E_RESERVED`, or
with `E_LATCHED` where an error stands and the opcode is neither INIT's nor RDREG's (R176 check 1). -/
def Obligations.ReservedBitIsRefused : Prop :=
  ∀ (s : State) (w : Word) (payload : List Word) (rest : List PortEvent),
    s.pending = .command w payload :: rest → (opField w).toNat < 9 →
    (w.extractLsb' 16 12 ≠ 0 ∨
      ((opField w).toNat ∈ [0, 1, 3, 5] ∧ immField w ≠ 0) ∨
      ((opField w).toNat = 6 ∧ w.extractLsb' 8 8 ≠ 0)) →
    step s =
      .next (refusedState (opField w)
        (if s.err = true ∧ opField w ≠ 0 ∧ opField w ≠ 7 then .latched else .reserved) { s with pending := rest })

/-- Every command that can be presented is answered with exactly one response, accepted or refused (R73), and its
header has the fields of R74: OP copied, ERR and ECODE together, zeros, ACTIVE and PHASE after the command, NDATA the
number of data words. ERR is 1 exactly where the command changed nothing but the latch, with its code. -/
def Obligations.EveryCommandGetsOneResponse : Prop :=
  ∀ (s : State) (w : Word) (payload : List Word) (rest : List PortEvent),
    s.Inv → s.pending = .command w payload :: rest → decode s.params w payload ≠ .unframed →
    ∃ t r, step s = .next t ∧ t.responses = s.responses ++ [r] ∧
      r.header.extractLsb' 28 4 = opField w ∧
      r.header.extractLsb' 19 4 = 0 ∧
      r.header.getLsbD 18 = active t ∧
      r.header.extractLsb' 16 2 = phaseCode t.phase ∧
      (r.header.extractLsb' 0 16).toNat = r.data.length ∧
      (r.header.getLsbD 27 = false → r.header.extractLsb' 23 4 = 0) ∧
      (r.header.getLsbD 27 = true →
        ∃ e, r.header.extractLsb' 23 4 = errNumber e ∧ t = refusedState (opField w) e { s with pending := rest })

/-- The error latch keeps its first cause (R35): clear after reset and INIT; set by the first refusal with its code;
once set, no command word but INIT's clears it or changes the code. -/
def Obligations.ErrorLatchKeepsTheFirstCause : Prop :=
  (∀ p, (State.resetOf p).err = false ∧ (State.resetOf p).errCode = 0) ∧
  (∀ s t rest, s.pending = .reset :: rest → step s = .next t → t.err = false ∧ t.errCode = 0) ∧
  (∀ s t, exec .init s = .next t → t.err = false ∧ t.errCode = 0) ∧
  (∀ s t w payload rest, s.pending = .command w payload :: rest → step s = .next t → s.err = false → t.err = true →
    ∃ r, t.responses = s.responses ++ [r] ∧ r.header.getLsbD 27 = true ∧ r.header.extractLsb' 23 4 = t.errCode) ∧
  (∀ s t w payload rest, s.pending = .command w payload :: rest → step s = .next t → s.err = true → w ≠ 0 →
    t.err = true ∧ t.errCode = s.errCode)

/-- With an error latched every command but INIT and RDREG is refused with `E_LATCHED`, which stands in the response
only: `err_code` keeps the first cause (R175). -/
def Obligations.LatchedBlockRefusesOtherCommands : Prop :=
  ∀ (i : Instr) (s : State), i.WellFormed s.params = true → s.err = true →
    i ≠ .init → (∀ addr, i ≠ .rdreg addr) →
    exec i s = .next (refusedState i.opcode .latched s) ∧ (refusedState i.opcode .latched s).errCode = s.errCode

/-- `E_PHASE` (R171): FRAME and WRREG outside IDLE, PREDICT outside PAIR_READY, COMMIT outside PAIR_WAIT, whatever
their operands. -/
def Obligations.MisplacedCommandIsRefused : Prop :=
  ∀ s : State, s.err = false →
    (s.phase ≠ .idle → ∀ n g a v, (Instr.frame n g a v).WellFormed s.params = true →
      exec (.frame n g a v) s = .next (refusedState 2 .phase s)) ∧
    (s.phase ≠ .idle → ∀ addr v, exec (.wrreg addr v) s = .next (refusedState 8 .phase s)) ∧
    (s.phase ≠ .pairReady → exec .predict s = .next (refusedState 3 .phase s)) ∧
    (s.phase ≠ .pairWait → ∀ e1 e0, exec (.commit e1 e0) s = .next (refusedState 4 .phase s))

/-- `E_ODD` (R172): FRAME with an odd sample count shifts nothing and counts nothing. -/
def Obligations.OddFrameIsRefused : Prop :=
  ∀ (n : BitVec 16) (g : F32) (a v : List F32) (s : State),
    (Instr.frame n g a v).WellFormed s.params = true → s.err = false → s.phase = .idle → n.toNat % 2 = 1 →
    exec (.frame n g a v) s = .next (refusedState 2 .odd s)

/-- `E_ADDR` (R173): RDREG, in every phase and with an error latched, and WRREG at an address where no register of the
map of R40 stands. -/
def Obligations.UnmappedAddressIsRefused : Prop :=
  ∀ (addr : Addr) (s : State), s.params.Valid → Unmapped s.params addr →
    exec (.rdreg addr) s = .next (refusedState 7 .addr s) ∧
    (s.err = false → s.phase = .idle → ∀ v, exec (.wrreg addr v) s = .next (refusedState 8 .addr s))

/-- `E_RO` (R174): WRREG to a mapped register whose access is RO. -/
def Obligations.ReadOnlyWriteIsRefused : Prop :=
  ∀ (r : Reg) (v : Word) (s : State), s.params.Valid → s.err = false → s.phase = .idle →
    regExists s.params r = true →
    r ∈ [Reg.id, .paramP, .paramD, .paramF, .paramCap, .stateSize, .status, .gainCur, .pred1] ∨ (∃ i, r = .lpcCur i) →
    exec (.wrreg (BitVec.ofNat 16 (regAddr s.params r)) v) s = .next (refusedState 8 .ro s)

/-! ## Reset, INIT and the invariants -/

/-- After hardware reset and after INIT every piece of state has the value of R38, whatever the state was, in every
phase and with an error latched; and so has the model's reset state. -/
def Obligations.ResetAndInitGiveTheTableOfR38 : Prop :=
  (∀ s rest, s.pending = .reset :: rest →
    ∃ t, step s = .next t ∧ AtResetValues t ∧ t.params = s.params ∧ t.responses = s.responses) ∧
  (∀ s, ∃ t, Completes .init s t [] ∧ AtResetValues t ∧ t.params = s.params) ∧
  AtResetValues State.reset

/-- Every step keeps the invariant of the block, from every state that meets it: array sizes, the counter below its
cap, IDLE exactly when no pair is due, the latch with its code, valid parameters (R21, R28, R33, R35). -/
def Obligations.StepKeepsTheInvariant : Prop :=
  ∀ s t : State, s.Inv → step s = .next t → t.Inv

/-- Reset meets the invariant, for every valid instance. -/
def Obligations.ResetMeetsTheInvariant : Prop :=
  ∀ p : Params, p.Valid → (State.resetOf p).Inv ∧ (State.resetOf p).PredictionCurrent

/-- No step changes the parameters of the instance (R49; the field is the model's, log 1); a step takes the oldest
event off the command port and nothing else, and every response emitted stands (R187; the two queues are the model's,
log 5, log 6, and that INIT and reset keep what stands in them is its choice, log 9). -/
def Obligations.StepKeepsParametersAndPorts : Prop :=
  ∀ s t : State, step s = .next t →
    t.params = s.params ∧ t.pending = s.pending.tail ∧ s.responses <+: t.responses

/-- The latched prediction stays the prediction of the window as it stands, up to the pattern of a NaN: nothing moves
the window or the coefficients between PREDICT and COMMIT (R144, a derived rule; R157). -/
def Obligations.StepKeepsThePredictionCurrent : Prop :=
  ∀ s t : State, s.Inv → s.PredictionCurrent → step s = .next t → t.PredictionCurrent

/-- The sequencer moves exactly as R37's table says: an accepted command as listed, INIT (with an error latched too)
and reset to IDLE; a command not listed for the phase is refused with `E_PHASE`; and no refusal moves it. -/
def Obligations.SequencerFollowsR37 : Prop :=
  (∀ (i : Instr) (s t : State), s.Inv → s.err = false → exec i s = .next t → t.err = false →
    match i with
    | .init => t.phase = .idle
    | .frame n _ _ _ =>
      s.phase = .idle ∧ t.phase = if s.params.D < t.frameCount.toNat ∧ 2 ≤ n.toNat then .pairReady else .idle
    | .predict => s.phase = .pairReady ∧ t.phase = .pairWait
    | .commit _ _ => s.phase = .pairWait ∧ t.phase = if t.pairsLeft = 0 then .idle else .pairReady
    | .wrreg _ _ => s.phase = .idle ∧ t.phase = .idle
    | .pitch _ => t.phase = s.phase
    | .enc _ => t.phase = s.phase
    | .dec _ => t.phase = s.phase
    | .rdreg _ => t.phase = s.phase) ∧
  (∀ (i : Instr) (s : State), i.WellFormed s.params = true → s.err = false →
    (match i with
      | .frame _ _ _ _ => s.phase ≠ .idle
      | .wrreg _ _ => s.phase ≠ .idle
      | .predict => s.phase ≠ .pairReady
      | .commit _ _ => s.phase ≠ .pairWait
      | .init => False
      | .pitch _ => False
      | .enc _ => False
      | .dec _ => False
      | .rdreg _ => False) →
    exec i s = .next (refusedState i.opcode .phase s)) ∧
  (∀ (i : Instr) (s t : State), exec i s = .next t → t.err = true → t.phase = s.phase) ∧
  (∀ s : State, ∃ t, exec .init s = .next t ∧ t.phase = .idle) ∧
  (∀ s rest, s.pending = .reset :: rest → ∃ t, step s = .next t ∧ t.phase = .idle)

/-- Only FRAME, INIT, reset and WRREG move a delay line, the counter or the aligned values (R28, R30, R113). -/
def Obligations.OnlyFrameMovesTheDelayLines : Prop :=
  ∀ (i : Instr) (s t : State), exec i s = .next t → i ≠ .init → (∀ n g a v, i ≠ .frame n g a v) →
    (∀ addr v, i ≠ .wrreg addr v) →
    t.gainHist = s.gainHist ∧ t.lpcHist = s.lpcHist ∧ t.featHist = s.featHist ∧ t.frameCount = s.frameCount ∧
    t.lpcCur = s.lpcCur ∧ t.gainCur = s.gainCur

/-- Only COMMIT, INIT, reset and WRREG move the synthesis history; a warm-up frame leaves it as it is (R25 to R27,
R117). -/
def Obligations.OnlyCommitMovesTheSynthesisHistory : Prop :=
  ∀ (i : Instr) (s t : State), exec i s = .next t → i ≠ .init → (∀ e1 e0, i ≠ .commit e1 e0) →
    (∀ addr v, i ≠ .wrreg addr v) →
    t.lastSig = s.lastSig ∧ t.lastExc0 = s.lastExc0 ∧ t.lastExc1 = s.lastExc1 ∧ t.deemphMem = s.deemphMem

/-- The warm-up gate opens once (R119, a derived rule; R36): no command but INIT and a WRREG to `FRAME_COUNT` lowers
the counter, so `ACTIVE` once true stays true. -/
def Obligations.WarmUpGateIsOneWay : Prop :=
  ∀ (i : Instr) (s t : State), s.Inv → exec i s = .next t → i ≠ .init → (∀ v, i ≠ .wrreg 9 v) →
    s.frameCount.toNat ≤ t.frameCount.toNat ∧ t.frameCount.toNat ≤ s.params.CAP ∧ (active s = true → active t = true)

/-! ## The register map -/

/-- The register map is one to one (R40, R47): each existing register stands at its own 16-bit address and nowhere
else. -/
def Obligations.RegisterMapIsOneToOne : Prop :=
  ∀ p : Params, p.Valid →
    (∀ r, regExists p r = true → regAddr p r < 65536 ∧ regAt p (BitVec.ofNat 16 (regAddr p r)) = some r) ∧
    (∀ addr r, regAt p addr = some r → regExists p r = true ∧ regAddr p r = addr.toNat)

/-- RDREG answers the content of the register, in every phase and with an error latched, and changes nothing (R52,
R153; contents R41 to R47). -/
def Obligations.RdregAnswersTheContent : Prop :=
  ∀ (r : Reg) (s : State), s.Inv → regExists s.params r = true →
    ∃ t w, Completes (.rdreg (BitVec.ofNat 16 (regAddr s.params r))) s t [w] ∧ ReadsAs s r w ∧ OnlyAnswered s t

/-- `STATUS` (R43): its fields, its reset value 0, and that it is read only and read without effect. -/
def Obligations.StatusRegisterFields : Prop :=
  (∀ s : State, ∃ t w, Completes (.rdreg 8) s t [w] ∧ OnlyAnswered s t ∧
    w.extractLsb' 0 2 = phaseCode s.phase ∧ w.getLsbD 2 = decide (s.params.D < s.frameCount.toNat) ∧
    w.getLsbD 3 = s.err ∧ w.extractLsb' 4 4 = s.errCode ∧ w.extractLsb' 8 8 = 0 ∧
    w.extractLsb' 16 16 = s.pairsLeft) ∧
  (∀ p, ∃ t, Completes (.rdreg 8) (State.resetOf p) t [0]) ∧
  (∀ s v, s.err = false → s.phase = .idle → exec (.wrreg 8 v) s = .next (refusedState 8 .ro s))

/-- `FRAME_COUNT` (R44): reads the counter zero-extended; a write stores `min(v, CAP)`; it resets to 0. -/
def Obligations.FrameCountRegister : Prop :=
  (∀ s : State, ∃ t w, Completes (.rdreg 9) s t [w] ∧ OnlyAnswered s t ∧ w.toNat = s.frameCount.toNat) ∧
  (∀ s v, s.params.Valid → s.err = false → s.phase = .idle →
    ∃ t, Completes (.wrreg 9 v) s t [] ∧ t.frameCount.toNat = min v.toNat s.params.CAP ∧
      t = { s with frameCount := t.frameCount, responses := t.responses }) ∧
  (∀ p, (State.resetOf p).frameCount = 0)

/-- `LAST_EXC` (R46): the two codes in its low half and zeros above; a write stores them and ignores bits [31:16]; it
resets to `0x00008080`. -/
def Obligations.LastExcRegister : Prop :=
  (∀ s : State, ∃ t w, Completes (.rdreg 11) s t [w] ∧ OnlyAnswered s t ∧
    w.extractLsb' 0 8 = s.lastExc0 ∧ w.extractLsb' 8 8 = s.lastExc1 ∧ w.extractLsb' 16 16 = 0) ∧
  (∀ s v, s.err = false → s.phase = .idle →
    ∃ t, Completes (.wrreg 11 v) s t [] ∧ t.lastExc0 = v.extractLsb' 0 8 ∧ t.lastExc1 = v.extractLsb' 8 8 ∧
      t = { s with lastExc0 := t.lastExc0, lastExc1 := t.lastExc1, responses := t.responses }) ∧
  (∀ p, ∃ t, Completes (.rdreg 11) (State.resetOf p) t [0x00008080])

/-- WRREG writes the one register addressed and nothing else (R53, R158): an F32 register takes any pattern, every
other register and everything that is not in the map keeps its value. `STATUS` shows the counter it is computed
from. -/
def Obligations.WrregWritesOneRegister : Prop :=
  ∀ (r : Reg) (v : Word) (s : State), s.Inv → s.err = false → s.phase = .idle →
    regExists s.params r = true → regWritable r = true →
    ∃ t, Completes (.wrreg (BitVec.ofNat 16 (regAddr s.params r)) v) s t [] ∧
      (r ≠ .frameCount → r ≠ .lastExc → ReadsAs t r v) ∧
      (r = .frameCount → t.frameCount.toNat = min v.toNat s.params.CAP) ∧
      (r = .lastExc → t.lastExc0 = v.extractLsb' 0 8 ∧ t.lastExc1 = v.extractLsb' 8 8) ∧
      (∀ r' w, regExists s.params r' = true → r' ≠ r → r' ≠ .status → ReadsAs s r' w → ReadsAs t r' w) ∧
      t.params = s.params ∧ t.pairsLeft = s.pairsLeft ∧ t.phase = s.phase ∧ t.err = s.err ∧ t.errCode = s.errCode ∧
      t.pending = s.pending ∧ t.nanEpoch = s.nanEpoch

/-- `SAVE` (R80): in any phase, and with an error latched, its RDREG commands answer the image of the stream, one word
each, in ascending address order, `STATE_SIZE` of them (R42), the registers whose access is RW (R160), and change
nothing. -/
def Obligations.SaveAnswersTheImage : Prop :=
  (∀ p : Params, p.Valid →
    (savedRegs p).length = p.stateSize ∧ ((savedRegs p).map (regAddr p)).Pairwise (· < ·) ∧
    ∀ r, r ∈ savedRegs p ↔ regExists p r = true ∧ regWritable r = true) ∧
  (∀ s : State, s.Inv → ∃ t rs img,
    execAll (saveCommands s.params) s = .next t ∧ OnlyAnswered s t ∧ t.responses = s.responses ++ rs ∧
    rs.map Response.data = img.map (fun w => [w]) ∧ List.Forall₂ (ReadsAs s) (savedRegs s.params) img)

/-- Save and restore (R160, a derived rule; R80): the image of a stream, read in IDLE by SAVE's addresses, restored on
any instance with the same parameters, gives its persistent state back; every command of RESTORE is accepted. -/
def Obligations.RestoreGivesTheSavedStreamBack : Prop :=
  ∀ (s u : State) (img : List Word), s.Inv → s.phase = .idle → u.Inv → u.params = s.params →
    List.Forall₂ (ReadsAs s) (savedRegs s.params) img →
    ∃ t, execAll (restoreCommands s.params img) u = .next t ∧ SamePersistent s t ∧
      t.phase = .idle ∧ t.pairsLeft = 0 ∧ t.err = false ∧ t.errCode = 0 ∧
      t.responses.length = u.responses.length + 1 + s.params.stateSize

/-- In IDLE the working latches are dead (R42, R160): two idle streams with one persistent state give the same answer
to a FRAME and then agree in the latches too, but for `pred1`, which PREDICT reloads. -/
def Obligations.LatchesAreDeadInIdle : Prop :=
  ∀ (n : BitVec 16) (g : F32) (a v : List F32) (s t : State),
    s.Inv → t.Inv → SamePersistent s t → s.phase = .idle → t.phase = .idle → s.err = false → t.err = false →
    (Instr.frame n g a v).WellFormed s.params = true → n.toNat % 2 = 0 →
    ∃ s' t' data, Completes (.frame n g a v) s s' data ∧ Completes (.frame n g a v) t t' data ∧
      SamePersistent s' t' ∧ s'.lpcCur = t'.lpcCur ∧ s'.gainCur = t'.gainCur ∧ s'.pairsLeft = t'.pairsLeft ∧
      s'.phase = t'.phase ∧ s'.err = false ∧ t'.err = false

/-! ## PITCH and the compander -/

/-- PITCH (R106, R107): the exact floor of 1/10 + 50 f + 100 clamped to 33..255; +∞ gives 255, −∞ and NaN 33; no input
fails and no state changes. -/
def Obligations.PitchIsTheClampedExactFloor : Prop :=
  ∀ (f : F32) (s : State), s.params.consts = specConsts → s.err = false →
    ∃ t w, Completes (.pitch f) s t [w] ∧ OnlyAnswered s t ∧ 33 ≤ w.toNat ∧ w.toNat ≤ 255 ∧
      (Num.isFinite f = true → (w.toNat : Int) = min 255 (max 33 ⌊(1 / 10 : ℚ) + 50 * Num.real f + 100⌋)) ∧
      (Num.isNaN f = true → w.toNat = 33) ∧ (f = 0x7F800000#32 → w.toNat = 255) ∧ (f = 0xFF800000#32 → w.toNat = 33)

/-- ENC (R92, R99): the number of thresholds `x` reaches, which is the largest `k` with `x ≥ THR[k]`, or 0; in every
phase, and no state changes. -/
def Obligations.EncAnswersTheThresholdCount : Prop :=
  ∀ (x : F32) (s : State), s.params.Valid → s.err = false →
    ∃ t w, Completes (.enc x) s t [w] ∧ OnlyAnswered s t ∧
      w.toNat = ((Finset.Icc 1 255).filter fun k => Num.fge x (s.params.thrAt k) = true).card ∧
      w.toNat ≤ 255 ∧ (w.toNat = 0 ∨ Num.fge x (s.params.thrAt w.toNat) = true) ∧
      ∀ k, w.toNat < k → k ≤ 255 → Num.fge x (s.params.thrAt k) = false

/-- DEC (R91, R100): the table entry of the code, for every code and in every phase; no state changes. -/
def Obligations.DecAnswersTheTableEntry : Prop :=
  ∀ (u : Code) (s : State), s.params.Valid → s.err = false →
    ∃ t w, Completes (.dec u) s t [w] ∧ OnlyAnswered s t ∧ s.params.DEC[u.toNat]? = some w

/-- `Enc` is monotonic nondecreasing (R96 a, a derived rule). -/
def Obligations.EncIsMonotone : Prop :=
  ∀ (p : Params) (x y : F32), p.Valid → Num.fge y x = true → (encode8 p x).toNat ≤ (encode8 p y).toNat

/-- `Enc(Dec(u)) = u` for every code (R96 b, a derived rule). -/
def Obligations.EncOfDecIsTheCode : Prop :=
  ∀ (p : Params) (u : Code), p.Valid → encode8 p (decode8 p u) = u

/-- Both zeros encode to `SILENCE`, amplitudes beyond the outer thresholds saturate, infinities among them, and a NaN
is code 0 (R96 c and d, derived; R97). -/
def Obligations.EncAtZeroAtTheEndsAndAtNaN : Prop :=
  ∀ (p : Params), p.Valid →
    encode8 p 0x00000000#32 = 128 ∧ encode8 p 0x80000000#32 = 128 ∧
    (∀ x, Num.fge x (p.thrAt 255) = true → encode8 p x = 255) ∧
    (∀ x, Num.flt x (p.thrAt 1) = true → encode8 p x = 0) ∧
    encode8 p 0x7F800000#32 = 255 ∧ encode8 p 0xFF800000#32 = 0 ∧
    (∀ x, Num.isNaN x = true → encode8 p x = 0)

/-- The companding round trip stays within one quantisation step over the representable range (R98, a derived rule;
in units of 2^-149, exactly). -/
def Obligations.CompandingRoundTripWithinOneStep : Prop :=
  ∀ (p : Params) (x : F32), p.Valid → Num.isNaN x = false →
    Num.units (p.decAt 0) ≤ Num.units x → Num.units x ≤ Num.units (p.decAt 255) →
    |Num.units (decode8 p (encode8 p x)) - Num.units x| ≤ p.stepAt (encode8 p x).toNat

/-! ## FRAME -/

/-- FRAME shifts each delay line one slot, pushes into slot 0 and reads the aligned value from the oldest slot after
the push (R108, R111, R112, R114); the aligned gain is the first word of the answer. -/
def Obligations.FrameShiftsAndAligns : Prop :=
  ∀ (n : BitVec 16) (g : F32) (a v : List F32) (s : State), s.Inv → s.err = false → s.phase = .idle →
    (Instr.frame n g a v).WellFormed s.params = true → n.toNat % 2 = 0 →
    ∃ t data, Completes (.frame n g a v) s t (t.gainCur :: data) ∧
      t.gainHist = (g :: s.gainHist).take s.params.D ∧ t.gainHist[s.params.D - 1]? = some t.gainCur ∧
      t.featHist = (v :: s.featHist).take s.params.D ∧
      t.lpcHist = (a :: s.lpcHist).take s.params.D ∧ t.lpcHist[s.params.D - 1]? = some t.lpcCur

/-- FRAME counts, saturating at CAP, and the gate tests the counter after the increment (R113, R115, R116): a warm-up
frame answers the gain and `n` zero samples and opens no pair; an active frame answers the gain alone and opens `n/2`
pairs. -/
def Obligations.FrameCountsAndGates : Prop :=
  ∀ (n : BitVec 16) (g : F32) (a v : List F32) (s : State), s.Inv → s.err = false → s.phase = .idle →
    (Instr.frame n g a v).WellFormed s.params = true → n.toNat % 2 = 0 →
    ∃ t, t.frameCount.toNat = min (s.frameCount.toNat + 1) s.params.CAP ∧
      if t.frameCount.toNat ≤ s.params.D then
        Completes (.frame n g a v) s t (t.gainCur :: List.replicate n.toNat 0) ∧ t.pairsLeft = 0 ∧ t.phase = .idle
      else
        Completes (.frame n g a v) s t [t.gainCur] ∧ t.pairsLeft.toNat = n.toNat / 2 ∧
          t.phase = if n = 0 then .idle else .pairReady

/-- The frame of FRAME (R110, R117): the synthesis history, the latched prediction, the error latch, the parameters
and the command port stay as they are. -/
def Obligations.FrameLeavesTheRest : Prop :=
  ∀ (n : BitVec 16) (g : F32) (a v : List F32) (s t : State), exec (.frame n g a v) s = .next t → t.err = false →
    t.lastSig = s.lastSig ∧ t.lastExc0 = s.lastExc0 ∧ t.lastExc1 = s.lastExc1 ∧ t.deemphMem = s.deemphMem ∧
    t.pred1 = s.pred1 ∧ t.err = s.err ∧ t.errCode = s.errCode ∧ t.params = s.params ∧ t.pending = s.pending ∧
    t.nanEpoch = s.nanEpoch

/-- The alignment law (R109, a derived rule), over any accepted command sequence without INIT and WRREG: the delay
lines hold the last D values pushed, newest first, then what they held before; and once a frame has passed, the
aligned gain and LPC set are those in the oldest slot. -/
def Obligations.DelayLinesHoldTheLastPushes : Prop :=
  ∀ (is : List Instr) (s t : State), s.Inv →
    (∀ i ∈ is, i ≠ .init ∧ ∀ addr v, i ≠ .wrreg addr v) →
    execAll is s = .next t → t.err = false →
    t.gainHist = ((framedGains is).reverse ++ s.gainHist).take s.params.D ∧
    t.lpcHist = ((framedSets is).reverse ++ s.lpcHist).take s.params.D ∧
    t.featHist = ((framedInputs is).reverse ++ s.featHist).take s.params.D ∧
    (framedGains is ≠ [] →
      t.gainHist[s.params.D - 1]? = some t.gainCur ∧ t.lpcHist[s.params.D - 1]? = some t.lpcCur)

/-! ## PREDICT and COMMIT -/

/-- `LpcPredict` is the negative dot product in the order of R125, each product and each difference rounded: tap `j`
meets coefficient `j`, ascending, from +0.0 (up to the pattern of a NaN, R15). -/
def Obligations.PredictionIsTheOrderedNegativeDotProduct : Prop :=
  ∀ (epoch : Nat) (c s : List F32), c.length = s.length →
    Num.Same (lpcPredict epoch c s)
      ((List.range s.length).foldl
        (fun acc j => Num.fsub 0 acc (Num.fmul 0 (s.getD j 0) (c.getD j 0))) 0x00000000#32)

/-- With all coefficients +0.0 and finite taps, or all taps +0.0 and finite coefficients, the prediction is +0.0 (R126,
a derived rule; 0 · ∞ is a NaN, so the other factor must be finite). -/
def Obligations.ZeroContextPredictsZero : Prop :=
  ∀ (epoch : Nat) (c s : List F32),
    ((∀ x ∈ c, x = 0x00000000#32) ∧ (∀ x ∈ s, Num.isFinite x = true)) ∨
    ((∀ x ∈ s, x = 0x00000000#32) ∧ (∀ x ∈ c, Num.isFinite x = true)) →
    lpcPredict epoch c s = 0x00000000#32

/-- PREDICT (R137, R138, R142): in PAIR_READY it latches the prediction, goes to PAIR_WAIT and answers the two bundle
words and the aligned gain; nothing else changes. -/
def Obligations.PredictAnswersTheBundle : Prop :=
  ∀ s : State, s.Inv → s.err = false → s.phase = .pairReady →
    ∃ t w0 w1, Completes .predict s t [w0, w1, s.gainCur] ∧
      Num.Same t.pred1 (lpcPredict 0 s.lpcCur s.lastSig) ∧ t.phase = .pairWait ∧
      (∀ x, s.lastSig[0]? = some x → w0.extractLsb' 0 8 = encode8 s.params x) ∧
      (∀ x, s.lastSig[1]? = some x → w1.extractLsb' 0 8 = encode8 s.params x) ∧
      w0.extractLsb' 8 8 = encode8 s.params t.pred1 ∧ w1.extractLsb' 8 8 = encode8 s.params t.pred1 ∧
      w0.extractLsb' 16 8 = s.lastExc0 ∧ w1.extractLsb' 16 8 = s.lastExc1 ∧
      w0.extractLsb' 24 8 = 0 ∧ w1.extractLsb' 24 8 = 0 ∧
      t = { s with pred1 := t.pred1, phase := .pairWait, responses := t.responses, nanEpoch := t.nanEpoch }

/-- COMMIT (R127, R129, R131, R139, R143): the first sample from the latched prediction, the second from a fresh one on
the window that already holds the first; each sample is pushed before de-emphasis, the filter memory takes the value
before clamping; the answer is the two quantised samples in chronological order. Amplitudes are given up to the
pattern of a NaN (R15). -/
def Obligations.CommitEmitsTheTwoSamples : Prop :=
  ∀ (e1 e0 : Code) (s : State), s.Inv → s.err = false → s.phase = .pairWait →
    ∃ (t : State) (out1 out0 : BitVec 16) (pcm1 y1 p0 pcm0 y0 : F32),
      Completes (.commit e1 e0) s t [out1.signExtend 32, out0.signExtend 32] ∧
      Num.Same pcm1 (Num.fadd 0 s.pred1 (s.params.decAt e1.toNat)) ∧
      Num.Same y1 (Num.fadd 0 pcm1 (Num.fmul 0 s.params.consts.preemph s.deemphMem)) ∧
      out1.toInt = quant s.params.consts y1 ∧
      Num.Same p0 (lpcPredict 0 s.lpcCur ((pcm1 :: s.lastSig).take s.params.P)) ∧
      Num.Same pcm0 (Num.fadd 0 p0 (s.params.decAt e0.toNat)) ∧
      Num.Same y0 (Num.fadd 0 pcm0 (Num.fmul 0 s.params.consts.preemph y1)) ∧
      out0.toInt = quant s.params.consts y0 ∧
      t.lastSig = (pcm0 :: pcm1 :: s.lastSig).take s.params.P ∧ t.deemphMem = y0 ∧
      t.lastExc1 = e1 ∧ t.lastExc0 = e0 ∧
      t.pairsLeft.toNat + 1 = s.pairsLeft.toNat ∧ t.phase = (if t.pairsLeft = 0 then .idle else .pairReady) ∧
      t = { s with
            lastSig := t.lastSig, deemphMem := t.deemphMem, lastExc0 := t.lastExc0, lastExc1 := t.lastExc1,
            pairsLeft := t.pairsLeft, phase := t.phase, responses := t.responses, nanEpoch := t.nanEpoch }

/-- The quantiser (R132 to R134): NaN gives 0; below −32767 and above 32767, infinities among them, it clamps; between
them it is floor(y + 1/2), exactly. -/
def Obligations.QuantiserClampsAndRoundsHalfUp : Prop :=
  ∀ y : F32,
    (Num.isNaN y = true → quant specConsts y = 0) ∧
    (y = 0x7F800000#32 → quant specConsts y = 32767) ∧ (y = 0xFF800000#32 → quant specConsts y = -32767) ∧
    (Num.isFinite y = true →
      quant specConsts y =
        if Num.real y < -32767 then -32767 else if 32767 < Num.real y then 32767 else ⌊Num.real y + 1 / 2⌋)

/-- Every emitted sample lies in −32767..32767, for every state and every operand, NaNs and infinities included
(R132, R134; the source's output range). -/
def Obligations.EverySampleLiesInRange : Prop :=
  ∀ (e1 e0 : Code) (s : State), s.params.consts = specConsts → s.err = false → s.phase = .pairWait →
    ∃ (t : State) (k1 k0 : Int),
      Completes (.commit e1 e0) s t [BitVec.ofInt 32 k1, BitVec.ofInt 32 k0] ∧
      -32767 ≤ k1 ∧ k1 ≤ 32767 ∧ -32767 ≤ k0 ∧ k0 ≤ 32767

/-- The pattern of a NaN that arithmetic produced is visible through RDREG alone (R15, U3): two states that differ in
such patterns only give the same response to every other command and stay so. -/
def Obligations.NaNPatternsShowOnlyThroughRdreg : Prop :=
  ∀ (i : Instr) (s t : State), SameButNaNs s t → i.WellFormed s.params = true → (∀ addr, i ≠ .rdreg addr) →
    ∃ s' t' r, exec i s = .next s' ∧ exec i t = .next t' ∧ SameButNaNs s' t' ∧
      s'.responses = s.responses ++ [r] ∧ t'.responses = t.responses ++ [r]

/-- One frame of the source's loop (R190, a derived rule) runs to completion for the requested sample count: for every
neural stage that forms LPC sets and inputs of the right sizes, a frame with even `n` in IDLE yields exactly `n`
samples and ends in IDLE with no error latched. -/
def Obligations.FrameProcedureYieldsItsSamples : Prop :=
  ∀ (σ : Type) (condition : σ → Word → Word → FrameInputs × σ) (generate : σ → List Word → (Code × Code) × σ)
    (n : BitVec 16) (f g : F32) (h : σ) (s : State),
    s.Inv → s.err = false → s.phase = .idle → n.toNat % 2 = 0 →
    (∀ h l c, (condition h l c).1.a.length = s.params.P ∧ (condition h l c).1.v.length = s.params.F) →
    ∃ pcm h' t, synthesize condition generate n f g h s = some (pcm, h', t) ∧
      pcm.length = n.toNat ∧ t.Inv ∧ t.err = false ∧ t.phase = .idle

/-! ## Arithmetic -/

/-- `fadd` and `fsub` round the exact sum and difference once, to nearest, ties to even, and overflow to infinity from
half a step above the largest finite value (R14; the standard's rules as the spec restates them, G8). -/
def Obligations.AdditionRoundsToNearestEven : Prop :=
  ∀ (free : Word) (a b : F32), Num.isFinite a = true → Num.isFinite b = true →
    (Num.isFinite (Num.fadd free a b) = true ↔ |Num.units a + Num.units b| < (2 ^ 25 - 1) * 2 ^ 252) ∧
    (Num.isFinite (Num.fadd free a b) = true → ∀ c : F32, Num.isFinite c = true →
      |Num.units (Num.fadd free a b) - (Num.units a + Num.units b)| ≤ |Num.units c - (Num.units a + Num.units b)| ∧
      (|Num.units (Num.fadd free a b) - (Num.units a + Num.units b)| = |Num.units c - (Num.units a + Num.units b)| →
        Num.units c ≠ Num.units (Num.fadd free a b) → (Num.fadd free a b).getLsbD 0 = false)) ∧
    (Num.isFinite (Num.fsub free a b) = true ↔ |Num.units a - Num.units b| < (2 ^ 25 - 1) * 2 ^ 252) ∧
    (Num.isFinite (Num.fsub free a b) = true → ∀ c : F32, Num.isFinite c = true →
      |Num.units (Num.fsub free a b) - (Num.units a - Num.units b)| ≤ |Num.units c - (Num.units a - Num.units b)| ∧
      (|Num.units (Num.fsub free a b) - (Num.units a - Num.units b)| = |Num.units c - (Num.units a - Num.units b)| →
        Num.units c ≠ Num.units (Num.fsub free a b) → (Num.fsub free a b).getLsbD 0 = false))

/-- `fmul` rounds the exact product once, to nearest, ties to even (R14). The product of two values counts units of
2^-298, so a result is compared at 2^149 times its units. -/
def Obligations.MultiplicationRoundsToNearestEven : Prop :=
  ∀ (free : Word) (a b : F32), Num.isFinite a = true → Num.isFinite b = true →
    (Num.isFinite (Num.fmul free a b) = true ↔ |Num.units a * Num.units b| < (2 ^ 25 - 1) * 2 ^ 252 * 2 ^ 149) ∧
    (Num.isFinite (Num.fmul free a b) = true → ∀ c : F32, Num.isFinite c = true →
      |Num.units (Num.fmul free a b) * 2 ^ 149 - Num.units a * Num.units b| ≤
        |Num.units c * 2 ^ 149 - Num.units a * Num.units b| ∧
      (|Num.units (Num.fmul free a b) * 2 ^ 149 - Num.units a * Num.units b| =
          |Num.units c * 2 ^ 149 - Num.units a * Num.units b| →
        Num.units c ≠ Num.units (Num.fmul free a b) → (Num.fmul free a b).getLsbD 0 = false))

/-- A primitive produces a NaN exactly where an operand is one or the operation is invalid (R14, G8): infinities of
opposite sign added, of one sign subtracted, zero times infinity; and it is a NaN whatever the free bits are (R15). -/
def Obligations.NaNsAriseExactlyWhereInvalid : Prop :=
  ∀ (free : Word) (a b : F32),
    (Num.isNaN (Num.fadd free a b) = true ↔
      Num.isNaN a = true ∨ Num.isNaN b = true ∨
        (Num.isInf a = true ∧ Num.isInf b = true ∧ Num.signBit a ≠ Num.signBit b)) ∧
    (Num.isNaN (Num.fsub free a b) = true ↔
      Num.isNaN a = true ∨ Num.isNaN b = true ∨
        (Num.isInf a = true ∧ Num.isInf b = true ∧ Num.signBit a = Num.signBit b)) ∧
    (Num.isNaN (Num.fmul free a b) = true ↔
      Num.isNaN a = true ∨ Num.isNaN b = true ∨
        (Num.isInf a = true ∧ Num.units b = 0) ∨ (Num.units a = 0 ∧ Num.isInf b = true))

/-- The signs and the special values of R14: an exact zero sum is +0 unless both operands are −0, and a zero difference
unless it is −0 less +0; an overflow is the infinity of the exact result's sign; an infinity absorbs what is finite, and
in a sum its equal, in a difference its opposite; a product has the product of the signs, zeros and infinities among
them, and a factor that is infinite makes it infinite. -/
def Obligations.SignsZerosAndInfinities : Prop :=
  ∀ (free : Word) (a b : F32),
    (Num.isFinite a = true → Num.isFinite b = true → Num.units a + Num.units b = 0 →
      Num.fadd free a b = if Num.signBit a && Num.signBit b then 0x80000000#32 else 0x00000000#32) ∧
    (Num.isFinite a = true → Num.isFinite b = true → Num.isFinite (Num.fadd free a b) = false →
      Num.isInf (Num.fadd free a b) = true ∧
        Num.signBit (Num.fadd free a b) = decide (Num.units a + Num.units b < 0)) ∧
    (Num.isInf a = true → Num.isFinite b = true → Num.fadd free a b = a ∧ Num.fadd free b a = a) ∧
    (Num.isInf a = true → Num.isInf b = true → Num.signBit a = Num.signBit b → Num.fadd free a b = a) ∧
    (Num.isFinite a = true → Num.isFinite b = true → Num.units a = Num.units b →
      Num.fsub free a b = if Num.signBit a && !Num.signBit b then 0x80000000#32 else 0x00000000#32) ∧
    (Num.isFinite a = true → Num.isFinite b = true → Num.isFinite (Num.fsub free a b) = false →
      Num.isInf (Num.fsub free a b) = true ∧
        Num.signBit (Num.fsub free a b) = decide (Num.units a < Num.units b)) ∧
    (Num.isInf a = true → Num.isFinite b = true → Num.fsub free a b = a ∧ Num.fsub free b a = Num.neg a) ∧
    (Num.isInf a = true → Num.isInf b = true → Num.signBit a ≠ Num.signBit b → Num.fsub free a b = a) ∧
    (Num.isNaN (Num.fmul free a b) = false →
      Num.signBit (Num.fmul free a b) = (Num.signBit a != Num.signBit b) ∧
        (Num.isInf a = true ∨ Num.isInf b = true → Num.isInf (Num.fmul free a b) = true))

/-- The comparisons of R14: false on a NaN, exact on finite values, −0 equal to +0, and +∞ above, −∞ below everything
that is no NaN but itself, on either side. -/
def Obligations.ComparisonsAreOrdered : Prop :=
  (∀ a b : F32, Num.isNaN a = true ∨ Num.isNaN b = true →
    Num.flt a b = false ∧ Num.fgt a b = false ∧ Num.fge a b = false) ∧
  (∀ a b : F32, Num.isFinite a = true → Num.isFinite b = true →
    (Num.flt a b = true ↔ Num.real a < Num.real b) ∧ (Num.fgt a b = true ↔ Num.real b < Num.real a) ∧
    (Num.fge a b = true ↔ Num.real b ≤ Num.real a)) ∧
  (∀ a : F32, Num.isNaN a = false →
    Num.flt a 0x7F800000#32 = decide (a ≠ 0x7F800000#32) ∧ Num.fgt a 0x7F800000#32 = false ∧
    Num.fge a 0x7F800000#32 = decide (a = 0x7F800000#32) ∧
    Num.flt 0x7F800000#32 a = false ∧ Num.fgt 0x7F800000#32 a = decide (a ≠ 0x7F800000#32) ∧
    Num.fge 0x7F800000#32 a = true ∧
    Num.flt a 0xFF800000#32 = false ∧ Num.fgt a 0xFF800000#32 = decide (a ≠ 0xFF800000#32) ∧
    Num.fge a 0xFF800000#32 = true ∧
    Num.flt 0xFF800000#32 a = decide (a ≠ 0xFF800000#32) ∧ Num.fgt 0xFF800000#32 a = false ∧
    Num.fge 0xFF800000#32 a = decide (a = 0xFF800000#32))
end

