-- ==== Sys2Proof/Laws/Float.lean ====
section
/-! SUPPORT. What the arithmetic of R14 does: one specification lemma for each helper, up to `Num.round_nearest`, which
says that a rounded value is nearest among all finite ones and even in a tie, and the cases of each primitive. -/

namespace Sys2Proof

theorem Num.isNaN_nanOf (free : Word) : Num.isNaN (Num.nanOf free) = true := by
  unfold Num.nanOf
  split
  · assumption
  · decide

/-- What `roundEven` leaves: at most half a step, and an even result in a tie. -/
theorem Num.roundEven_error (m s : Nat) :
    2 * |((Num.roundEven m s * 2 ^ s : Nat) : Int) - m| ≤ 2 ^ s ∧
    (2 * |((Num.roundEven m s * 2 ^ s : Nat) : Int) - m| = 2 ^ s → Num.roundEven m s % 2 = 0) := by
  have hd := Nat.div_add_mod m (2 ^ s)
  have hlt := Nat.mod_lt m (Nat.two_pow_pos s)
  have hp2 : ((2 : Int) ^ s) = ((2 ^ s : Nat) : Int) := by push_cast; rfl
  rw [hp2]
  unfold Num.roundEven
  generalize hq : m / 2 ^ s = q at *
  generalize hr : m % 2 ^ s = r at *
  generalize hp : 2 ^ s = p at *
  split
  · have e : (q + 1) * p = p * q + p := by ring
    rw [e]
    generalize p * q = A at *
    rw [abs_of_nonneg (by omega)]
    omega
  · have e : q * p = p * q := Nat.mul_comm _ _
    rw [e]
    generalize p * q = A at *
    rw [abs_of_nonpos (by omega)]
    omega

/-- `roundEven` is nearest among the multiples of `2^s`, and even in a tie. -/
theorem Num.roundEven_nearest (m s n : Nat) :
    |((Num.roundEven m s * 2 ^ s : Nat) : Int) - m| ≤ |((n * 2 ^ s : Nat) : Int) - m| ∧
    (|((Num.roundEven m s * 2 ^ s : Nat) : Int) - m| = |((n * 2 ^ s : Nat) : Int) - m| → n ≠ Num.roundEven m s →
      Num.roundEven m s % 2 = 0) := by
  obtain ⟨h1, h2⟩ := Num.roundEven_error m s
  generalize Num.roundEven m s = q at *
  by_cases hn : n = q
  · subst hn; simp
  · have key : (2 : Int) ^ s ≤ |((n * 2 ^ s : Nat) : Int) - m| + |((q * 2 ^ s : Nat) : Int) - m| := by
      have e : (((n : Int) - q) * 2 ^ s) = (((n * 2 ^ s : Nat) : Int) - m) - (((q * 2 ^ s : Nat) : Int) - m) := by
        push_cast; ring
      have h3 : |((n : Int) - q) * 2 ^ s| ≤ _ := e ▸ abs_sub _ _
      have h4 : (1 : Int) ≤ |(n : Int) - q| := Int.one_le_abs (by omega)
      have h5 : |((n : Int) - q) * 2 ^ s| = |(n : Int) - q| * 2 ^ s := by
        rw [abs_mul, abs_of_pos (by positivity : (0 : Int) < 2 ^ s)]
      nlinarith [(by positivity : (0 : Int) < 2 ^ s)]
    constructor
    · omega
    · intro he _; exact h2 (by omega)

/-- The magnitude a pattern below the sign bit stands for, in units of 2^-149. -/
def Num.magOfBits (b : Nat) : Nat :=
  if b / 2 ^ 23 = 0 then b % 2 ^ 23 else (2 ^ 23 + b % 2 ^ 23) * 2 ^ (b / 2 ^ 23 - 1)

theorem Num.magOfBits_compose (k q : Nat) (hq : q ≤ 2 ^ 24) (hk : k = 0 ∨ 2 ^ 23 ≤ q) :
    Num.magOfBits (k * 2 ^ 23 + q) = q * 2 ^ k := by
  unfold Num.magOfBits
  rcases Nat.lt_or_ge q (2 ^ 23) with h | h
  · obtain rfl : k = 0 := by omega
    have : (0 * 2 ^ 23 + q) / 2 ^ 23 = 0 := by omega
    rw [if_pos this]; omega
  · rcases Nat.lt_or_ge q (2 ^ 24) with h' | h'
    · have e1 : (k * 2 ^ 23 + q) / 2 ^ 23 = k + 1 := by omega
      have e2 : 2 ^ 23 + (k * 2 ^ 23 + q) % 2 ^ 23 = q := by omega
      rw [e1, e2]; simp
    · obtain rfl : q = 2 ^ 24 := by omega
      have e1 : (k * 2 ^ 23 + 2 ^ 24) / 2 ^ 23 = k + 2 := by omega
      have e2 : 2 ^ 23 + (k * 2 ^ 23 + 2 ^ 24) % 2 ^ 23 = 2 ^ 23 := by omega
      rw [e1, e2]
      rw [if_neg (by omega)]
      simp only [show k + 2 - 1 = k + 1 by omega]
      rw [pow_succ]; ring

/-- The kept significand fits 24 bits, and fills them unless the result is subnormal. -/
theorem Num.roundEven_bounds (m e : Nat) :
    Num.roundEven m (Num.discard m e) ≤ 2 ^ 24 ∧
    (Num.discard m e = e ∨ 2 ^ 23 ≤ Num.roundEven m (Num.discard m e)) := by
  have hq : m / 2 ^ Num.discard m e < 2 ^ 24 := by
    rw [Nat.div_lt_iff_lt_mul (Nat.two_pow_pos _)]
    calc m < 2 ^ (Nat.log2 m + 1) := Nat.lt_log2_self
      _ ≤ 2 ^ (24 + Num.discard m e) := Nat.pow_le_pow_right (by norm_num) (by unfold Num.discard; omega)
      _ = _ := by rw [pow_add]
  have hup : Num.roundEven m (Num.discard m e) ≤ m / 2 ^ Num.discard m e + 1 := by
    unfold Num.roundEven; split <;> omega
  have hlow : m / 2 ^ Num.discard m e ≤ Num.roundEven m (Num.discard m e) := by
    unfold Num.roundEven; split <;> omega
  refine ⟨by omega, ?_⟩
  by_cases h : Num.discard m e = e
  · exact .inl h
  · right
    refine le_trans ?_ hlow
    have hd : Num.discard m e = Nat.log2 m - 23 := by unfold Num.discard at *; omega
    have hl : 23 ≤ Nat.log2 m := by unfold Num.discard at *; omega
    have hm : m ≠ 0 := by rintro rfl; simp at hl
    rw [Nat.le_div_iff_mul_le (Nat.two_pow_pos _), ← pow_add, hd]
    calc 2 ^ (23 + (Nat.log2 m - 23)) = 2 ^ Nat.log2 m := by congr 1; omega
      _ ≤ m := Nat.log2_self_le hm

theorem Num.le_discard (m e : Nat) : e ≤ Num.discard m e := by unfold Num.discard; omega

/-- A finite magnitude is a 24-bit significand times a power of two. -/
theorem Num.mag_eq_magOfBits (a : F32) : Num.mag a = Num.magOfBits (a.toNat % 2 ^ 31) := by
  have e1 : a.toNat % 2 ^ 31 / 2 ^ 23 = a.toNat / 2 ^ 23 % 256 := by omega
  have e2 : a.toNat % 2 ^ 31 % 2 ^ 23 = a.toNat % 2 ^ 23 := by omega
  unfold Num.mag Num.magOfBits Num.expField Num.fracField
  rw [e1, e2]

theorem Num.mag_form (a : F32) (h : Num.isFinite a = true) :
    ∃ q k, q < 2 ^ 24 ∧ k ≤ 253 ∧ Num.mag a = q * 2 ^ k := by
  have hf : Num.fracField a < 2 ^ 23 := Nat.mod_lt _ (by norm_num)
  have he : Num.expField a < 256 := Nat.mod_lt _ (by norm_num)
  simp [Num.isFinite] at h
  unfold Num.mag
  split
  · exact ⟨Num.fracField a, 0, by omega, by omega, by simp⟩
  · exact ⟨2 ^ 23 + Num.fracField a, Num.expField a - 1, by omega, by omega, rfl⟩

/-- Rounding beats every representable magnitude: the candidate `q · 2^(k+e)` with a 24-bit `q`. -/
theorem Num.roundEven_beats (m e q k : Nat) (hq : q < 2 ^ 24) :
    |((Num.roundEven m (Num.discard m e) * 2 ^ Num.discard m e : Nat) : Int) - m| ≤
      |((q * 2 ^ (k + e) : Nat) : Int) - m| ∧
    (|((Num.roundEven m (Num.discard m e) * 2 ^ Num.discard m e : Nat) : Int) - m| =
        |((q * 2 ^ (k + e) : Nat) : Int) - m| →
      q * 2 ^ (k + e) ≠ Num.roundEven m (Num.discard m e) * 2 ^ Num.discard m e →
      Num.roundEven m (Num.discard m e) % 2 = 0) := by
  by_cases hk : Num.discard m e ≤ k + e
  · obtain ⟨d, hd⟩ := Nat.exists_eq_add_of_le hk
    have e1 : q * 2 ^ (k + e) = (q * 2 ^ d) * 2 ^ Num.discard m e := by rw [hd, pow_add]; ring
    rw [e1]
    obtain ⟨h1, h2⟩ := Num.roundEven_nearest m (Num.discard m e) (q * 2 ^ d)
    exact ⟨h1, fun h3 h4 => h2 h3 (fun h5 => h4 (by rw [h5]))⟩
  · have hd : Num.discard m e = Nat.log2 m - 23 := by unfold Num.discard at *; omega
    have hl : 23 ≤ Nat.log2 m := by omega
    have hm : m ≠ 0 := by rintro rfl; simp at hl
    have hlow : q * 2 ^ (k + e) < 2 ^ Nat.log2 m := by
      calc q * 2 ^ (k + e) < 2 ^ 24 * 2 ^ (k + e) := Nat.mul_lt_mul_of_pos_right hq (Nat.two_pow_pos _)
        _ = 2 ^ (24 + (k + e)) := (pow_add _ _ _).symm
        _ ≤ 2 ^ Nat.log2 m := Nat.pow_le_pow_right (by norm_num) (by omega)
    have hself := Nat.log2_self_le hm
    have h1 := (Num.roundEven_nearest m (Num.discard m e) (2 ^ 23)).1
    have e2 : 2 ^ 23 * 2 ^ Num.discard m e = 2 ^ Nat.log2 m := by rw [← pow_add]; congr 1; omega
    rw [e2] at h1
    rw [abs_of_nonpos (a := ((2 ^ Nat.log2 m : Nat) : Int) - m) (by omega)] at h1
    rw [abs_of_nonpos (a := ((q * 2 ^ (k + e) : Nat) : Int) - m) (by omega)]
    constructor
    · omega
    · intro h3; omega


/-- The largest finite value and half a step, in units: from here up a magnitude rounds to infinity. -/
def Num.overflowAt : Nat := (2 ^ 25 - 1) * 2 ^ 252

/-- The uncapped pattern stands for the rounded magnitude. -/
theorem Num.magOfBits_round (m e : Nat) :
    Num.magOfBits ((Num.discard m e - e) * 2 ^ 23 + Num.roundEven m (Num.discard m e)) * 2 ^ e =
      Num.roundEven m (Num.discard m e) * 2 ^ Num.discard m e := by
  obtain ⟨h1, h2⟩ := Num.roundEven_bounds m e
  rw [Num.magOfBits_compose _ _ h1 (by omega), Nat.mul_assoc, ← pow_add,
    Nat.sub_add_cancel (Num.le_discard m e)]

theorem Num.round_overflow_iff (m e : Nat) :
    (Num.discard m e - e) * 2 ^ 23 + Num.roundEven m (Num.discard m e) < 0x7F800000 ↔
      m < Num.overflowAt * 2 ^ e := by
  obtain ⟨hq, hk⟩ := Num.roundEven_bounds m e
  have hle := Num.le_discard m e
  have herr := Num.roundEven_error m (Num.discard m e)
  obtain ⟨k, hk'⟩ := Nat.exists_eq_add_of_le hle
  have hbe := Num.roundEven_beats m e (2 ^ 24 - 1) 253 (by norm_num)
  have hpe : 0 < 2 ^ e := Nat.two_pow_pos e
  generalize hq' : Num.roundEven m (Num.discard m e) = q at *
  generalize hd : Num.discard m e = d at *
  have e252 : (2 : Nat) ^ (253 + e) = 2 * (2 ^ 252 * 2 ^ e) := by rw [pow_add]; ring
  constructor
  · intro hlt
    -- the rounded magnitude is at most the largest finite one
    have hmax : q * 2 ^ d ≤ (2 ^ 24 - 1) * 2 ^ (253 + e) := by
      have hk253 : k ≤ 253 ∧ (k = 253 → q ≤ 2 ^ 24 - 1) := by omega
      have e3 : q * 2 ^ d = q * 2 ^ k * 2 ^ e := by rw [hk', pow_add]; ring
      rw [e3, pow_add, ← Nat.mul_assoc]
      refine Nat.mul_le_mul_right _ ?_
      rcases Nat.lt_or_ge k 253 with h | h
      · calc q * 2 ^ k ≤ 2 ^ 24 * 2 ^ 252 := Nat.mul_le_mul hq (Nat.pow_le_pow_right (by norm_num) (by omega))
          _ ≤ _ := by norm_num
      · obtain rfl : k = 253 := by omega
        exact Nat.mul_le_mul_right _ (hk253.2 rfl)
    by_contra hge
    have hge : Num.overflowAt * 2 ^ e ≤ m := by omega
    unfold Num.overflowAt at hge
    have hm0 : m ≠ 0 := by
      rintro rfl
      have : 0 < (2 ^ 25 - 1) * 2 ^ 252 * 2 ^ e := by positivity
      omega
    -- so the step is at least 2^(253 + e)
    have hlog : 276 + e ≤ Nat.log2 m := by
      rw [Nat.le_log2 hm0, pow_add]
      have h276 : (2 : Nat) ^ 276 ≤ (2 ^ 25 - 1) * 2 ^ 252 := by
        rw [show 276 = 24 + 252 from rfl, pow_add]
        exact Nat.mul_le_mul_right _ (by norm_num)
      calc 2 ^ 276 * 2 ^ e ≤ (2 ^ 25 - 1) * 2 ^ 252 * 2 ^ e := Nat.mul_le_mul_right _ h276
        _ ≤ m := hge
    have hd253 : d = Nat.log2 m - 23 := by rw [← hd]; unfold Num.discard; omega
    have hk253 : k = 253 := by omega
    have hdd : d = 253 + e := by omega
    have hpow : ((2 : Int) ^ d) = ((2 * (2 ^ 252 * 2 ^ e) : Nat) : Int) := by
      rw [hdd]; push_cast; rw [pow_add]; ring
    rw [hpow, hdd, e252] at herr
    rw [hdd, e252] at hmax
    have hqle : q ≤ 2 ^ 24 - 1 := by omega
    have hqge : 2 ^ 23 ≤ q := by omega
    have hA : (2 ^ 25 - 1) * (2 ^ 252 * 2 ^ e) ≤ m := by rw [← Nat.mul_assoc]; exact hge
    generalize 2 ^ 252 * 2 ^ e = A at *
    have hApos : 0 < A := by
      rcases Nat.eq_zero_or_pos A with h | h
      · subst h; simp at e252
      · exact h
    have hqA : q * (2 * A) ≤ (2 ^ 24 - 1) * (2 * A) := hmax
    rw [abs_of_nonpos (by push_cast at *; nlinarith)] at herr
    have h1 : q * (2 * A) = (2 ^ 24 - 1) * (2 * A) := by
      have := herr.1
      push_cast at *
      nlinarith
    have h2 : q = 2 ^ 24 - 1 := Nat.eq_of_mul_eq_mul_right (by omega) h1
    have := herr.2 (by rw [h1]; push_cast at *; have := herr.1; rw [h2] at this; push_cast at this; nlinarith)
    omega
  · intro hlt
    unfold Num.overflowAt at hlt
    by_contra hge
    -- the rounded magnitude is at least 2^277
    have hbig : 2 ^ 24 * 2 ^ (253 + e) ≤ q * 2 ^ d := by
      have e3 : q * 2 ^ d = q * 2 ^ k * 2 ^ e := by rw [hk', pow_add]; ring
      rw [e3, pow_add, ← Nat.mul_assoc]
      refine Nat.mul_le_mul_right _ ?_
      have : 254 ≤ k ∧ 2 ^ 23 ≤ q ∨ k = 253 ∧ q = 2 ^ 24 := by omega
      rcases this with ⟨h1, h2⟩ | ⟨h1, h2⟩
      · calc 2 ^ 24 * 2 ^ 253 = 2 ^ 23 * 2 ^ 254 := by norm_num
          _ ≤ q * 2 ^ k := Nat.mul_le_mul h2 (Nat.pow_le_pow_right (by norm_num) h1)
      · rw [h1, h2]
    rw [e252] at hbig
    have h1 := hbe.1
    rw [e252] at h1
    rw [Nat.mul_assoc] at hlt
    generalize 2 ^ 252 * 2 ^ e = A at *
    rw [abs_of_nonneg (a := ((q * 2 ^ d : Nat) : Int) - m) (by push_cast at *; nlinarith)] at h1
    rcases abs_cases ((((2 ^ 24 - 1) * (2 * A) : Nat) : Int) - m) with ⟨h2, _⟩ | ⟨h2, _⟩ <;> rw [h2] at h1 <;> omega


theorem Num.signBit_eq (a : F32) : Num.signBit a = decide (2 ^ 31 ≤ a.toNat) := by
  have h := BitVec.msb_eq_decide a
  rw [BitVec.msb_eq_getLsbD_last] at h
  exact h

theorem Num.roundBits_le (m e : Nat) : Num.roundBits m e ≤ 0x7F800000 := Nat.min_le_right _ _

theorem Num.toNat_round (neg : Bool) (m e : Nat) :
    (Num.round neg m e).toNat = (if neg then 2 ^ 31 else 0) + Num.roundBits m e := by
  have := Num.roundBits_le m e
  unfold Num.round
  rw [BitVec.toNat_ofNat]
  cases neg <;> simp <;> omega

@[simp] theorem Num.signBit_round (neg : Bool) (m e : Nat) : Num.signBit (Num.round neg m e) = neg := by
  have := Num.roundBits_le m e
  rw [Num.signBit_eq, Num.toNat_round]
  cases neg
  · simp; omega
  · simp

theorem Num.toNat_round_mod (neg : Bool) (m e : Nat) :
    (Num.round neg m e).toNat % 2 ^ 31 = Num.roundBits m e := by
  have := Num.roundBits_le m e
  rw [Num.toNat_round]
  cases neg <;> simp <;> omega

@[simp] theorem Num.isNaN_round (neg : Bool) (m e : Nat) : Num.isNaN (Num.round neg m e) = false := by
  have h1 := Num.roundBits_le m e
  have h2 := Num.toNat_round_mod neg m e
  simp only [Num.isNaN, Num.expField, Num.fracField, Bool.and_eq_false_iff, beq_eq_false_iff_ne, bne_eq_false_iff_eq]
  omega

/-- A rounded value is finite exactly below the overflow threshold. -/
theorem Num.isFinite_round_iff (neg : Bool) (m e : Nat) :
    Num.isFinite (Num.round neg m e) = true ↔ m < Num.overflowAt * 2 ^ e := by
  rw [← Num.round_overflow_iff]
  have h2 := Num.toNat_round_mod neg m e
  have h3 : Num.roundBits m e = min ((Num.discard m e - e) * 2 ^ 23 + Num.roundEven m (Num.discard m e)) 0x7F800000 := rfl
  simp only [Num.isFinite, Num.expField, bne_iff_ne]
  omega

/-- The magnitude of a finite rounded value, on the scale of its argument. -/
theorem Num.mag_round (neg : Bool) (m e : Nat) (h : m < Num.overflowAt * 2 ^ e) :
    Num.mag (Num.round neg m e) * 2 ^ e = Num.roundEven m (Num.discard m e) * 2 ^ Num.discard m e := by
  rw [← Num.round_overflow_iff] at h
  rw [Num.mag_eq_magOfBits, Num.toNat_round_mod, ← Num.magOfBits_round]
  congr 2
  exact Nat.min_eq_left (by omega)

/-- The lowest bit of a finite rounded value is that of its significand. -/
theorem Num.lowBit_round (neg : Bool) (m e : Nat) (h : m < Num.overflowAt * 2 ^ e) :
    (Num.round neg m e).getLsbD 0 = decide (Num.roundEven m (Num.discard m e) % 2 = 1) := by
  rw [← Num.round_overflow_iff] at h
  have h2 := Num.toNat_round_mod neg m e
  have h3 : Num.roundBits m e = (Num.discard m e - e) * 2 ^ 23 + Num.roundEven m (Num.discard m e) :=
    Nat.min_eq_left (by omega)
  rw [BitVec.getLsbD, Nat.testBit_zero]
  congr 1
  rw [eq_iff_iff]
  omega

/-- Rounding is nearest, ties to even, among all finite values: `x = ±m`, compared at the scale `2^e`. -/
theorem Num.round_nearest (neg : Bool) (m e : Nat) (h : m < Num.overflowAt * 2 ^ e) (c : F32)
    (hc : Num.isFinite c = true) (x : Int) (hx : x = if neg then -(m : Int) else m) :
    |Num.units (Num.round neg m e) * 2 ^ e - x| ≤ |Num.units c * 2 ^ e - x| ∧
    (|Num.units (Num.round neg m e) * 2 ^ e - x| = |Num.units c * 2 ^ e - x| →
      Num.units c ≠ Num.units (Num.round neg m e) → (Num.round neg m e).getLsbD 0 = false) := by
  obtain ⟨q, k, hq, -, hmag⟩ := Num.mag_form c hc
  have hr := Num.mag_round neg m e h
  rw [Num.lowBit_round neg m e h]
  have hb := Num.roundEven_beats m e q k hq
  have hz := Num.roundEven_beats m e 0 0 (by norm_num)
  have hcm : q * 2 ^ (k + e) = Num.mag c * 2 ^ e := by rw [hmag, pow_add]; ring
  rw [hcm, ← hr] at hb
  rw [← hr] at hz
  have hr' : ((Num.mag (Num.round neg m e) : Int)) * 2 ^ e = ((Num.mag (Num.round neg m e) * 2 ^ e : Nat) : Int) := by
    push_cast; rfl
  have hc' : ((Num.mag c : Int)) * 2 ^ e = ((Num.mag c * 2 ^ e : Nat) : Int) := by push_cast; rfl
  have hp : 0 < 2 ^ e := Nat.two_pow_pos e
  have hne : Num.mag c ≠ Num.mag (Num.round neg m e) → Num.mag c * 2 ^ e ≠ Num.mag (Num.round neg m e) * 2 ^ e :=
    fun h1 h2 => h1 (Nat.eq_of_mul_eq_mul_right hp h2)
  unfold Num.units
  rw [Num.signBit_round]
  generalize hQ : Num.roundEven m (Num.discard m e) = Q at *
  generalize Num.mag (Num.round neg m e) = R at *
  generalize hC : Num.mag c = C at *
  generalize hRe : R * 2 ^ e = Re at *
  generalize hCe : C * 2 ^ e = Ce at *
  have hneg : ∀ y : Nat, -(y : Int) * 2 ^ e = -((y : Int) * 2 ^ e) := by intro y; ring
  have hC0 : C = 0 → Ce = 0 := by rintro rfl; simpa using hCe.symm
  have hR0 : Re = 0 → R = 0 := by
    intro h0; rw [h0] at hRe; exact (Nat.mul_eq_zero.mp hRe).resolve_right (by omega)
  have hCz : Ce = 0 → C = 0 := by
    intro h0; rw [h0] at hCe; exact (Nat.mul_eq_zero.mp hCe).resolve_right (by omega)
  simp only [Nat.zero_mul] at hz
  cases neg <;> cases Num.signBit c <;> simp only [if_true, if_false, Bool.false_eq_true, hneg, hr', hc'] at * <;>
    subst hx
  · exact ⟨hb.1, fun h1 h2 => by simpa using hb.2 h1 (hne (by omega))⟩
  · have h4 : |-(Ce : Int) - m| = (Ce : Int) + m := by rw [abs_of_nonpos (by omega)]; ring
    have h5 : |((0 : Nat) : Int) - m| = (m : Int) := by rw [abs_of_nonpos (by omega)]; omega
    rw [h4]
    rw [h5] at hz
    refine ⟨by omega, fun h1 h2 => ?_⟩
    have : Ce = 0 := by omega
    have := hz.2 (by omega) (by rintro h6; have := hR0 h6.symm; have := hCz ‹_›; omega)
    simpa using this
  · have h4 : |(Ce : Int) - -(m : Int)| = (Ce : Int) + m := by rw [abs_of_nonneg (by omega)]; ring
    have h5 : |((0 : Nat) : Int) - m| = (m : Int) := by rw [abs_of_nonpos (by omega)]; omega
    have h6 : |-(Re : Int) - -(m : Int)| = |(Re : Int) - m| := by rw [abs_sub_comm]; congr 1; ring
    rw [h4, h6]
    rw [h5] at hz
    refine ⟨by omega, fun h1 h2 => ?_⟩
    have : Ce = 0 := by omega
    have := hz.2 (by omega) (by rintro h6; have := hR0 h6.symm; have := hCz ‹_›; omega)
    simpa using this
  · have h6 : ∀ y : Int, |-y - -(m : Int)| = |y - m| := by intro y; rw [abs_sub_comm]; congr 1; ring
    rw [h6, h6]
    exact ⟨hb.1, fun h1 h2 => by simpa using hb.2 h1 (hne (by omega))⟩

theorem Num.expField_eq_of_mod (a b : F32) (h : a.toNat % 2 ^ 31 = b.toNat % 2 ^ 31) :
    Num.expField a = Num.expField b ∧ Num.fracField a = Num.fracField b := by
  simp only [Num.expField, Num.fracField]; omega

theorem Num.toNat_neg_mod (a : F32) : (Num.neg a).toNat % 2 ^ 31 = a.toNat % 2 ^ 31 := by
  unfold Num.neg
  rw [BitVec.toNat_xor, Nat.xor_mod_two_pow]
  simp

@[simp] theorem Num.signBit_neg (a : F32) : Num.signBit (Num.neg a) = !Num.signBit a := by
  simp [Num.signBit, Num.neg]

@[simp] theorem Num.isNaN_neg (a : F32) : Num.isNaN (Num.neg a) = Num.isNaN a := by
  obtain ⟨h1, h2⟩ := Num.expField_eq_of_mod _ _ (Num.toNat_neg_mod a)
  simp only [Num.isNaN, h1, h2]

@[simp] theorem Num.isInf_neg (a : F32) : Num.isInf (Num.neg a) = Num.isInf a := by
  obtain ⟨h1, h2⟩ := Num.expField_eq_of_mod _ _ (Num.toNat_neg_mod a)
  simp only [Num.isInf, h1, h2]

@[simp] theorem Num.isFinite_neg (a : F32) : Num.isFinite (Num.neg a) = Num.isFinite a := by
  simp only [Num.isFinite, (Num.expField_eq_of_mod _ _ (Num.toNat_neg_mod a)).1]

@[simp] theorem Num.units_neg (a : F32) : Num.units (Num.neg a) = -Num.units a := by
  unfold Num.units
  rw [Num.mag_eq_magOfBits, Num.mag_eq_magOfBits a, Num.toNat_neg_mod, Num.signBit_neg]
  cases Num.signBit a <;> simp

/-- A value is a NaN, an infinity, or finite, and exactly one of them. -/
theorem Num.isFinite_iff (a : F32) : Num.isFinite a = true ↔ Num.isNaN a = false ∧ Num.isInf a = false := by
  simp only [Num.isFinite, Num.isNaN, Num.isInf, bne_iff_ne, Bool.and_eq_false_iff, beq_eq_false_iff_ne,
    bne_eq_false_iff_eq]
  by_cases h : Num.expField a = 255 <;> by_cases h' : Num.fracField a = 0 <;> simp [h, h']

theorem Num.isNaN_of_isFinite {a : F32} (h : Num.isFinite a = true) : Num.isNaN a = false :=
  ((Num.isFinite_iff a).mp h).1

theorem Num.isInf_of_isFinite {a : F32} (h : Num.isFinite a = true) : Num.isInf a = false :=
  ((Num.isFinite_iff a).mp h).2

theorem Num.isNaN_of_isInf {a : F32} (h : Num.isInf a = true) : Num.isNaN a = false := by
  simp only [Num.isInf, Num.isNaN, Bool.and_eq_true, beq_iff_eq] at *
  simp [h.1, h.2]

/-- The sum of two finite values, as one rounding of the exact sum. -/
theorem Num.fadd_finite (free : Word) (a b : F32) (ha : Num.isFinite a = true) (hb : Num.isFinite b = true) :
    Num.fadd free a b =
      if Num.units a + Num.units b = 0 then
        if Num.signBit a && Num.signBit b then 0x80000000#32 else 0#32
      else Num.round (decide (Num.units a + Num.units b < 0)) (Num.units a + Num.units b).natAbs 0 := by
  unfold Num.fadd
  simp [Num.isNaN_of_isFinite ha, Num.isNaN_of_isFinite hb, Num.isInf_of_isFinite ha, Num.isInf_of_isFinite hb]

/-- The same for a difference (R14): one rounding of the exact difference; a zero one is −0 only as −0 less +0. -/
theorem Num.fsub_finite (free : Word) (a b : F32) (ha : Num.isFinite a = true) (hb : Num.isFinite b = true) :
    Num.fsub free a b =
      if Num.units a - Num.units b = 0 then
        if Num.signBit a && !Num.signBit b then 0x80000000#32 else 0#32
      else Num.round (decide (Num.units a - Num.units b < 0)) (Num.units a - Num.units b).natAbs 0 := by
  rw [Num.fsub, Num.fadd_finite free a _ ha (by simpa using hb), Num.units_neg, Num.signBit_neg, ← sub_eq_add_neg]

/-- There are two infinities (R14). -/
theorem Num.eq_of_isInf {a : F32} (h : Num.isInf a = true) : a = 0x7F800000#32 ∨ a = 0xFF800000#32 := by
  simp only [Num.isInf, Num.expField, Num.fracField, Bool.and_eq_true, beq_iff_eq] at h
  rw [BitVec.toNat_eq, BitVec.toNat_eq]
  have := a.isLt
  simp only [BitVec.toNat_ofNat]
  omega

/-- The product of two finite values, as one rounding of the exact product. -/
theorem Num.fmul_finite (free : Word) (a b : F32) (ha : Num.isFinite a = true) (hb : Num.isFinite b = true) :
    Num.fmul free a b = Num.round (Num.signBit a != Num.signBit b) (Num.mag a * Num.mag b) 149 := by
  unfold Num.fmul
  simp [Num.isNaN_of_isFinite ha, Num.isNaN_of_isFinite hb, Num.isInf_of_isFinite ha, Num.isInf_of_isFinite hb]

/-- The exact product is the product of the magnitudes with the sign of R14. -/
theorem Num.units_mul (a b : F32) :
    Num.units a * Num.units b =
      if (Num.signBit a != Num.signBit b) then -((Num.mag a * Num.mag b : Nat) : Int)
      else ((Num.mag a * Num.mag b : Nat) : Int) := by
  unfold Num.units
  cases Num.signBit a <;> cases Num.signBit b <;> simp

theorem Num.mag_eq_natAbs (a : F32) : Num.mag a = (Num.units a).natAbs := by
  unfold Num.units; split <;> simp

theorem Num.isInf_mag_pos {a : F32} (h : Num.isInf a = true) : Num.mag a ≠ 0 := by
  simp only [Num.isInf, Bool.and_eq_true, beq_iff_eq] at h
  unfold Num.mag
  rw [h.1, h.2, if_neg (by decide)]
  positivity

theorem Num.isNaN_fadd_iff (free : Word) (a b : F32) :
    Num.isNaN (Num.fadd free a b) = true ↔
      Num.isNaN a = true ∨ Num.isNaN b = true ∨
        (Num.isInf a = true ∧ Num.isInf b = true ∧ Num.signBit a ≠ Num.signBit b) := by
  unfold Num.fadd
  by_cases ha : Num.isNaN a = true
  · simp [ha, Num.isNaN_nanOf]
  by_cases hb : Num.isNaN b = true
  · simp [hb, Num.isNaN_nanOf]
  by_cases hia : Num.isInf a = true <;> by_cases hib : Num.isInf b = true <;>
    by_cases hs : Num.signBit a = Num.signBit b <;>
    simp [ha, hb, hia, hib, hs, Num.isNaN_nanOf] <;>
    (try split) <;> (try split) <;> first | rfl | simp [Num.isNaN_round]

theorem Num.isNaN_fmul_iff (free : Word) (a b : F32) :
    Num.isNaN (Num.fmul free a b) = true ↔
      Num.isNaN a = true ∨ Num.isNaN b = true ∨
        (Num.isInf a = true ∧ Num.units b = 0) ∨ (Num.units a = 0 ∧ Num.isInf b = true) := by
  have hza : Num.units a = 0 ↔ Num.mag a = 0 := by rw [Num.mag_eq_natAbs]; omega
  have hzb : Num.units b = 0 ↔ Num.mag b = 0 := by rw [Num.mag_eq_natAbs]; omega
  have hi : Num.isNaN (if (Num.signBit a != Num.signBit b) = true then 0xFF800000#32 else 0x7F800000#32) = false := by
    split <;> decide
  rw [hza, hzb]
  unfold Num.fmul
  by_cases ha : Num.isNaN a = true
  · simp [ha, Num.isNaN_nanOf]
  by_cases hb : Num.isNaN b = true
  · simp [hb, Num.isNaN_nanOf]
  by_cases hz : Num.mag a = 0 ∨ Num.mag b = 0
  · by_cases hia : Num.isInf a = true
    · have := Num.isInf_mag_pos hia
      simp_all [Num.isNaN_nanOf]
    · by_cases hib : Num.isInf b = true
      · have := Num.isInf_mag_pos hib
        simp_all [Num.isNaN_nanOf]
      · simp [ha, hb, hia, hib]
  · simp only [ha, hb, hz, if_false, Bool.or_self, Bool.false_eq_true]
    have hz' := not_or.mp hz
    split
    · rw [hi]; simp [hz']
    · simp [hz']

theorem Num.fadd_eq_of_not_isNaN (f g : Word) (a b : F32) (h : Num.isNaN (Num.fadd f a b) = false) :
    Num.fadd f a b = Num.fadd g a b := by
  revert h
  unfold Num.fadd
  split
  · simp [Num.isNaN_nanOf]
  · split
    · split
      · simp [Num.isNaN_nanOf]
      · exact fun _ => rfl
    · exact fun _ => rfl

theorem Num.fmul_eq_of_not_isNaN (f g : Word) (a b : F32) (h : Num.isNaN (Num.fmul f a b) = false) :
    Num.fmul f a b = Num.fmul g a b := by
  revert h
  unfold Num.fmul
  split
  · simp [Num.isNaN_nanOf]
  · split
    · split
      · simp [Num.isNaN_nanOf]
      · exact fun _ => rfl
    · exact fun _ => rfl

end Sys2Proof
end

