-- ==== Sys2Proof/Laws/Same.lean ====
section
/-! SUPPORT. Values up to the pattern of a NaN (R15, U3): the arithmetic respects `Num.Same`, whatever free bits it is
given, and every consumer treats all NaNs alike. -/

namespace Sys2Proof

theorem Num.Same.refl (a : F32) : Num.Same a a := .inl rfl

theorem Num.Same.symm {a b : F32} (h : Num.Same a b) : Num.Same b a := by
  rcases h with rfl | ⟨h1, h2⟩
  · exact .inl rfl
  · exact .inr ⟨h2, h1⟩

theorem Num.Same.trans {a b c : F32} (h : Num.Same a b) (h' : Num.Same b c) : Num.Same a c := by
  rcases h with rfl | ⟨h1, h2⟩
  · exact h'
  · rcases h' with rfl | ⟨_, h3⟩
    · exact .inr ⟨h1, h2⟩
    · exact .inr ⟨h1, h3⟩

theorem Num.Same.isNaN_eq {a b : F32} (h : Num.Same a b) : Num.isNaN a = Num.isNaN b := by
  rcases h with rfl | ⟨h1, h2⟩
  · rfl
  · rw [h1, h2]

theorem Num.same_fadd {a a' b b' : F32} (f g : Word) (ha : Num.Same a a') (hb : Num.Same b b') :
    Num.Same (Num.fadd f a b) (Num.fadd g a' b') := by
  rcases ha with rfl | ⟨h1, h2⟩
  · rcases hb with rfl | ⟨h3, h4⟩
    · cases h : Num.isNaN (Num.fadd f a b)
      · exact .inl (Num.fadd_eq_of_not_isNaN f g a b h)
      · exact .inr ⟨h, by rw [Num.isNaN_fadd_iff] at *; exact h⟩
    · exact .inr ⟨by simp [Num.isNaN_fadd_iff, h3], by simp [Num.isNaN_fadd_iff, h4]⟩
  · exact .inr ⟨by simp [Num.isNaN_fadd_iff, h1], by simp [Num.isNaN_fadd_iff, h2]⟩

theorem Num.same_fmul {a a' b b' : F32} (f g : Word) (ha : Num.Same a a') (hb : Num.Same b b') :
    Num.Same (Num.fmul f a b) (Num.fmul g a' b') := by
  rcases ha with rfl | ⟨h1, h2⟩
  · rcases hb with rfl | ⟨h3, h4⟩
    · cases h : Num.isNaN (Num.fmul f a b)
      · exact .inl (Num.fmul_eq_of_not_isNaN f g a b h)
      · exact .inr ⟨h, by rw [Num.isNaN_fmul_iff] at *; exact h⟩
    · exact .inr ⟨by simp [Num.isNaN_fmul_iff, h3], by simp [Num.isNaN_fmul_iff, h4]⟩
  · exact .inr ⟨by simp [Num.isNaN_fmul_iff, h1], by simp [Num.isNaN_fmul_iff, h2]⟩

theorem Num.same_neg {a a' : F32} (h : Num.Same a a') : Num.Same (Num.neg a) (Num.neg a') := by
  rcases h with rfl | ⟨h1, h2⟩
  · exact .inl rfl
  · exact .inr ⟨by simpa, by simpa⟩

theorem Num.same_fsub {a a' b b' : F32} (f g : Word) (ha : Num.Same a a') (hb : Num.Same b b') :
    Num.Same (Num.fsub f a b) (Num.fsub g a' b') := Num.same_fadd f g ha (Num.same_neg hb)

namespace Machine

/-- Every consumer treats all NaNs alike (R15): the encoder. -/
theorem encode8_same (p : Params) {x y : F32} (h : Num.Same x y) : encode8 p x = encode8 p y := by
  rcases h with rfl | ⟨h1, h2⟩
  · rfl
  · simp [encode8, Num.fge, h1, h2]

/-- Every consumer treats all NaNs alike (R15): the quantiser. -/
theorem quant_same (k : Consts) {x y : F32} (h : Num.Same x y) : quant k x = quant k y := by
  rcases h with rfl | ⟨h1, h2⟩
  · rfl
  · simp [quant, h1, h2]

theorem lpcAccumulate_same (e e' : Nat) : ∀ {ss ss' : List F32} (j j' : Nat) {acc acc' : F32} (cs : List F32),
    List.Forall₂ Num.Same ss ss' → Num.Same acc acc' →
    Num.Same (lpcAccumulate e j acc ss cs) (lpcAccumulate e' j' acc' ss' cs)
  | [], _, _, _, _, _, _, .nil, h => by simpa [lpcAccumulate] using h
  | _ :: _, _, _, _, _, _, [], .cons _ _, h => by simpa [lpcAccumulate] using h
  | _ :: _, _, j, j', _, _, c :: cs, .cons h1 h2, h => by
    simp only [lpcAccumulate]
    exact lpcAccumulate_same e e' _ _ cs h2 (Num.same_fsub _ _ h (Num.same_fmul _ _ h1 (.refl c)))

/-- A prediction depends on the free NaN patterns, and on those in its window, only in the pattern of a NaN. -/
theorem lpcPredict_same (e e' : Nat) {s s' : List F32} (c : List F32) (h : List.Forall₂ Num.Same s s') :
    Num.Same (lpcPredict e c s) (lpcPredict e' c s') := lpcAccumulate_same e e' 0 0 c h (.refl _)

theorem forall₂_same_refl (l : List F32) : List.Forall₂ Num.Same l l := List.forall₂_same.mpr fun x _ => .refl x

end Machine
end Sys2Proof
end

