-- ==== Sys2Proof/Laws/Decode.lean ====
section
/-! SUPPORT. Words and fields as numbers, and what the decoder and the encoder do: the lemmas that a proof about a
command word cites in place of unfolding masks and concatenations. -/

namespace Sys2Proof

/-- Concatenation as arithmetic (R13). -/
theorem toNat_append_eq {m n : Nat} (a : BitVec m) (b : BitVec n) :
    (a ++ b).toNat = a.toNat * 2 ^ n + b.toNat := by
  rw [BitVec.toNat_append, Nat.shiftLeft_eq, Nat.mul_comm, Nat.two_pow_add_eq_or_of_lt b.isLt, Nat.mul_comm]

/-- A field as arithmetic (R13). -/
theorem toNat_extract {n : Nat} (a : BitVec n) (lo len : Nat) :
    (a.extractLsb' lo len).toNat = a.toNat / 2 ^ lo % 2 ^ len := by
  rw [BitVec.extractLsb'_toNat, Nat.shiftRight_eq_div_pow]

theorem toNat_opField (w : Word) : (opField w).toNat = w.toNat / 2 ^ 28 := by
  have := w.isLt
  rw [opField, toNat_extract]; omega

theorem toNat_immField (w : Word) : (immField w).toNat = w.toNat % 2 ^ 16 := by
  rw [immField, toNat_extract]; omega

theorem toNat_rowMatch (op : BitVec 4) : (rowMatch op).toNat = op.toNat * 2 ^ 28 := by
  have h := toNat_append_eq op 0#28
  simpa [rowMatch] using h

theorem toNat_encodeWord (i : Instr) : (encodeWord i).toNat = i.opcode.toNat * 2 ^ 28 + i.imm.toNat := by
  have h1 := toNat_append_eq (i.opcode ++ 0#12) i.imm
  have h2 := toNat_append_eq i.opcode 0#12
  have h3 : (encodeWord i).toNat = (i.opcode ++ 0#12 ++ i.imm).toNat := rfl
  rw [h3, h1, h2]
  simp
  omega

theorem and_mask16 (w : Word) : (w &&& 0xFFFF0000#32).toNat = w.toNat / 2 ^ 16 * 2 ^ 16 := by
  have h : w &&& 0xFFFF0000#32 = (w >>> 16) <<< 16 := by
    apply BitVec.eq_of_getLsbD_eq
    intro i hi
    interval_cases i <;> simp
  rw [h, BitVec.toNat_shiftLeft, BitVec.toNat_ushiftRight, Nat.shiftLeft_eq, Nat.shiftRight_eq_div_pow]
  have := w.isLt
  omega

theorem and_mask8 (w : Word) : (w &&& 0xFFFFFF00#32).toNat = w.toNat / 2 ^ 8 * 2 ^ 8 := by
  have h : w &&& 0xFFFFFF00#32 = (w >>> 8) <<< 8 := by
    apply BitVec.eq_of_getLsbD_eq
    intro i hi
    interval_cases i <;> simp
  rw [h, BitVec.toNat_shiftLeft, BitVec.toNat_ushiftRight, Nat.shiftLeft_eq, Nat.shiftRight_eq_div_pow]
  have := w.isLt
  omega

theorem and_mask32 (w : Word) : (w &&& 0xFFFFFFFF#32).toNat = w.toNat := by
  have h : w &&& 0xFFFFFFFF#32 = w := BitVec.and_allOnes (x := w)
  rw [h]

/-- `(w & mask) = match` says that every must-be-zero bit of R71 is 0. -/
theorem matches_iff (w : Word) (h : (opField w).toNat < 9) :
    w &&& rowMask (opField w) = rowMatch (opField w) ↔
      w.toNat / 2 ^ 16 % 2 ^ 12 = 0 ∧
      ((opField w).toNat ∈ [0, 1, 3, 5] → w.toNat % 2 ^ 16 = 0) ∧
      ((opField w).toNat = 6 → w.toNat / 2 ^ 8 % 2 ^ 8 = 0) := by
  have hw := w.isLt
  have hop := toNat_opField w
  rw [BitVec.toNat_eq, toNat_rowMatch]
  have h16 := and_mask16 w
  have h8 := and_mask8 w
  have h32 := and_mask32 w
  unfold rowMask
  generalize (opField w).toNat = op at *
  interval_cases op <;> simp only [h16, h8, h32] <;> simp <;> omega

/-! ### The encoder's words -/

theorem opcode_lt (i : Instr) : i.opcode.toNat < 9 := by cases i <;> simp [Instr.opcode]

theorem opField_encodeWord (i : Instr) : opField (encodeWord i) = i.opcode := by
  apply BitVec.eq_of_toNat_eq
  have := i.imm.isLt
  rw [toNat_opField, toNat_encodeWord]; omega

theorem immField_encodeWord (i : Instr) : immField (encodeWord i) = i.imm := by
  apply BitVec.eq_of_toNat_eq
  have := i.imm.isLt
  rw [toNat_immField, toNat_encodeWord]; omega

/-- An immediate has zeros where its row's must-be-zero bits are (R71). -/
theorem imm_fits (i : Instr) :
    (i.opcode.toNat ∈ [0, 1, 3, 5] → i.imm.toNat = 0) ∧ (i.opcode.toNat = 6 → i.imm.toNat / 2 ^ 8 = 0) := by
  cases i <;> simp [Instr.opcode, Instr.imm]
  rename_i u
  have := u.isLt
  have h0 : (0#8).toNat = 0 := rfl
  rw [toNat_append_eq, h0]
  omega

/-- Every encoded word matches its row of the opcode map (R69). -/
theorem matches_encodeWord (i : Instr) : encodeWord i &&& rowMask i.opcode = rowMatch i.opcode := by
  have h := matches_iff (encodeWord i) (by rw [opField_encodeWord]; exact opcode_lt i)
  rw [opField_encodeWord] at h
  rw [h, toNat_encodeWord]
  have hi := i.imm.isLt
  obtain ⟨f1, f2⟩ := imm_fits i
  refine ⟨by omega, fun hm => ?_, fun hm => ?_⟩
  · have := f1 hm; omega
  · have := f2 hm; omega

/-! ### What the operand decoder answers -/

theorem noPayload_eq_some {i j : Instr} {pl : List Word} : noPayload i pl = some j ↔ pl = [] ∧ j = i := by
  cases pl <;> simp [noPayload, eq_comm]

theorem onePayload_eq_some {f : Word → Instr} {j : Instr} {pl : List Word} :
    onePayload f pl = some j ↔ ∃ x, pl = [x] ∧ j = f x := by
  rcases pl with _ | ⟨x, _ | ⟨y, r⟩⟩ <;> simp [onePayload, eq_comm]

theorem framePayload_eq_some {p : Params} {n : BitVec 16} {j : Instr} {pl : List Word} :
    framePayload p n pl = some j ↔
      ∃ g a v, pl = g :: (a ++ v) ∧ a.length = p.P ∧ v.length = p.F ∧ j = .frame n g a v := by
  rcases pl with _ | ⟨g, r⟩
  · simp [framePayload]
  · constructor
    · intro h
      simp only [framePayload, Option.ite_none_right_eq_some, Option.some.injEq] at h
      exact ⟨g, r.take p.P, r.drop p.P, by rw [List.take_append_drop], by rw [List.length_take]; omega,
        by rw [List.length_drop]; omega, h.2.symm⟩
    · rintro ⟨g', a, v, h, ha, hv, rfl⟩
      cases h
      rw [framePayload, if_pos (by rw [List.length_append, ha, hv]), ← ha, List.take_left, List.drop_left]

/-- What the operand decoder answers is a well-formed command of that opcode with that payload, and its immediate is
the word's where the word's must-be-zero bits are 0. -/
theorem decodeOperands_spec {p : Params} {op : Nat} {imm : BitVec 16} {pl : List Word} {i : Instr}
    (h : decodeOperands p op imm pl = some i) :
    i.WellFormed p = true ∧ encodePayload i = pl ∧ i.opcode.toNat = op ∧
      ((op ∈ [0, 1, 3, 5] → imm.toNat = 0) → (op = 6 → imm.toNat / 2 ^ 8 = 0) → i.imm = imm) := by
  unfold decodeOperands at h
  split at h
  case h_10 => cases h
  case h_3 =>
    obtain ⟨g, a, v, rfl, ha, hv, rfl⟩ := framePayload_eq_some.mp h
    exact ⟨by simp [Instr.WellFormed, ha, hv], rfl, rfl, fun _ _ => rfl⟩
  case h_5 =>
    obtain ⟨rfl, rfl⟩ := noPayload_eq_some.mp h
    refine ⟨rfl, rfl, rfl, fun _ _ => ?_⟩
    apply BitVec.eq_of_toNat_eq
    have := imm.isLt
    rw [Instr.imm, toNat_append_eq, toNat_extract, toNat_extract]
    omega
  case h_7 =>
    obtain ⟨rfl, rfl⟩ := noPayload_eq_some.mp h
    refine ⟨rfl, rfl, rfl, fun _ h6 => ?_⟩
    apply BitVec.eq_of_toNat_eq
    have := h6 rfl
    have h0 : (0#8).toNat = 0 := rfl
    rw [Instr.imm, toNat_append_eq, toNat_extract, h0]
    omega
  case h_8 =>
    obtain ⟨rfl, rfl⟩ := noPayload_eq_some.mp h
    exact ⟨rfl, rfl, rfl, fun _ _ => rfl⟩
  case h_9 =>
    obtain ⟨x, rfl, rfl⟩ := onePayload_eq_some.mp h
    exact ⟨rfl, rfl, rfl, fun _ _ => rfl⟩
  case h_2 =>
    obtain ⟨x, rfl, rfl⟩ := onePayload_eq_some.mp h
    exact ⟨rfl, rfl, rfl, fun hz _ => (BitVec.eq_of_toNat_eq (hz (by simp))).symm⟩
  case h_6 =>
    obtain ⟨x, rfl, rfl⟩ := onePayload_eq_some.mp h
    exact ⟨rfl, rfl, rfl, fun hz _ => (BitVec.eq_of_toNat_eq (hz (by simp))).symm⟩
  all_goals
    obtain ⟨rfl, rfl⟩ := noPayload_eq_some.mp h
    exact ⟨rfl, rfl, rfl, fun hz _ => (BitVec.eq_of_toNat_eq (hz (by simp))).symm⟩

/-! ### What the decoder answers -/

theorem decode_opcode {p : Params} {w : Word} {pl : List Word} (h : 9 ≤ (opField w).toNat) :
    decode p w pl = .refuse .opcode := by rw [decode, if_pos h]

theorem decode_reserved {p : Params} {w : Word} {pl : List Word} (h : (opField w).toNat < 9)
    (hm : w &&& rowMask (opField w) ≠ rowMatch (opField w)) : decode p w pl = .refuse .reserved := by
  rw [decode, if_neg (by omega), if_pos hm]

/-- A command is decoded exactly where the opcode is defined, the row matches and the payload spells it (R72). -/
theorem decode_instr_iff {p : Params} {w : Word} {pl : List Word} {i : Instr} :
    decode p w pl = .instr i ↔
      (opField w).toNat < 9 ∧ w &&& rowMask (opField w) = rowMatch (opField w) ∧
        decodeOperands p (opField w).toNat (immField w) pl = some i := by
  unfold decode
  split
  · constructor
    · intro h; cases h
    · rintro ⟨h, -⟩; omega
  · rename_i hlt
    split
    · rename_i hm
      constructor
      · intro h; cases h
      · rintro ⟨-, h, -⟩; exact absurd h hm
    · rename_i hm
      rw [not_not] at hm
      constructor
      · intro h
        split at h
        · cases h; exact ⟨by omega, hm, by assumption⟩
        · cases h
      · rintro ⟨-, -, h⟩
        rw [h]

/-- The decoder refuses with `E_OPCODE` or `E_RESERVED` alone (R70, R71). -/
theorem decode_refuse_ne {p : Params} {w : Word} {pl : List Word} {e : ErrCode} (h : decode p w pl = .refuse e) :
    e ≠ .latched := by
  unfold decode at h
  split at h
  · cases h; simp
  · split at h
    · cases h; simp
    · split at h <;> cases h

end Sys2Proof
end

