-- ==== Sys2Proof/Laws/State.lean ====
section
/-! SUPPORT. One lemma per field per update: what each shared operation writes and that it leaves every other field,
so that no proof unfolds a record update. -/

namespace Sys2Proof.Machine

/-! ### `emit`: a response (R73) -/

@[simp] theorem emit_params (op : BitVec 4) (err : Bool) (ecode : BitVec 4) (data : List Word) (s : State) :
    (emit op err ecode data s).params = s.params := rfl
@[simp] theorem emit_frameCount (op : BitVec 4) (err : Bool) (ecode : BitVec 4) (data : List Word) (s : State) :
    (emit op err ecode data s).frameCount = s.frameCount := rfl
@[simp] theorem emit_featHist (op : BitVec 4) (err : Bool) (ecode : BitVec 4) (data : List Word) (s : State) :
    (emit op err ecode data s).featHist = s.featHist := rfl
@[simp] theorem emit_lpcHist (op : BitVec 4) (err : Bool) (ecode : BitVec 4) (data : List Word) (s : State) :
    (emit op err ecode data s).lpcHist = s.lpcHist := rfl
@[simp] theorem emit_gainHist (op : BitVec 4) (err : Bool) (ecode : BitVec 4) (data : List Word) (s : State) :
    (emit op err ecode data s).gainHist = s.gainHist := rfl
@[simp] theorem emit_lastSig (op : BitVec 4) (err : Bool) (ecode : BitVec 4) (data : List Word) (s : State) :
    (emit op err ecode data s).lastSig = s.lastSig := rfl
@[simp] theorem emit_lastExc0 (op : BitVec 4) (err : Bool) (ecode : BitVec 4) (data : List Word) (s : State) :
    (emit op err ecode data s).lastExc0 = s.lastExc0 := rfl
@[simp] theorem emit_lastExc1 (op : BitVec 4) (err : Bool) (ecode : BitVec 4) (data : List Word) (s : State) :
    (emit op err ecode data s).lastExc1 = s.lastExc1 := rfl
@[simp] theorem emit_deemphMem (op : BitVec 4) (err : Bool) (ecode : BitVec 4) (data : List Word) (s : State) :
    (emit op err ecode data s).deemphMem = s.deemphMem := rfl
@[simp] theorem emit_lpcCur (op : BitVec 4) (err : Bool) (ecode : BitVec 4) (data : List Word) (s : State) :
    (emit op err ecode data s).lpcCur = s.lpcCur := rfl
@[simp] theorem emit_gainCur (op : BitVec 4) (err : Bool) (ecode : BitVec 4) (data : List Word) (s : State) :
    (emit op err ecode data s).gainCur = s.gainCur := rfl
@[simp] theorem emit_pred1 (op : BitVec 4) (err : Bool) (ecode : BitVec 4) (data : List Word) (s : State) :
    (emit op err ecode data s).pred1 = s.pred1 := rfl
@[simp] theorem emit_pairsLeft (op : BitVec 4) (err : Bool) (ecode : BitVec 4) (data : List Word) (s : State) :
    (emit op err ecode data s).pairsLeft = s.pairsLeft := rfl
@[simp] theorem emit_phase (op : BitVec 4) (err : Bool) (ecode : BitVec 4) (data : List Word) (s : State) :
    (emit op err ecode data s).phase = s.phase := rfl
@[simp] theorem emit_err (op : BitVec 4) (err : Bool) (ecode : BitVec 4) (data : List Word) (s : State) :
    (emit op err ecode data s).err = s.err := rfl
@[simp] theorem emit_errCode (op : BitVec 4) (err : Bool) (ecode : BitVec 4) (data : List Word) (s : State) :
    (emit op err ecode data s).errCode = s.errCode := rfl
@[simp] theorem emit_pending (op : BitVec 4) (err : Bool) (ecode : BitVec 4) (data : List Word) (s : State) :
    (emit op err ecode data s).pending = s.pending := rfl
@[simp] theorem emit_responses (op : BitVec 4) (err : Bool) (ecode : BitVec 4) (data : List Word) (s : State) :
    (emit op err ecode data s).responses = s.responses ++ [{ header := headerWord op err ecode data.length s, data := data }] := rfl
@[simp] theorem emit_nanEpoch (op : BitVec 4) (err : Bool) (ecode : BitVec 4) (data : List Word) (s : State) :
    (emit op err ecode data s).nanEpoch = s.nanEpoch := rfl

/-! ### `respond`: the answer of an accepted command (R75) -/

@[simp] theorem respond_params (op : BitVec 4) (data : List Word) (s : State) :
    (respond op data s).params = s.params := rfl
@[simp] theorem respond_frameCount (op : BitVec 4) (data : List Word) (s : State) :
    (respond op data s).frameCount = s.frameCount := rfl
@[simp] theorem respond_featHist (op : BitVec 4) (data : List Word) (s : State) :
    (respond op data s).featHist = s.featHist := rfl
@[simp] theorem respond_lpcHist (op : BitVec 4) (data : List Word) (s : State) :
    (respond op data s).lpcHist = s.lpcHist := rfl
@[simp] theorem respond_gainHist (op : BitVec 4) (data : List Word) (s : State) :
    (respond op data s).gainHist = s.gainHist := rfl
@[simp] theorem respond_lastSig (op : BitVec 4) (data : List Word) (s : State) :
    (respond op data s).lastSig = s.lastSig := rfl
@[simp] theorem respond_lastExc0 (op : BitVec 4) (data : List Word) (s : State) :
    (respond op data s).lastExc0 = s.lastExc0 := rfl
@[simp] theorem respond_lastExc1 (op : BitVec 4) (data : List Word) (s : State) :
    (respond op data s).lastExc1 = s.lastExc1 := rfl
@[simp] theorem respond_deemphMem (op : BitVec 4) (data : List Word) (s : State) :
    (respond op data s).deemphMem = s.deemphMem := rfl
@[simp] theorem respond_lpcCur (op : BitVec 4) (data : List Word) (s : State) :
    (respond op data s).lpcCur = s.lpcCur := rfl
@[simp] theorem respond_gainCur (op : BitVec 4) (data : List Word) (s : State) :
    (respond op data s).gainCur = s.gainCur := rfl
@[simp] theorem respond_pred1 (op : BitVec 4) (data : List Word) (s : State) :
    (respond op data s).pred1 = s.pred1 := rfl
@[simp] theorem respond_pairsLeft (op : BitVec 4) (data : List Word) (s : State) :
    (respond op data s).pairsLeft = s.pairsLeft := rfl
@[simp] theorem respond_phase (op : BitVec 4) (data : List Word) (s : State) :
    (respond op data s).phase = s.phase := rfl
@[simp] theorem respond_err (op : BitVec 4) (data : List Word) (s : State) : (respond op data s).err = s.err := rfl
@[simp] theorem respond_errCode (op : BitVec 4) (data : List Word) (s : State) :
    (respond op data s).errCode = s.errCode := rfl
@[simp] theorem respond_pending (op : BitVec 4) (data : List Word) (s : State) :
    (respond op data s).pending = s.pending := rfl
@[simp] theorem respond_responses (op : BitVec 4) (data : List Word) (s : State) :
    (respond op data s).responses = s.responses ++ [{ header := headerWord op false 0 data.length s, data := data }] := rfl
@[simp] theorem respond_nanEpoch (op : BitVec 4) (data : List Word) (s : State) :
    (respond op data s).nanEpoch = s.nanEpoch := rfl

/-! ### `clearState`: reset and INIT (R38) -/

@[simp] theorem clearState_params (s : State) : (clearState s).params = s.params := rfl
@[simp] theorem clearState_frameCount (s : State) : (clearState s).frameCount = 0 := rfl
@[simp] theorem clearState_featHist (s : State) :
    (clearState s).featHist = List.replicate s.params.D (List.replicate s.params.F 0) := rfl
@[simp] theorem clearState_lpcHist (s : State) :
    (clearState s).lpcHist = List.replicate s.params.D (List.replicate s.params.P 0) := rfl
@[simp] theorem clearState_gainHist (s : State) : (clearState s).gainHist = List.replicate s.params.D 0 := rfl
@[simp] theorem clearState_lastSig (s : State) : (clearState s).lastSig = List.replicate s.params.P 0 := rfl
@[simp] theorem clearState_lastExc0 (s : State) : (clearState s).lastExc0 = silence := rfl
@[simp] theorem clearState_lastExc1 (s : State) : (clearState s).lastExc1 = silence := rfl
@[simp] theorem clearState_deemphMem (s : State) : (clearState s).deemphMem = 0 := rfl
@[simp] theorem clearState_lpcCur (s : State) : (clearState s).lpcCur = List.replicate s.params.P 0 := rfl
@[simp] theorem clearState_gainCur (s : State) : (clearState s).gainCur = 0 := rfl
@[simp] theorem clearState_pred1 (s : State) : (clearState s).pred1 = 0 := rfl
@[simp] theorem clearState_pairsLeft (s : State) : (clearState s).pairsLeft = 0 := rfl
@[simp] theorem clearState_phase (s : State) : (clearState s).phase = .idle := rfl
@[simp] theorem clearState_err (s : State) : (clearState s).err = false := rfl
@[simp] theorem clearState_errCode (s : State) : (clearState s).errCode = 0 := rfl
@[simp] theorem clearState_pending (s : State) : (clearState s).pending = s.pending := rfl
@[simp] theorem clearState_responses (s : State) : (clearState s).responses = s.responses := rfl
@[simp] theorem clearState_nanEpoch (s : State) : (clearState s).nanEpoch = s.nanEpoch := rfl

/-! ### `alignGain`: FRAME step 2 (R111) -/

@[simp] theorem alignGain_params (g : F32) (s : State) : (alignGain g s).params = s.params := rfl
@[simp] theorem alignGain_frameCount (g : F32) (s : State) : (alignGain g s).frameCount = s.frameCount := rfl
@[simp] theorem alignGain_featHist (g : F32) (s : State) : (alignGain g s).featHist = s.featHist := rfl
@[simp] theorem alignGain_lpcHist (g : F32) (s : State) : (alignGain g s).lpcHist = s.lpcHist := rfl
@[simp] theorem alignGain_gainHist (g : F32) (s : State) : (alignGain g s).gainHist = push s.gainHist g := rfl
@[simp] theorem alignGain_lastSig (g : F32) (s : State) : (alignGain g s).lastSig = s.lastSig := rfl
@[simp] theorem alignGain_lastExc0 (g : F32) (s : State) : (alignGain g s).lastExc0 = s.lastExc0 := rfl
@[simp] theorem alignGain_lastExc1 (g : F32) (s : State) : (alignGain g s).lastExc1 = s.lastExc1 := rfl
@[simp] theorem alignGain_deemphMem (g : F32) (s : State) : (alignGain g s).deemphMem = s.deemphMem := rfl
@[simp] theorem alignGain_lpcCur (g : F32) (s : State) : (alignGain g s).lpcCur = s.lpcCur := rfl
@[simp] theorem alignGain_gainCur (g : F32) (s : State) :
    (alignGain g s).gainCur = (push s.gainHist g).getD (s.params.D - 1) 0 := rfl
@[simp] theorem alignGain_pred1 (g : F32) (s : State) : (alignGain g s).pred1 = s.pred1 := rfl
@[simp] theorem alignGain_pairsLeft (g : F32) (s : State) : (alignGain g s).pairsLeft = s.pairsLeft := rfl
@[simp] theorem alignGain_phase (g : F32) (s : State) : (alignGain g s).phase = s.phase := rfl
@[simp] theorem alignGain_err (g : F32) (s : State) : (alignGain g s).err = s.err := rfl
@[simp] theorem alignGain_errCode (g : F32) (s : State) : (alignGain g s).errCode = s.errCode := rfl
@[simp] theorem alignGain_pending (g : F32) (s : State) : (alignGain g s).pending = s.pending := rfl
@[simp] theorem alignGain_responses (g : F32) (s : State) : (alignGain g s).responses = s.responses := rfl
@[simp] theorem alignGain_nanEpoch (g : F32) (s : State) : (alignGain g s).nanEpoch = s.nanEpoch := rfl

/-! ### `countFrame`: FRAME step 3 (R112, R113) -/

@[simp] theorem countFrame_params (v : List F32) (s : State) : (countFrame v s).params = s.params := rfl
@[simp] theorem countFrame_frameCount (v : List F32) (s : State) :
    (countFrame v s).frameCount = BitVec.ofNat 16 (min (s.frameCount.toNat + 1) s.params.CAP) := rfl
@[simp] theorem countFrame_featHist (v : List F32) (s : State) : (countFrame v s).featHist = push s.featHist v := rfl
@[simp] theorem countFrame_lpcHist (v : List F32) (s : State) : (countFrame v s).lpcHist = s.lpcHist := rfl
@[simp] theorem countFrame_gainHist (v : List F32) (s : State) : (countFrame v s).gainHist = s.gainHist := rfl
@[simp] theorem countFrame_lastSig (v : List F32) (s : State) : (countFrame v s).lastSig = s.lastSig := rfl
@[simp] theorem countFrame_lastExc0 (v : List F32) (s : State) : (countFrame v s).lastExc0 = s.lastExc0 := rfl
@[simp] theorem countFrame_lastExc1 (v : List F32) (s : State) : (countFrame v s).lastExc1 = s.lastExc1 := rfl
@[simp] theorem countFrame_deemphMem (v : List F32) (s : State) : (countFrame v s).deemphMem = s.deemphMem := rfl
@[simp] theorem countFrame_lpcCur (v : List F32) (s : State) : (countFrame v s).lpcCur = s.lpcCur := rfl
@[simp] theorem countFrame_gainCur (v : List F32) (s : State) : (countFrame v s).gainCur = s.gainCur := rfl
@[simp] theorem countFrame_pred1 (v : List F32) (s : State) : (countFrame v s).pred1 = s.pred1 := rfl
@[simp] theorem countFrame_pairsLeft (v : List F32) (s : State) : (countFrame v s).pairsLeft = s.pairsLeft := rfl
@[simp] theorem countFrame_phase (v : List F32) (s : State) : (countFrame v s).phase = s.phase := rfl
@[simp] theorem countFrame_err (v : List F32) (s : State) : (countFrame v s).err = s.err := rfl
@[simp] theorem countFrame_errCode (v : List F32) (s : State) : (countFrame v s).errCode = s.errCode := rfl
@[simp] theorem countFrame_pending (v : List F32) (s : State) : (countFrame v s).pending = s.pending := rfl
@[simp] theorem countFrame_responses (v : List F32) (s : State) : (countFrame v s).responses = s.responses := rfl
@[simp] theorem countFrame_nanEpoch (v : List F32) (s : State) : (countFrame v s).nanEpoch = s.nanEpoch := rfl

/-! ### `alignLpc`: FRAME step 4 (R114) -/

@[simp] theorem alignLpc_params (a : List F32) (s : State) : (alignLpc a s).params = s.params := rfl
@[simp] theorem alignLpc_frameCount (a : List F32) (s : State) : (alignLpc a s).frameCount = s.frameCount := rfl
@[simp] theorem alignLpc_featHist (a : List F32) (s : State) : (alignLpc a s).featHist = s.featHist := rfl
@[simp] theorem alignLpc_lpcHist (a : List F32) (s : State) : (alignLpc a s).lpcHist = push s.lpcHist a := rfl
@[simp] theorem alignLpc_gainHist (a : List F32) (s : State) : (alignLpc a s).gainHist = s.gainHist := rfl
@[simp] theorem alignLpc_lastSig (a : List F32) (s : State) : (alignLpc a s).lastSig = s.lastSig := rfl
@[simp] theorem alignLpc_lastExc0 (a : List F32) (s : State) : (alignLpc a s).lastExc0 = s.lastExc0 := rfl
@[simp] theorem alignLpc_lastExc1 (a : List F32) (s : State) : (alignLpc a s).lastExc1 = s.lastExc1 := rfl
@[simp] theorem alignLpc_deemphMem (a : List F32) (s : State) : (alignLpc a s).deemphMem = s.deemphMem := rfl
@[simp] theorem alignLpc_lpcCur (a : List F32) (s : State) :
    (alignLpc a s).lpcCur = (push s.lpcHist a).getD (s.params.D - 1) [] := rfl
@[simp] theorem alignLpc_gainCur (a : List F32) (s : State) : (alignLpc a s).gainCur = s.gainCur := rfl
@[simp] theorem alignLpc_pred1 (a : List F32) (s : State) : (alignLpc a s).pred1 = s.pred1 := rfl
@[simp] theorem alignLpc_pairsLeft (a : List F32) (s : State) : (alignLpc a s).pairsLeft = s.pairsLeft := rfl
@[simp] theorem alignLpc_phase (a : List F32) (s : State) : (alignLpc a s).phase = s.phase := rfl
@[simp] theorem alignLpc_err (a : List F32) (s : State) : (alignLpc a s).err = s.err := rfl
@[simp] theorem alignLpc_errCode (a : List F32) (s : State) : (alignLpc a s).errCode = s.errCode := rfl
@[simp] theorem alignLpc_pending (a : List F32) (s : State) : (alignLpc a s).pending = s.pending := rfl
@[simp] theorem alignLpc_responses (a : List F32) (s : State) : (alignLpc a s).responses = s.responses := rfl
@[simp] theorem alignLpc_nanEpoch (a : List F32) (s : State) : (alignLpc a s).nanEpoch = s.nanEpoch := rfl

/-! ### `emitSample`: `EmitSample` (R135) -/

@[simp] theorem emitSample_params (pred : F32) (e : Code) (s : State) :
    (emitSample pred e s).2.params = s.params := rfl
@[simp] theorem emitSample_frameCount (pred : F32) (e : Code) (s : State) :
    (emitSample pred e s).2.frameCount = s.frameCount := rfl
@[simp] theorem emitSample_featHist (pred : F32) (e : Code) (s : State) :
    (emitSample pred e s).2.featHist = s.featHist := rfl
@[simp] theorem emitSample_lpcHist (pred : F32) (e : Code) (s : State) :
    (emitSample pred e s).2.lpcHist = s.lpcHist := rfl
@[simp] theorem emitSample_gainHist (pred : F32) (e : Code) (s : State) :
    (emitSample pred e s).2.gainHist = s.gainHist := rfl
@[simp] theorem emitSample_lastSig (pred : F32) (e : Code) (s : State) :
    (emitSample pred e s).2.lastSig = push s.lastSig (reconstruct s.nanEpoch s.params pred e) := rfl
@[simp] theorem emitSample_lastExc0 (pred : F32) (e : Code) (s : State) :
    (emitSample pred e s).2.lastExc0 = s.lastExc0 := rfl
@[simp] theorem emitSample_lastExc1 (pred : F32) (e : Code) (s : State) :
    (emitSample pred e s).2.lastExc1 = s.lastExc1 := rfl
@[simp] theorem emitSample_deemphMem (pred : F32) (e : Code) (s : State) :
    (emitSample pred e s).2.deemphMem = deemphasise s.nanEpoch s.params.consts (reconstruct s.nanEpoch s.params pred e) s.deemphMem := rfl
@[simp] theorem emitSample_lpcCur (pred : F32) (e : Code) (s : State) :
    (emitSample pred e s).2.lpcCur = s.lpcCur := rfl
@[simp] theorem emitSample_gainCur (pred : F32) (e : Code) (s : State) :
    (emitSample pred e s).2.gainCur = s.gainCur := rfl
@[simp] theorem emitSample_pred1 (pred : F32) (e : Code) (s : State) : (emitSample pred e s).2.pred1 = s.pred1 := rfl
@[simp] theorem emitSample_pairsLeft (pred : F32) (e : Code) (s : State) :
    (emitSample pred e s).2.pairsLeft = s.pairsLeft := rfl
@[simp] theorem emitSample_phase (pred : F32) (e : Code) (s : State) : (emitSample pred e s).2.phase = s.phase := rfl
@[simp] theorem emitSample_err (pred : F32) (e : Code) (s : State) : (emitSample pred e s).2.err = s.err := rfl
@[simp] theorem emitSample_errCode (pred : F32) (e : Code) (s : State) :
    (emitSample pred e s).2.errCode = s.errCode := rfl
@[simp] theorem emitSample_pending (pred : F32) (e : Code) (s : State) :
    (emitSample pred e s).2.pending = s.pending := rfl
@[simp] theorem emitSample_responses (pred : F32) (e : Code) (s : State) :
    (emitSample pred e s).2.responses = s.responses := rfl
@[simp] theorem emitSample_nanEpoch (pred : F32) (e : Code) (s : State) :
    (emitSample pred e s).2.nanEpoch = s.nanEpoch + 1 := rfl

/-! ### `closePair`: the end of a pair (R143) -/

@[simp] theorem closePair_params (s : State) : (closePair s).params = s.params := rfl
@[simp] theorem closePair_frameCount (s : State) : (closePair s).frameCount = s.frameCount := rfl
@[simp] theorem closePair_featHist (s : State) : (closePair s).featHist = s.featHist := rfl
@[simp] theorem closePair_lpcHist (s : State) : (closePair s).lpcHist = s.lpcHist := rfl
@[simp] theorem closePair_gainHist (s : State) : (closePair s).gainHist = s.gainHist := rfl
@[simp] theorem closePair_lastSig (s : State) : (closePair s).lastSig = s.lastSig := rfl
@[simp] theorem closePair_lastExc0 (s : State) : (closePair s).lastExc0 = s.lastExc0 := rfl
@[simp] theorem closePair_lastExc1 (s : State) : (closePair s).lastExc1 = s.lastExc1 := rfl
@[simp] theorem closePair_deemphMem (s : State) : (closePair s).deemphMem = s.deemphMem := rfl
@[simp] theorem closePair_lpcCur (s : State) : (closePair s).lpcCur = s.lpcCur := rfl
@[simp] theorem closePair_gainCur (s : State) : (closePair s).gainCur = s.gainCur := rfl
@[simp] theorem closePair_pred1 (s : State) : (closePair s).pred1 = s.pred1 := rfl
@[simp] theorem closePair_pairsLeft (s : State) : (closePair s).pairsLeft = s.pairsLeft - 1 := rfl
@[simp] theorem closePair_phase (s : State) :
    (closePair s).phase = if s.pairsLeft - 1 = 0 then .idle else .pairReady := rfl
@[simp] theorem closePair_err (s : State) : (closePair s).err = s.err := rfl
@[simp] theorem closePair_errCode (s : State) : (closePair s).errCode = s.errCode := rfl
@[simp] theorem closePair_pending (s : State) : (closePair s).pending = s.pending := rfl
@[simp] theorem closePair_responses (s : State) : (closePair s).responses = s.responses := rfl
@[simp] theorem closePair_nanEpoch (s : State) : (closePair s).nanEpoch = s.nanEpoch := rfl

/-! ### `memWrite`: a register write (R158) leaves what no register of the map holds -/

@[simp] theorem memWrite_params (r : Reg) (v : Word) (s : State) : (memWrite r v s).params = s.params := by cases r <;> rfl
@[simp] theorem memWrite_lpcCur (r : Reg) (v : Word) (s : State) : (memWrite r v s).lpcCur = s.lpcCur := by cases r <;> rfl
@[simp] theorem memWrite_gainCur (r : Reg) (v : Word) (s : State) : (memWrite r v s).gainCur = s.gainCur := by cases r <;> rfl
@[simp] theorem memWrite_pred1 (r : Reg) (v : Word) (s : State) : (memWrite r v s).pred1 = s.pred1 := by cases r <;> rfl
@[simp] theorem memWrite_pairsLeft (r : Reg) (v : Word) (s : State) : (memWrite r v s).pairsLeft = s.pairsLeft := by cases r <;> rfl
@[simp] theorem memWrite_phase (r : Reg) (v : Word) (s : State) : (memWrite r v s).phase = s.phase := by cases r <;> rfl
@[simp] theorem memWrite_err (r : Reg) (v : Word) (s : State) : (memWrite r v s).err = s.err := by cases r <;> rfl
@[simp] theorem memWrite_errCode (r : Reg) (v : Word) (s : State) : (memWrite r v s).errCode = s.errCode := by cases r <;> rfl
@[simp] theorem memWrite_pending (r : Reg) (v : Word) (s : State) : (memWrite r v s).pending = s.pending := by cases r <;> rfl
@[simp] theorem memWrite_responses (r : Reg) (v : Word) (s : State) : (memWrite r v s).responses = s.responses := by cases r <;> rfl
@[simp] theorem memWrite_nanEpoch (r : Reg) (v : Word) (s : State) : (memWrite r v s).nanEpoch = s.nanEpoch := by cases r <;> rfl

end Sys2Proof.Machine
end

