-- ==== Sys2Proof/Laws/Ops.lean ====
section
/-! SUPPORT. What the commands and the step can do, said once: a command that answers a next state either was refused,
which leaves `refusedState`, or was accepted, which is `Accepted`. Proofs cite these instead of unfolding a meaning. -/

namespace Sys2Proof.Machine

/-- `raise` is the refusal of R168: the state before it, the latch and one response. -/
theorem raise_eq (op : BitVec 4) (e : ErrCode) (s : State) : raise op e s = refusedState op e s := by
  obtain ⟨_, _, _, _, _, _, _, _, _, _, _, _, _, _, err, _, _, _, _⟩ := s
  cases err <;> rfl

theorem latchBlocks_of_clear (op : BitVec 4) {s : State} (h : s.err = false) : latchBlocks op s = false := by
  simp [latchBlocks, h]

theorem latchBlocks_eq_true {op : BitVec 4} {s : State} : latchBlocks op s = true ↔ s.err = true ∧ op ≠ 0 ∧ op ≠ 7 := by
  simp [latchBlocks, and_assoc]

/-- Every command but INIT and RDREG asks the latch first (R176 check 1). -/
theorem clear_of_not_blocks {op : BitVec 4} {s : State} (h : latchBlocks op s = false) (h0 : op ≠ 0) (h7 : op ≠ 7) :
    s.err = false := by
  simp [latchBlocks] at h
  cases he : s.err
  · rfl
  · exact absurd (h he h0) h7

theorem refuseWord_eq (op : BitVec 4) (e : ErrCode) (s : State) :
    refuseWord op e s = refusedState op (if latchBlocks op s then .latched else e) s := by
  unfold refuseWord
  split <;> simp [raise_eq]

/-- What an accepted command needs and what it leaves. -/
def Accepted (i : Instr) (s t : State) : Prop :=
  match i with
  | .init => t = respond 0 [] (clearState s)
  | .pitch f => s.err = false ∧ t = respond 1 [BitVec.ofNat 32 (pitchLag s.params.consts f)] s
  | .frame n g a v =>
    s.err = false ∧ a.length = s.params.P ∧ v.length = s.params.F ∧ s.phase = .idle ∧ n.toNat % 2 = 0 ∧
      t = openFrame n (alignFrame g a v s)
  | .predict =>
    s.err = false ∧ s.phase = .pairReady ∧
      t = respond 3 (bundle s) { s with pred1 := currentPrediction s, phase := .pairWait, nanEpoch := s.nanEpoch + 1 }
  | .commit e1 e0 =>
    s.err = false ∧ s.phase = .pairWait ∧
      t = respond 4
        [(commitFirst e1 s).1.signExtend 32, (commitSecond e0 (commitFirst e1 s).2).1.signExtend 32]
        (closePair (commitSecond e0 (commitFirst e1 s).2).2)
  | .enc x => s.err = false ∧ t = respond 5 [(encode8 s.params x).setWidth 32] s
  | .dec u => s.err = false ∧ t = respond 6 [decode8 s.params u] s
  | .rdreg addr => ∃ r, regAt s.params addr = some r ∧ t = respond 7 [memRead r s] s
  | .wrreg addr v =>
    s.err = false ∧ s.phase = .idle ∧
      ∃ r, regAt s.params addr = some r ∧ regWritable r = true ∧ t = respond 8 [] (memWrite r v s)

theorem odd_iff (n : BitVec 16) : n.getLsbD 0 = true ↔ n.toNat % 2 = 1 := by
  rw [BitVec.getLsbD, Nat.testBit_zero, decide_eq_true_iff]

/-- A command that answers a next state was refused or accepted; `E_LATCHED` only where an error stands. -/
theorem exec_cases {i : Instr} {s t : State} (h : exec i s = .next t) :
    (∃ e, (e ≠ .latched ∨ s.err = true) ∧ t = refusedState i.opcode e s) ∨ Accepted i s t := by
  have blocked : ∀ {op : BitVec 4}, latchBlocks op s = true →
      ∃ e, (e ≠ .latched ∨ s.err = true) ∧ refusedState op .latched s = refusedState op e s :=
    fun hb => ⟨_, .inr (latchBlocks_eq_true.mp hb).1, rfl⟩
  cases i with
  | init => cases h; exact .inr rfl
  | pitch f =>
    simp only [exec, execPitch, raise_eq] at h
    split at h <;> cases h
    · rename_i hb; exact .inl (blocked hb)
    · rename_i hb; exact .inr ⟨clear_of_not_blocks (by simpa using hb) (by decide) (by decide), rfl⟩
  | enc x =>
    simp only [exec, execEnc, raise_eq] at h
    split at h <;> cases h
    · rename_i hb; exact .inl (blocked hb)
    · rename_i hb; exact .inr ⟨clear_of_not_blocks (by simpa using hb) (by decide) (by decide), rfl⟩
  | dec u =>
    simp only [exec, execDec, raise_eq] at h
    split at h <;> cases h
    · rename_i hb; exact .inl (blocked hb)
    · rename_i hb; exact .inr ⟨clear_of_not_blocks (by simpa using hb) (by decide) (by decide), rfl⟩
  | frame n g a v =>
    simp only [exec, execFrame, raise_eq] at h
    split at h
    · cases h
    · rename_i hl
      split at h
      · rename_i hb; cases h; exact .inl (blocked hb)
      · rename_i hb
        split at h
        · cases h; exact .inl ⟨.phase, .inl (by simp), rfl⟩
        · rename_i hp
          split at h
          · cases h; exact .inl ⟨.odd, .inl (by simp), rfl⟩
          · rename_i ho
            cases h
            rw [odd_iff] at ho
            rw [not_or, not_not, not_not] at hl
            exact .inr ⟨clear_of_not_blocks (by simpa using hb) (by decide) (by decide), hl.1, hl.2, not_not.mp hp,
              by omega, rfl⟩
  | predict =>
    simp only [exec, execPredict, raise_eq] at h
    split at h
    · rename_i hb; cases h; exact .inl (blocked hb)
    · rename_i hb
      split at h
      · cases h; exact .inl ⟨.phase, .inl (by simp), rfl⟩
      · rename_i hp
        cases h
        exact .inr ⟨clear_of_not_blocks (by simpa using hb) (by decide) (by decide), not_not.mp hp, rfl⟩
  | commit e1 e0 =>
    simp only [exec, execCommit, raise_eq] at h
    split at h
    · rename_i hb; cases h; exact .inl (blocked hb)
    · rename_i hb
      split at h
      · cases h; exact .inl ⟨.phase, .inl (by simp), rfl⟩
      · rename_i hp
        cases h
        exact .inr ⟨clear_of_not_blocks (by simpa using hb) (by decide) (by decide), not_not.mp hp, rfl⟩
  | rdreg addr =>
    simp only [exec, execRdreg, raise_eq] at h
    split at h <;> cases h
    · exact .inl ⟨.addr, .inl (by simp), rfl⟩
    · rename_i r hr; exact .inr ⟨r, hr, rfl⟩
  | wrreg addr v =>
    simp only [exec, execWrreg, raise_eq] at h
    split at h
    · rename_i hb; cases h; exact .inl (blocked hb)
    · rename_i hb
      split at h
      · cases h; exact .inl ⟨.phase, .inl (by simp), rfl⟩
      · rename_i hp
        split at h
        · cases h; exact .inl ⟨.addr, .inl (by simp), rfl⟩
        · rename_i r hr
          split at h <;> cases h
          · rename_i hw
            exact .inr ⟨clear_of_not_blocks (by simpa using hb) (by decide) (by decide), not_not.mp hp, r, hr, hw, rfl⟩
          · exact .inl ⟨.ro, .inl (by simp), rfl⟩

/-- Where a command is accepted it answers the next state that `Accepted` names. -/
theorem exec_of_accepted {i : Instr} {s t : State} (h : Accepted i s t) : exec i s = .next t := by
  cases i with
  | init => exact congrArg _ (Eq.symm h)
  | pitch f => obtain ⟨he, rfl⟩ := h; simp only [exec, execPitch, latchBlocks_of_clear _ he]; rfl
  | enc x => obtain ⟨he, rfl⟩ := h; simp only [exec, execEnc, latchBlocks_of_clear _ he]; rfl
  | dec u => obtain ⟨he, rfl⟩ := h; simp only [exec, execDec, latchBlocks_of_clear _ he]; rfl
  | frame n g a v =>
    obtain ⟨he, ha, hv, hp, ho, rfl⟩ := h
    have ho : n.getLsbD 0 = false := by
      rw [← Bool.not_eq_true, odd_iff]; omega
    simp only [exec, execFrame, ha, hv, hp, ho, latchBlocks_of_clear _ he, ne_eq, not_true_eq_false, or_self, if_false,
      Bool.false_eq_true]
  | predict => obtain ⟨he, hp, rfl⟩ := h; simp only [exec, execPredict, hp, latchBlocks_of_clear _ he]; rfl
  | commit e1 e0 => obtain ⟨he, hp, rfl⟩ := h; simp only [exec, execCommit, hp, latchBlocks_of_clear _ he]; rfl
  | rdreg addr => obtain ⟨r, hr, rfl⟩ := h; simp only [exec, execRdreg, hr]
  | wrreg addr v =>
    obtain ⟨he, hp, r, hr, hw, rfl⟩ := h
    simp only [exec, execWrreg, hp, hr, hw, latchBlocks_of_clear _ he]
    rfl

/-- A well-formed command always answers a next state: nothing in the block stops (R168). -/
theorem exec_total {i : Instr} {s : State} (hi : i.WellFormed s.params = true) : ∃ t, exec i s = .next t := by
  cases i with
  | frame n g a v =>
    simp only [Instr.WellFormed, Bool.and_eq_true, beq_iff_eq] at hi
    simp only [exec, execFrame, hi.1, hi.2]
    split
    · rename_i h; simp at h
    · split
      · exact ⟨_, rfl⟩
      · split
        · exact ⟨_, rfl⟩
        · split <;> exact ⟨_, rfl⟩
  | init => exact ⟨_, rfl⟩
  | pitch f => simp only [exec, execPitch]; split <;> exact ⟨_, rfl⟩
  | enc x => simp only [exec, execEnc]; split <;> exact ⟨_, rfl⟩
  | dec u => simp only [exec, execDec]; split <;> exact ⟨_, rfl⟩
  | predict =>
    simp only [exec, execPredict]
    split
    · exact ⟨_, rfl⟩
    · split <;> exact ⟨_, rfl⟩
  | commit e1 e0 =>
    simp only [exec, execCommit]
    split
    · exact ⟨_, rfl⟩
    · split <;> exact ⟨_, rfl⟩
  | rdreg addr => simp only [exec, execRdreg]; split <;> exact ⟨_, rfl⟩
  | wrreg addr v =>
    simp only [exec, execWrreg]
    split
    · exact ⟨_, rfl⟩
    · split
      · exact ⟨_, rfl⟩
      · split
        · exact ⟨_, rfl⟩
        · split <;> exact ⟨_, rfl⟩

/-! ### The step -/

/-- A word that spells no command is refused (R70, R71, R176). -/
theorem step_refuse {s : State} {w : Word} {pl : List Word} {rest : List PortEvent} {e : ErrCode}
    (h : s.pending = .command w pl :: rest) (hd : decode s.params w pl = .refuse e) :
    step s = .next (refusedState (opField w) (if latchBlocks (opField w) s then .latched else e)
      { s with pending := rest }) := by
  rw [step, h]
  simp only [handleEvent, runTransaction, hd, refuseWord_eq]
  rfl

/-- What a step can do: nothing on an empty port, a reset, a command that is executed, a word that is refused. -/
theorem step_cases {s t : State} (h : step s = .next t) :
    (s.pending = [] ∧ t = s) ∨
    (∃ rest, s.pending = .reset :: rest ∧ t = clearState { s with pending := rest }) ∨
    (∃ w pl rest i, s.pending = .command w pl :: rest ∧ decode s.params w pl = .instr i ∧
      exec i { s with pending := rest } = .next t) ∨
    (∃ w pl rest e, s.pending = .command w pl :: rest ∧ decode s.params w pl = .refuse e ∧ e ≠ .latched ∧
      t = refusedState (opField w) (if latchBlocks (opField w) s then .latched else e) { s with pending := rest }) := by
  cases hp : s.pending with
  | nil =>
    simp only [step, hp, Host.Outcome.next.injEq] at h
    exact .inl ⟨rfl, h.symm⟩
  | cons ev rest =>
    cases ev with
    | reset =>
      simp only [step, hp, handleEvent, Host.Outcome.next.injEq] at h
      exact .inr (.inl ⟨rest, rfl, h.symm⟩)
    | command w pl =>
      refine .inr (.inr ?_)
      cases hd : decode s.params w pl with
      | instr i =>
        simp only [step, hp, handleEvent, runTransaction, hd] at h
        exact .inl ⟨w, pl, rest, i, rfl, hd, h⟩
      | refuse e =>
        rw [step_refuse hp hd, Host.Outcome.next.injEq] at h
        exact .inr ⟨w, pl, rest, e, rfl, hd, decode_refuse_ne hd, h.symm⟩
      | unframed => simp [step, hp, handleEvent, runTransaction, hd] at h

end Sys2Proof.Machine
end

