-- ==== Sys2Proof/Laws/Flags.lean ====
section
/-! SUPPORT. The fields of the response header (R74), of `STATUS` (R43) and of the bundle words (R75), and the one
response an accepted command leaves. -/

namespace Sys2Proof.Machine

theorem toNat_headerWord (op : BitVec 4) (err : Bool) (ecode : BitVec 4) (n : Nat) (s : State) :
    (headerWord op err ecode n s).toNat =
      op.toNat * 2 ^ 28 + err.toNat * 2 ^ 27 + ecode.toNat * 2 ^ 23 + (active s).toNat * 2 ^ 18 +
        (phaseCode s.phase).toNat * 2 ^ 16 + n % 2 ^ 16 := by
  have h0 : (0#4).toNat = 0 := rfl
  unfold headerWord
  rw [toNat_append_eq, toNat_append_eq, toNat_append_eq, toNat_append_eq, toNat_append_eq, toNat_append_eq, h0,
    BitVec.toNat_ofNat, BitVec.toNat_ofBool, BitVec.toNat_ofBool]
  omega

theorem toNat_statusWord (s : State) :
    (statusWord s).toNat =
      s.pairsLeft.toNat * 2 ^ 16 + s.errCode.toNat * 2 ^ 4 + s.err.toNat * 2 ^ 3 + (active s).toNat * 2 ^ 2 +
        (phaseCode s.phase).toNat := by
  have h0 : (0#8).toNat = 0 := rfl
  unfold statusWord
  rw [toNat_append_eq, toNat_append_eq, toNat_append_eq, toNat_append_eq, toNat_append_eq, h0,
    BitVec.toNat_ofBool, BitVec.toNat_ofBool]
  omega

theorem toNat_bundleWord (exc pred sig : Code) :
    (bundleWord exc pred sig).toNat = exc.toNat * 2 ^ 16 + pred.toNat * 2 ^ 8 + sig.toNat := by
  have h0 : (0#8).toNat = 0 := rfl
  unfold bundleWord
  rw [toNat_append_eq, toNat_append_eq, toNat_append_eq, h0]
  omega

/-- A bit as arithmetic. -/
theorem getLsbD_eq {n : Nat} (w : BitVec n) (k : Nat) : w.getLsbD k = decide (w.toNat / 2 ^ k % 2 = 1) := by
  rw [BitVec.getLsbD, Nat.testBit_eq_decide_div_mod_eq]

theorem toNat_lt_four (ph : Phase) : (phaseCode ph).toNat < 4 := (phaseCode ph).isLt

/-- The fields of the response header, each where R74 puts it. -/
theorem headerWord_fields (op : BitVec 4) (err : Bool) (ecode : BitVec 4) (n : Nat) (s : State) (hn : n < 2 ^ 16) :
    (headerWord op err ecode n s).extractLsb' 28 4 = op ∧
    (headerWord op err ecode n s).getLsbD 27 = err ∧
    (headerWord op err ecode n s).extractLsb' 23 4 = ecode ∧
    (headerWord op err ecode n s).extractLsb' 19 4 = 0 ∧
    (headerWord op err ecode n s).getLsbD 18 = active s ∧
    (headerWord op err ecode n s).extractLsb' 16 2 = phaseCode s.phase ∧
    ((headerWord op err ecode n s).extractLsb' 0 16).toNat = n := by
  have h := toNat_headerWord op err ecode n s
  have h1 := op.isLt
  have h2 := ecode.isLt
  have h3 := toNat_lt_four s.phase
  have h4 : err.toNat ≤ 1 := Bool.toNat_le err
  have h5 : (active s).toNat ≤ 1 := Bool.toNat_le _
  refine ⟨?_, ?_, ?_, ?_, ?_, ?_, ?_⟩
  · apply BitVec.eq_of_toNat_eq; rw [toNat_extract, h]; omega
  · rw [getLsbD_eq, h]
    cases err <;> simp at h4 ⊢ <;> omega
  · apply BitVec.eq_of_toNat_eq; rw [toNat_extract, h]; omega
  · apply BitVec.eq_of_toNat_eq; rw [toNat_extract, h]; simp; omega
  · rw [getLsbD_eq, h]
    cases active s <;> simp at h5 ⊢ <;> omega
  · apply BitVec.eq_of_toNat_eq; rw [toNat_extract, h]; omega
  · rw [toNat_extract, h]; omega

/-- The fields of `STATUS`, each where R43 puts it. -/
theorem statusWord_fields (s : State) :
    (statusWord s).extractLsb' 0 2 = phaseCode s.phase ∧ (statusWord s).getLsbD 2 = active s ∧
    (statusWord s).getLsbD 3 = s.err ∧ (statusWord s).extractLsb' 4 4 = s.errCode ∧
    (statusWord s).extractLsb' 8 8 = 0 ∧ (statusWord s).extractLsb' 16 16 = s.pairsLeft := by
  have h := toNat_statusWord s
  have h1 := s.pairsLeft.isLt
  have h2 := s.errCode.isLt
  have h3 := toNat_lt_four s.phase
  have h4 : s.err.toNat ≤ 1 := Bool.toNat_le _
  have h5 : (active s).toNat ≤ 1 := Bool.toNat_le _
  refine ⟨?_, ?_, ?_, ?_, ?_, ?_⟩
  · apply BitVec.eq_of_toNat_eq; rw [toNat_extract, h]; omega
  · rw [getLsbD_eq, h]
    cases active s <;> simp at h5 ⊢ <;> omega
  · rw [getLsbD_eq, h]
    cases s.err <;> simp at h4 ⊢ <;> omega
  · apply BitVec.eq_of_toNat_eq; rw [toNat_extract, h]; omega
  · apply BitVec.eq_of_toNat_eq; rw [toNat_extract, h]; simp; omega
  · apply BitVec.eq_of_toNat_eq; rw [toNat_extract, h]; omega

theorem bundleWord_fields (exc pred sig : Code) :
    (bundleWord exc pred sig).extractLsb' 0 8 = sig ∧ (bundleWord exc pred sig).extractLsb' 8 8 = pred ∧
    (bundleWord exc pred sig).extractLsb' 16 8 = exc ∧ (bundleWord exc pred sig).extractLsb' 24 8 = 0 := by
  have h := toNat_bundleWord exc pred sig
  have h1 := exc.isLt
  have h2 := pred.isLt
  have h3 := sig.isLt
  refine ⟨?_, ?_, ?_, ?_⟩ <;> apply BitVec.eq_of_toNat_eq <;> rw [toNat_extract, h]
  · omega
  · omega
  · omega
  · simp; omega

/-- The response of an accepted command (R73 to R75): its header shows the state after the command. -/
theorem accepted_response {i : Instr} {s t : State} (h : Accepted i s t) :
    ∃ data : List Word, data.length < 2 ^ 16 ∧
      t.responses = s.responses ++ [{ header := headerWord i.opcode false 0 data.length t, data := data }] := by
  cases i with
  | init => subst h; exact ⟨[], by simp, rfl⟩
  | pitch f => obtain ⟨-, rfl⟩ := h; exact ⟨[_], by simp, rfl⟩
  | enc x => obtain ⟨-, rfl⟩ := h; exact ⟨[_], by simp, rfl⟩
  | dec u => obtain ⟨-, rfl⟩ := h; exact ⟨[_], by simp, rfl⟩
  | frame n g a v =>
    obtain ⟨-, -, -, -, ho, rfl⟩ := h
    have := n.isLt
    unfold openFrame
    split
    · exact ⟨[_], by simp, rfl⟩
    · exact ⟨_ :: List.replicate n.toNat 0, by rw [List.length_cons, List.length_replicate]; omega, rfl⟩
  | predict => obtain ⟨-, -, rfl⟩ := h; exact ⟨bundle s, by simp [bundle], rfl⟩
  | commit e1 e0 => obtain ⟨-, -, rfl⟩ := h; exact ⟨[_, _], by simp, rfl⟩
  | rdreg addr => obtain ⟨r, -, rfl⟩ := h; exact ⟨[_], by simp, rfl⟩
  | wrreg addr v =>
    obtain ⟨-, -, r, -, -, rfl⟩ := h
    exact ⟨[], by simp, by rw [respond_responses, memWrite_responses]; rfl⟩

/-- An accepted command leaves the latch as it was, but for INIT, which clears it (R35, R178). -/
theorem accepted_err {i : Instr} {s t : State} (h : Accepted i s t) :
    (i = .init ∧ t.err = false ∧ t.errCode = 0) ∨ (i ≠ .init ∧ t.err = s.err ∧ t.errCode = s.errCode) := by
  cases i with
  | init => subst h; exact .inl ⟨rfl, rfl, rfl⟩
  | pitch f => obtain ⟨-, rfl⟩ := h; exact .inr ⟨by simp, rfl, rfl⟩
  | enc x => obtain ⟨-, rfl⟩ := h; exact .inr ⟨by simp, rfl, rfl⟩
  | dec u => obtain ⟨-, rfl⟩ := h; exact .inr ⟨by simp, rfl, rfl⟩
  | frame n g a v =>
    obtain ⟨-, -, -, -, -, rfl⟩ := h
    unfold openFrame
    split <;> exact .inr ⟨by simp, rfl, rfl⟩
  | predict => obtain ⟨-, -, rfl⟩ := h; exact .inr ⟨by simp, rfl, rfl⟩
  | commit e1 e0 => obtain ⟨-, -, rfl⟩ := h; exact .inr ⟨by simp, rfl, rfl⟩
  | rdreg addr => obtain ⟨r, -, rfl⟩ := h; exact .inr ⟨by simp, rfl, rfl⟩
  | wrreg addr v => obtain ⟨-, -, r, -, -, rfl⟩ := h; exact .inr ⟨by simp, by simp, by simp⟩

/-- No command changes the parameters or the port it came from. -/
theorem accepted_params {i : Instr} {s t : State} (h : Accepted i s t) : t.params = s.params ∧ t.pending = s.pending := by
  cases i with
  | init => subst h; exact ⟨rfl, rfl⟩
  | pitch f => obtain ⟨-, rfl⟩ := h; exact ⟨rfl, rfl⟩
  | enc x => obtain ⟨-, rfl⟩ := h; exact ⟨rfl, rfl⟩
  | dec u => obtain ⟨-, rfl⟩ := h; exact ⟨rfl, rfl⟩
  | frame n g a v =>
    obtain ⟨-, -, -, -, -, rfl⟩ := h
    unfold openFrame
    split <;> exact ⟨rfl, rfl⟩
  | predict => obtain ⟨-, -, rfl⟩ := h; exact ⟨rfl, rfl⟩
  | commit e1 e0 => obtain ⟨-, -, rfl⟩ := h; exact ⟨rfl, rfl⟩
  | rdreg addr => obtain ⟨r, -, rfl⟩ := h; exact ⟨rfl, rfl⟩
  | wrreg addr v => obtain ⟨-, -, r, -, -, rfl⟩ := h; exact ⟨by simp, by simp⟩

end Sys2Proof.Machine
end

