-- ==== Sys2Proof/Laws/Operands.lean ====
section
/-! SUPPORT. The register map is one to one (R40, R47), and what a read and a write of a register give. -/

namespace Sys2Proof.Machine

theorem scalarAt_eq_none {a : Nat} (h : 14 ≤ a) : scalarAt a = none := by
  unfold scalarAt
  split <;> first | rfl | omega

theorem scalarAt_spec {p : Params} {a : Nat} {r : Reg} (h : scalarAt a = some r) :
    regExists p r = true ∧ regAddr p r = a := by
  unfold scalarAt at h
  split at h <;> cases h <;> exact ⟨rfl, rfl⟩

/-- Slot-major order (R47): the index pair of a two-dimensional window, and back. -/
theorem slot_index {n m j i : Nat} (hj : j < n) (hi : i < m) :
    j * m + i < n * m ∧ (j * m + i) / m = j ∧ (j * m + i) % m = i := by
  have h0 : 0 < m := by omega
  refine ⟨?_, ?_, ?_⟩
  · calc j * m + i < j * m + m := by omega
      _ = (j + 1) * m := by ring
      _ ≤ n * m := Nat.mul_le_mul_right m hj
  · rw [Nat.mul_comm, Nat.mul_add_div h0, Nat.div_eq_of_lt hi, Nat.add_zero]
  · rw [Nat.mul_comm, Nat.mul_add_mod, Nat.mod_eq_of_lt hi]

theorem index_slot {n m k : Nat} (h : k < n * m) : k / m < n ∧ k % m < m ∧ k / m * m + k % m = k := by
  have h0 : 0 < m := by
    rcases Nat.eq_zero_or_pos m with rfl | h'
    · simp at h
    · exact h'
  exact ⟨Nat.div_lt_of_lt_mul (by rw [Nat.mul_comm]; exact h), Nat.mod_lt _ h0, Nat.div_add_mod' k m⟩

theorem windowAt_spec {p : Params} {a : Nat} {r : Reg} (h : windowAt p a = some r) :
    regExists p r = true ∧ regAddr p r = a := by
  unfold windowAt at h
  split at h
  · cases h; simp only [regExists, regAddr, decide_eq_true_eq]; omega
  · split at h
    · cases h; simp only [regExists, regAddr, decide_eq_true_eq]; omega
    · split at h
      · cases h; simp only [regExists, regAddr, decide_eq_true_eq]; omega
      · split at h
        · rename_i hc
          cases h
          obtain ⟨h1, h2, h3⟩ := index_slot (n := p.D) (m := p.P) (k := a - 0x1000) (by omega)
          simp only [regExists, regAddr, decide_eq_true_eq, Bool.and_eq_true]
          omega
        · split at h
          · rename_i hc
            cases h
            obtain ⟨h1, h2, h3⟩ := index_slot (n := p.D) (m := p.F) (k := a - 0x2000) (by omega)
            simp only [regExists, regAddr, decide_eq_true_eq, Bool.and_eq_true]
            omega
          · cases h

/-- A register found at an address exists and stands there. -/
theorem regAt_spec {p : Params} {addr : Addr} {r : Reg} (h : regAt p addr = some r) :
    regExists p r = true ∧ regAddr p r = addr.toNat := by
  unfold regAt at h
  split at h
  · cases h; rename_i h; exact scalarAt_spec h
  · exact windowAt_spec h

/-- An existing register's address is a 16-bit address (R9, R40). -/
theorem regAddr_lt {p : Params} (hp : p.SizesOk) {r : Reg} (h : regExists p r = true) : regAddr p r < 65536 := by
  obtain ⟨h1, h2, h3, h4, h5, h6, h7, -⟩ := hp
  cases r <;> simp only [regExists, regAddr, decide_eq_true_eq, Bool.and_eq_true] at * <;> try omega
  · have := (slot_index h.1 h.2).1; omega
  · have := (slot_index h.1 h.2).1; omega

/-- An existing register is found at its address. -/
theorem regAt_regAddr {p : Params} (hp : p.SizesOk) {r : Reg} (h : regExists p r = true) :
    regAt p (BitVec.ofNat 16 (regAddr p r)) = some r := by
  have hlt := regAddr_lt hp h
  have hn : (BitVec.ofNat 16 (regAddr p r)).toNat = regAddr p r := by
    rw [BitVec.toNat_ofNat]; exact Nat.mod_eq_of_lt hlt
  obtain ⟨h1, h2, h3, h4, h5, h6, h7, -⟩ := hp
  have scalar : ∀ q, scalarAt (regAddr p r) = some q → regAt p (BitVec.ofNat 16 (regAddr p r)) = some q := fun q hq => by
    rw [regAt, hn, hq]
  have window : ∀ a, regAddr p r = a → 14 ≤ a → windowAt p a = some r →
      regAt p (BitVec.ofNat 16 (regAddr p r)) = some r := fun a ha h14 hw => by
    rw [regAt, hn, ha, scalarAt_eq_none h14]; exact hw
  cases r with
  | lastSig j =>
    simp only [regExists, decide_eq_true_eq] at h
    refine window (0x100 + j) rfl (by omega) ?_
    unfold windowAt
    rw [if_pos (by omega), show 0x100 + j - 0x100 = j by omega]
  | lpcCur j =>
    simp only [regExists, decide_eq_true_eq] at h
    refine window (0x200 + j) rfl (by omega) ?_
    unfold windowAt
    rw [if_neg (by omega), if_pos (by omega), show 0x200 + j - 0x200 = j by omega]
  | gainHist j =>
    simp only [regExists, decide_eq_true_eq] at h
    refine window (0x300 + j) rfl (by omega) ?_
    unfold windowAt
    rw [if_neg (by omega), if_neg (by omega), if_pos (by omega), show 0x300 + j - 0x300 = j by omega]
  | lpcHist j i =>
    simp only [regExists, decide_eq_true_eq, Bool.and_eq_true] at h
    obtain ⟨g1, g2, g3⟩ := slot_index h.1 h.2
    refine window (0x1000 + j * p.P + i) rfl (by omega) ?_
    unfold windowAt
    rw [if_neg (by omega), if_neg (by omega), if_neg (by omega), if_pos (by omega),
      show 0x1000 + j * p.P + i - 0x1000 = j * p.P + i by omega, g2, g3]
  | featHist j i =>
    simp only [regExists, decide_eq_true_eq, Bool.and_eq_true] at h
    obtain ⟨g1, g2, g3⟩ := slot_index h.1 h.2
    refine window (0x2000 + j * p.F + i) rfl (by omega) ?_
    unfold windowAt
    rw [if_neg (by omega), if_neg (by omega), if_neg (by omega), if_neg (by omega), if_pos (by omega),
      show 0x2000 + j * p.F + i - 0x2000 = j * p.F + i by omega, g2, g3]
  | id => exact scalar _ rfl
  | paramP => exact scalar _ rfl
  | paramD => exact scalar _ rfl
  | paramF => exact scalar _ rfl
  | paramCap => exact scalar _ rfl
  | stateSize => exact scalar _ rfl
  | status => exact scalar _ rfl
  | frameCount => exact scalar _ rfl
  | deemphMem => exact scalar _ rfl
  | lastExc => exact scalar _ rfl
  | gainCur => exact scalar _ rfl
  | pred1 => exact scalar _ rfl

/-- At an address where no register stands there is none to find (R48). -/
theorem regAt_unmapped {p : Params} {addr : Addr} (h : Unmapped p addr) : regAt p addr = none := by
  cases hr : regAt p addr with
  | none => rfl
  | some r =>
    obtain ⟨h1, h2⟩ := regAt_spec hr
    exact absurd h2 (h r h1)

theorem getD_of_lt {α : Type} (l : List α) (d : α) {i : Nat} (h : i < l.length) : l[i]? = some (l.getD i d) := by
  rw [List.getD_eq_getElem?_getD, List.getElem?_eq_getElem h]; rfl

/-- What `memRead` gives is the content of the register (R41 to R47), where the arrays have their sizes. -/
theorem readsAs_memRead {r : Reg} {s : State} (hs : s.Inv) (hr : regExists s.params r = true) :
    ReadsAs s r (memRead r s) := by
  obtain ⟨⟨⟨h1, h2, h3, h4, h5, h6, h7, h8, h9⟩, -⟩, ⟨g1, g2, g3, g4, g5, g6, g7⟩, hc, -, -⟩ := hs
  have h20 : ∀ n, n < 2 ^ 32 → (BitVec.ofNat 32 n).toNat = n := fun n hn => by
    rw [BitVec.toNat_ofNat]; exact Nat.mod_eq_of_lt hn
  cases r <;> simp only [ReadsAs, memRead, regExists, decide_eq_true_eq, Bool.and_eq_true] at *
  · exact h20 _ (by omega)
  · exact h20 _ (by omega)
  · have := Nat.le_mul_of_pos_left s.params.F h3
    exact h20 _ (by omega)
  · exact h20 _ (by omega)
  · have e : s.params.stateSize =
        s.params.D * s.params.F + s.params.D * s.params.P + s.params.D + s.params.P + 3 := by
      unfold Params.stateSize; ring
    rw [e]
    exact h20 _ (by omega)
  · exact statusWord_fields s
  · have := s.frameCount.isLt
    rw [BitVec.toNat_setWidth]; omega
  · have e1 := s.lastExc0.isLt
    have e2 := s.lastExc1.isLt
    have h0 : (0#16).toNat = 0 := rfl
    refine ⟨?_, ?_, ?_⟩ <;> apply BitVec.eq_of_toNat_eq <;>
      rw [toNat_extract, toNat_append_eq, toNat_append_eq, h0]
    · omega
    · omega
    · simp; omega
  · exact getD_of_lt _ _ (by omega)
  · exact getD_of_lt _ _ (by omega)
  · exact getD_of_lt _ _ (by omega)
  · rename_i j i
    have hj := getD_of_lt s.lpcHist [] (i := j) (by omega)
    refine ⟨_, hj, getD_of_lt _ _ ?_⟩
    rw [g3 _ (List.mem_of_getElem? hj)]; exact hr.2
  · rename_i j i
    have hj := getD_of_lt s.featHist [] (i := j) (by omega)
    refine ⟨_, hj, getD_of_lt _ _ ?_⟩
    rw [g5 _ (List.mem_of_getElem? hj)]; exact hr.2

/-- A word is the sum of the fields that R43 divides it into. -/
theorem status_parts (w : Word) :
    w.toNat = (w.extractLsb' 0 2).toNat + (w.getLsbD 2).toNat * 2 ^ 2 + (w.getLsbD 3).toNat * 2 ^ 3 +
      (w.extractLsb' 4 4).toNat * 2 ^ 4 + (w.extractLsb' 8 8).toNat * 2 ^ 8 + (w.extractLsb' 16 16).toNat * 2 ^ 16 := by
  have bit : ∀ k, (w.getLsbD k).toNat = w.toNat / 2 ^ k % 2 := fun k => by
    rw [getLsbD_eq]
    rcases Nat.mod_two_eq_zero_or_one (w.toNat / 2 ^ k) with h | h <;> simp [h]
  have := w.isLt
  rw [bit, bit, toNat_extract, toNat_extract, toNat_extract, toNat_extract]
  omega

/-- The content of a register is one word. -/
theorem ReadsAs_unique {r : Reg} {s : State} {w : Word} (hs : s.Inv) (hr : regExists s.params r = true)
    (h : ReadsAs s r w) : w = memRead r s := by
  have h' := readsAs_memRead hs hr
  generalize memRead r s = w' at h'
  have nat : ∀ a b : Word, a.toNat = b.toNat → a = b := fun a b => BitVec.eq_of_toNat_eq
  cases r
  case id => exact Eq.trans (b := 0x424C5053#32) h h'.symm
  case deemphMem => exact Eq.trans (b := s.deemphMem) h h'.symm
  case gainCur => exact Eq.trans (b := s.gainCur) h h'.symm
  case pred1 => exact Eq.trans (b := s.pred1) h h'.symm
  case paramP | paramD | paramF | paramCap | stateSize | frameCount =>
    simp only [ReadsAs] at h h'
    exact nat _ _ (h.trans h'.symm)
  case lastSig | lpcCur | gainHist =>
    simp only [ReadsAs] at h h'
    rw [h] at h'
    exact Option.some.inj h'
  case lpcHist | featHist =>
    obtain ⟨x, a, b⟩ := h
    obtain ⟨y, c, d⟩ := h'
    rw [a] at c
    cases c
    rw [b] at d
    exact Option.some.inj d
  case status =>
    obtain ⟨a1, a2, a3, a4, a5, a6⟩ := h
    obtain ⟨b1, b2, b3, b4, b5, b6⟩ := h'
    apply nat
    rw [status_parts w, status_parts w', a1, a2, a3, a4, a5, a6, b1, b2, b3, b4, b5, b6]
  case lastExc =>
    obtain ⟨a1, a2, a3⟩ := h
    obtain ⟨b1, b2, b3⟩ := h'
    have c1 := congrArg BitVec.toNat (a1.trans b1.symm)
    have c2 := congrArg BitVec.toNat (a2.trans b2.symm)
    have c3 := congrArg BitVec.toNat (a3.trans b3.symm)
    rw [toNat_extract, toNat_extract] at c1 c2 c3
    have := w.isLt
    have := w'.isLt
    apply nat
    omega

end Sys2Proof.Machine
end

