-- ==== Sys2Proof/Laws/Shape.lean ====
section
/-! SUPPORT. The delay-line primitive (R108), the register writes (R158) and the array sizes: every operation over the
register files keeps them (R28, R47). -/

namespace Sys2Proof.Machine

theorem push_length {α : Type} (l : List α) (v : α) (h : l ≠ []) : (push l v).length = l.length := by
  have := List.length_pos_iff.mpr h
  rw [push, List.length_cons, List.length_dropLast]
  omega

/-- A push keeps the newest entries: slot 0 takes the new one, the oldest drops out (R108). -/
theorem push_eq_take {α : Type} (l : List α) (v : α) (h : l ≠ []) : push l v = (v :: l).take l.length := by
  have := List.length_pos_iff.mpr h
  obtain ⟨n, hn⟩ : ∃ n, l.length = n + 1 := ⟨l.length - 1, by omega⟩
  rw [push, hn, List.take_succ_cons, List.dropLast_eq_take, hn, Nat.add_sub_cancel]

theorem mem_push {α : Type} {l : List α} {v x : α} (h : x ∈ push l v) : x = v ∨ x ∈ l := by
  rw [push, List.mem_cons] at h
  exact h.imp_right List.mem_of_mem_dropLast

theorem setElem_length (line : List (List F32)) (j i : Nat) (v : F32) : (setElem line j i v).length = line.length := by
  rw [setElem, List.length_set]

/-- Replacing one element keeps the length of every slot. -/
theorem setElem_slots {line : List (List F32)} {n : Nat} (h : ∀ x ∈ line, x.length = n) (j i : Nat) (v : F32) :
    ∀ x ∈ setElem line j i v, x.length = n := by
  intro x hx
  by_cases hj : j < line.length
  · obtain hx | rfl := List.mem_or_eq_of_mem_set hx
    · exact h x hx
    · rw [List.length_set, List.getD_eq_getElem?_getD, List.getElem?_eq_getElem hj]
      exact h _ (List.getElem_mem hj)
  · rw [setElem, List.set_eq_of_length_le (by omega)] at hx
    exact h x hx

/-- A register write keeps the array sizes (R53). -/
theorem memWrite_shaped (r : Reg) (v : Word) {s : State} (h : s.Shaped) : (memWrite r v s).Shaped := by
  obtain ⟨h1, h2, h3, h4, h5, h6, h7⟩ := h
  cases r
  case gainHist j => exact ⟨by simpa [memWrite] using h1, h2, h3, h4, h5, h6, h7⟩
  case lastSig j => exact ⟨h1, h2, h3, h4, h5, by simpa [memWrite] using h6, h7⟩
  case lpcHist j i => exact ⟨h1, (setElem_length _ _ _ _).trans h2, setElem_slots h3 _ _ _, h4, h5, h6, h7⟩
  case featHist j i => exact ⟨h1, h2, h3, (setElem_length _ _ _ _).trans h4, setElem_slots h5 _ _ _, h6, h7⟩
  all_goals exact ⟨h1, h2, h3, h4, h5, h6, h7⟩

theorem replicate_shaped (p : Params) : (State.resetOf p).Shaped := by
  refine ⟨List.length_replicate, List.length_replicate, ?_, List.length_replicate, ?_, List.length_replicate,
    List.length_replicate⟩ <;>
  · intro x hx
    rw [List.eq_of_mem_replicate hx]
    exact List.length_replicate

theorem ne_nil_of_length {α : Type} {l : List α} {n : Nat} (h : l.length = n) (hn : 1 ≤ n) : l ≠ [] := by
  rintro rfl
  simp at h
  omega

/-- A pushed line's oldest slot can be read (R111, R114). -/
theorem oldest_getD {α : Type} (l : List α) (v d : α) {n : Nat} (h : l.length = n) (hn : 1 ≤ n) :
    (push l v)[n - 1]? = some ((push l v).getD (n - 1) d) := by
  have := push_length l v (ne_nil_of_length h hn)
  exact getD_of_lt _ _ (by omega)

/-- The alignment of FRAME keeps the array sizes. -/
theorem alignFrame_shaped (g : F32) {a v : List F32} {s : State} (hd : 1 ≤ s.params.D) (ha : a.length = s.params.P)
    (hv : v.length = s.params.F) (h : s.Shaped) : (alignFrame g a v s).Shaped := by
  obtain ⟨h1, h2, h3, h4, h5, h6, h7⟩ := h
  have slot : ∀ x ∈ push s.lpcHist a, x.length = s.params.P := fun x hx => by
    obtain rfl | hx := mem_push hx
    · exact ha
    · exact h3 x hx
  refine ⟨?_, ?_, slot, ?_, ?_, h6, ?_⟩
  · exact (push_length _ _ (ne_nil_of_length h1 hd)).trans h1
  · exact (push_length _ _ (ne_nil_of_length h2 hd)).trans h2
  · exact (push_length _ _ (ne_nil_of_length h4 hd)).trans h4
  · intro x hx
    obtain rfl | hx := mem_push hx
    · exact hv
    · exact h5 x hx
  · exact slot _ (List.mem_of_getElem? (oldest_getD s.lpcHist a [] h2 hd))

/-- The counter after a frame (R113). -/
theorem toNat_min_cap {n cap : Nat} (h : cap ≤ 65535) : (BitVec.ofNat 16 (min n cap)).toNat = min n cap := by
  rw [BitVec.toNat_ofNat]
  exact Nat.mod_eq_of_lt (by omega)

theorem getElem?_set_self_of_lt {α : Type} (l : List α) (j : Nat) (x : α) (h : j < l.length) : (l.set j x)[j]? = some x := by
  simp [h]

/-- Every other register keeps its value (R158); `STATUS` shows the counter. -/
theorem readsAs_memWrite_other {r r' : Reg} {v w : Word} {s : State} (hs : s.Shaped) (h : r' ≠ r) (hst : r' ≠ .status) (hw : regWritable r = true) (hr' : regExists s.params r' = true)
    (hh : ReadsAs s r' w) : ReadsAs (memWrite r v s) r' w := by
  obtain ⟨g1, g2, g3, g4, g5, g6, g7⟩ := hs
  cases r <;> try (cases hw; done)
  all_goals cases r' <;> simp only [ReadsAs, memWrite] at hh ⊢ <;> (try exact hh) <;> try (exact absurd rfl h)
  all_goals try (exact absurd rfl hst)
  · rename_i j j'
    rw [List.getElem?_set_ne (fun e => h (by rw [e]))]; exact hh
  · rename_i j j'
    rw [List.getElem?_set_ne (fun e => h (by rw [e]))]; exact hh
  · rename_i j i j' i'
    obtain ⟨set, h1, h2⟩ := hh
    by_cases hj : j = j'
    · subst hj
      have hl : j < s.lpcHist.length := (List.getElem?_eq_some_iff.mp h1).1
      refine ⟨_, getElem?_set_self_of_lt _ _ _ hl, ?_⟩
      rw [List.getElem?_set_ne (fun e => h (by rw [e])), List.getD_eq_getElem?_getD, h1]
      exact h2
    · exact ⟨set, by rw [setElem, List.getElem?_set_ne hj]; exact h1, h2⟩
  · rename_i j i j' i'
    obtain ⟨set, h1, h2⟩ := hh
    by_cases hj : j = j'
    · subst hj
      have hl : j < s.featHist.length := (List.getElem?_eq_some_iff.mp h1).1
      refine ⟨_, getElem?_set_self_of_lt _ _ _ hl, ?_⟩
      rw [List.getElem?_set_ne (fun e => h (by rw [e])), List.getD_eq_getElem?_getD, h1]
      exact h2
    · exact ⟨set, by rw [setElem, List.getElem?_set_ne hj]; exact h1, h2⟩

/-- An F32 register takes any pattern (R45, R158). -/
theorem readsAs_memWrite_self {r : Reg} {v : Word} {s : State} (hs : s.Shaped) (hr : regExists s.params r = true) (hw : regWritable r = true) (h1 : r ≠ .frameCount) (h2 : r ≠ .lastExc) : ReadsAs (memWrite r v s) r v := by
  obtain ⟨g1, g2, g3, g4, g5, g6, g7⟩ := hs
  cases r <;> simp only [regExists, decide_eq_true_eq, Bool.and_eq_true] at hr <;> try (cases hw; done)
  · exact absurd rfl h1
  · rfl
  · exact absurd rfl h2
  · exact getElem?_set_self_of_lt _ _ _ (by omega)
  · exact getElem?_set_self_of_lt _ _ _ (by omega)
  · refine ⟨_, getElem?_set_self_of_lt _ _ _ (by omega), getElem?_set_self_of_lt _ _ _ ?_⟩
    rw [g3 _ (List.mem_of_getElem? (getD_of_lt s.lpcHist [] (by omega)))]; exact hr.2
  · refine ⟨_, getElem?_set_self_of_lt _ _ _ (by omega), getElem?_set_self_of_lt _ _ _ ?_⟩
    rw [g5 _ (List.mem_of_getElem? (getD_of_lt s.featHist [] (by omega)))]; exact hr.2

/-- An answer changes no register. -/
theorem readsAs_respond {op : BitVec 4} {data : List Word} {s : State} {r : Reg} {w : Word} (h : ReadsAs s r w) : ReadsAs (respond op data s) r w := by
  cases r <;> exact h

end Sys2Proof.Machine
end

