-- ==== Sys2Proof/Laws/Synthesis.lean ====
section
/-! SUPPORT. What an accepted FRAME and an accepted COMMIT leave, field by field, as one record update each. -/

namespace Sys2Proof.Machine

/-- The counter after a frame, as a value of its own (R113). -/
theorem frameCount_alignFrame (g : F32) (a v : List F32) {s : State} (h : s.params.CAP ≤ 65535) :
    (alignFrame g a v s).frameCount.toNat = min (s.frameCount.toNat + 1) s.params.CAP := toNat_min_cap h

theorem active_alignFrame (g : F32) (a v : List F32) (s : State) :
    active (alignFrame g a v s) = decide (s.params.D < (alignFrame g a v s).frameCount.toNat) := rfl

/-- An accepted FRAME in an active frame (R111 to R116). -/
theorem openFrame_active {n : BitVec 16} {g : F32} {a v : List F32} {s : State}
    (h : active (alignFrame g a v s) = true) :
    openFrame n (alignFrame g a v s) =
      respond 2 [(push s.gainHist g).getD (s.params.D - 1) 0]
        { s with
          gainHist := push s.gainHist g, gainCur := (push s.gainHist g).getD (s.params.D - 1) 0
          featHist := push s.featHist v, frameCount := (alignFrame g a v s).frameCount
          lpcHist := push s.lpcHist a, lpcCur := (push s.lpcHist a).getD (s.params.D - 1) []
          pairsLeft := n >>> 1, phase := if n = 0 then .idle else .pairReady } := by
  rw [openFrame, if_pos h]
  rfl

/-- An accepted FRAME in a warm-up frame (R111 to R115). -/
theorem openFrame_warmUp {n : BitVec 16} {g : F32} {a v : List F32} {s : State}
    (h : active (alignFrame g a v s) = false) :
    openFrame n (alignFrame g a v s) =
      respond 2 ((push s.gainHist g).getD (s.params.D - 1) 0 :: List.replicate n.toNat 0)
        { s with
          gainHist := push s.gainHist g, gainCur := (push s.gainHist g).getD (s.params.D - 1) 0
          featHist := push s.featHist v, frameCount := (alignFrame g a v s).frameCount
          lpcHist := push s.lpcHist a, lpcCur := (push s.lpcHist a).getD (s.params.D - 1) []
          pairsLeft := 0, phase := .idle } := by
  rw [openFrame, if_neg (by rw [h]; simp)]
  rfl

/-- The amplitude of a pair's first sample (R129). -/
abbrev pcmFirst (e1 : Code) (s : State) : F32 := reconstruct s.nanEpoch s.params s.pred1 e1

/-- The filter output of a pair's first sample (R131). -/
abbrev memFirst (e1 : Code) (s : State) : F32 :=
  deemphasise s.nanEpoch s.params.consts (pcmFirst e1 s) s.deemphMem

/-- The prediction of a pair's second sample: from the window that holds the first (R139). -/
abbrev predSecond (e1 : Code) (s : State) : F32 :=
  lpcPredict (s.nanEpoch + 1) s.lpcCur (push s.lastSig (pcmFirst e1 s))

/-- The amplitude of a pair's second sample. -/
abbrev pcmSecond (e1 e0 : Code) (s : State) : F32 := reconstruct (s.nanEpoch + 2) s.params (predSecond e1 s) e0

/-- The filter output of a pair's second sample. -/
abbrev memSecond (e1 e0 : Code) (s : State) : F32 :=
  deemphasise (s.nanEpoch + 2) s.params.consts (pcmSecond e1 e0 s) (memFirst e1 s)

/-- The two samples of a COMMIT (R143). -/
theorem commit_samples (e1 e0 : Code) (s : State) :
    (commitFirst e1 s).1 = BitVec.ofInt 16 (quant s.params.consts (memFirst e1 s)) ∧
    (commitSecond e0 (commitFirst e1 s).2).1 = BitVec.ofInt 16 (quant s.params.consts (memSecond e1 e0 s)) := ⟨rfl, rfl⟩

/-- The state after a COMMIT, its response apart (R143). -/
theorem commit_state (e1 e0 : Code) (s : State) :
    closePair (commitSecond e0 (commitFirst e1 s).2).2 =
      { s with
        lastSig := push (push s.lastSig (pcmFirst e1 s)) (pcmSecond e1 e0 s), deemphMem := memSecond e1 e0 s
        lastExc0 := e0, lastExc1 := e1, pairsLeft := s.pairsLeft - 1
        phase := if s.pairsLeft - 1 = 0 then .idle else .pairReady, nanEpoch := s.nanEpoch + 3 } := rfl

/-- The window after a COMMIT keeps its length (R127). -/
theorem push_push_eq_take {α : Type} (l : List α) (x y : α) (h : l ≠ []) :
    push (push l x) y = (y :: x :: l).take l.length := by
  have := List.length_pos_iff.mpr h
  obtain ⟨n, hn⟩ : ∃ n, l.length = n + 1 := ⟨l.length - 1, by omega⟩
  rw [push_eq_take (push l x) y (by simp [push]), push_eq_take l x h, hn, List.take_succ_cons, List.take_succ_cons,
    List.length_cons, List.length_take, hn, List.take_succ_cons]
  cases n with
  | zero => simp
  | succ m => simp [List.take_take]

end Sys2Proof.Machine
end

