-- ==== Sys2Proof/Laws/Compander.lean ====
section
/-! SUPPORT. The compander's one specification lemma: a code is at least `k` exactly where the amplitude reaches the
threshold `k` (R92); and the order of the tables (R93, R94). -/

namespace Sys2Proof

theorem Params.DecOk.mono {p : Params} (h : p.DecOk) {u v : Nat} (huv : u < v) (hv : v < 256) :
    Num.units (p.decAt u) < Num.units (p.decAt v) := by
  obtain ⟨n, rfl⟩ : ∃ n, v = u + 1 + n := ⟨v - u - 1, by omega⟩
  clear huv
  induction n with
  | zero => exact h.2.2.1 u (by omega)
  | succ n ih => exact lt_trans (ih (by omega)) (h.2.2.1 (u + 1 + n) (by omega))

/-- The thresholds increase strictly: an amplitude of the table lies between any two (R94 b). -/
theorem Params.thr_mono {p : Params} (hd : p.DecOk) (ht : p.ThrOk) {j k : Nat} (h1 : 1 ≤ j) (hjk : j < k) (hk : k ≤ 255) :
    Num.units (p.thrAt j) < Num.units (p.thrAt k) := by
  obtain ⟨a, rfl⟩ : ∃ a, j = a + 1 := ⟨j - 1, by omega⟩
  obtain ⟨b, rfl⟩ : ∃ b, k = b + 1 := ⟨k - 1, by omega⟩
  have ha := (ht.2.2 a (by omega)).2
  have hb := (ht.2.2 b (by omega)).1
  rcases Nat.lt_or_ge (a + 1) b with h | h
  · have := hd.mono h (by omega); omega
  · have : b = a + 1 := by omega
    subst this
    omega

theorem Num.fge_iff {a b : F32} (ha : Num.isNaN a = false) (hb : Num.isNaN b = false) :
    Num.fge a b = true ↔ Num.units b ≤ Num.units a := by
  simp [Num.fge, ha, hb]

theorem Num.fge_of_isNaN {a : F32} (b : F32) (ha : Num.isNaN a = true) : Num.fge a b = false := by
  simp [Num.fge, ha]

theorem Params.isNaN_thrAt {p : Params} (ht : p.ThrOk) {k : Nat} (h1 : 1 ≤ k) (hk : k ≤ 255) :
    Num.isNaN (p.thrAt k) = false := by
  have h := ht.2.1 (k - 1) (by omega)
  rw [Nat.sub_add_cancel h1] at h
  exact Num.isNaN_of_isFinite h

/-- Counting the places of a list where a property holds that holds on a prefix. -/
theorem countP_prefix {α : Type} (q : α → Bool) (d : α) (l : List α)
    (h : ∀ i j, i < j → j < l.length → q (l.getD j d) = true → q (l.getD i d) = true) :
    ∀ i, i < l.length → (q (l.getD i d) = true ↔ i < l.countP q) := by
  induction l with
  | nil => intro i hi; simp at hi
  | cons x l ih =>
    have ih := ih fun i j hij hj hq => by
      have := h (i + 1) (j + 1) (by omega) (by simpa using hj) (by simpa using hq)
      simpa using this
    intro i hi
    cases hx : q x
    · have none : ∀ j, j < l.length → q (l.getD j d) = false := fun j hj => by
        cases hq : q (l.getD j d)
        · rfl
        · have := h 0 (j + 1) (by omega) (by simpa using hj) (by simpa using hq)
          rw [List.getD_cons_zero, hx] at this
          cases this
      have zero : l.countP q = 0 := by
        rw [List.countP_eq_zero]
        intro y hy hq
        obtain ⟨j, hj, rfl⟩ := List.mem_iff_getElem.mp hy
        have := none j hj
        rw [List.getD_eq_getElem _ _ hj, hq] at this
        cases this
      rw [List.countP_cons_of_neg (by simp [hx]), zero]
      cases i with
      | zero => simp [hx]
      | succ i =>
        have := none i (by simpa using hi)
        rw [List.getD_cons_succ, this]
        simp
    · rw [List.countP_cons_of_pos hx]
      cases i with
      | zero => simp [hx]
      | succ i =>
        rw [List.getD_cons_succ, ih i (by simpa using hi)]
        omega

namespace Machine

theorem toNat_encode8 {p : Params} (ht : p.ThrOk) (x : F32) :
    (encode8 p x).toNat = p.THR.countP fun t => Num.fge x t := by
  have := List.countP_le_length (p := fun t => Num.fge x t) (l := p.THR)
  have h := ht.1
  rw [encode8, BitVec.toNat_ofNat]
  exact Nat.mod_eq_of_lt (by omega)

/-- What the encoder answers: its code is at least `k` exactly where `x` reaches `THR[k]` (R92). -/
theorem le_encode8_iff {p : Params} (hp : p.Valid) (x : F32) {k : Nat} (h1 : 1 ≤ k) (hk : k ≤ 255) :
    k ≤ (encode8 p x).toNat ↔ Num.fge x (p.thrAt k) = true := by
  obtain ⟨-, hd, ht, -⟩ := hp
  have hlen := ht.1
  have key := countP_prefix (fun t => Num.fge x t) 0 p.THR (fun i j hij hj hq => by
    cases hx : Num.isNaN x
    · have e1 : p.THR.getD j 0 = p.thrAt (j + 1) := rfl
      have e2 : p.THR.getD i 0 = p.thrAt (i + 1) := rfl
      simp only [e1, e2] at hq ⊢
      rw [Num.fge_iff hx (Params.isNaN_thrAt ht (by omega) (by omega))] at hq ⊢
      have := Params.thr_mono hd ht (j := i + 1) (k := j + 1) (by omega) (by omega) (by omega)
      omega
    · simp [Num.fge_of_isNaN _ hx] at hq) (k - 1) (by omega)
  rw [toNat_encode8 ht]
  have e : p.THR.getD (k - 1) 0 = p.thrAt k := rfl
  rw [e] at key
  rw [key]
  omega

end Machine
end Sys2Proof
end

