-- ==== Sys2Proof/Laws/PerInstr.lean ====
section
/-! SUPPORT. The family of lemmas with one member per command: each command's word matches its own row of the opcode
map (R69). -/

namespace Sys2Proof.Laws.TableRow

/-- The command word of `i` has its row's opcode, matches the row under its mask, and carries the command's immediate
(R66, R67, R69). -/
def Statement (i : Instr) : Prop :=
  opField (encodeWord i) = i.opcode ∧ encodeWord i &&& rowMask i.opcode = rowMatch i.opcode ∧
    immField (encodeWord i) = i.imm

theorem init : Statement .init :=
  ⟨opField_encodeWord _, matches_encodeWord _, immField_encodeWord _⟩

theorem pitch (f : F32) : Statement (.pitch f) :=
  ⟨opField_encodeWord _, matches_encodeWord _, immField_encodeWord _⟩

theorem frame (n : BitVec 16) (g : F32) (a v : List F32) : Statement (.frame n g a v) :=
  ⟨opField_encodeWord _, matches_encodeWord _, immField_encodeWord _⟩

theorem predict : Statement .predict :=
  ⟨opField_encodeWord _, matches_encodeWord _, immField_encodeWord _⟩

theorem commit (e1 e0 : Code) : Statement (.commit e1 e0) :=
  ⟨opField_encodeWord _, matches_encodeWord _, immField_encodeWord _⟩

theorem enc (x : F32) : Statement (.enc x) :=
  ⟨opField_encodeWord _, matches_encodeWord _, immField_encodeWord _⟩

theorem dec (u : Code) : Statement (.dec u) :=
  ⟨opField_encodeWord _, matches_encodeWord _, immField_encodeWord _⟩

theorem rdreg (addr : Addr) : Statement (.rdreg addr) :=
  ⟨opField_encodeWord _, matches_encodeWord _, immField_encodeWord _⟩

theorem wrreg (addr : Addr) (v : Word) : Statement (.wrreg addr v) :=
  ⟨opField_encodeWord _, matches_encodeWord _, immField_encodeWord _⟩

end Sys2Proof.Laws.TableRow
end

