-- ==== Sys2Proof/Laws/Quantiser.lean ====
section
/-! SUPPORT. The clamp constants are exact, finite values lie below the infinities, and so the quantiser (R132 to R134)
is one clamp of the exact floor. -/

namespace Sys2Proof

/-- A finite magnitude is below the one an infinity stands for. -/
theorem Num.mag_lt_of_isFinite {a : F32} (h : Num.isFinite a = true) : Num.mag a < 2 ^ 277 := by
  simp only [Num.isFinite, bne_iff_ne, ne_eq] at h
  have hf : Num.fracField a < 2 ^ 23 := Nat.mod_lt _ (by norm_num)
  have he : Num.expField a < 256 := Nat.mod_lt _ (by norm_num)
  unfold Num.mag
  split
  · exact lt_of_lt_of_le hf (pow_le_pow_right₀ one_le_two (by norm_num))
  · calc (2 ^ 23 + Num.fracField a) * 2 ^ (Num.expField a - 1) < 2 ^ 24 * 2 ^ (Num.expField a - 1) :=
          Nat.mul_lt_mul_of_pos_right (by omega) (by positivity)
      _ ≤ 2 ^ 24 * 2 ^ 253 := Nat.mul_le_mul_left _ (Nat.pow_le_pow_right (by norm_num) (by omega))
      _ = 2 ^ 277 := by rw [← pow_add]

theorem Num.units_lt_of_isFinite {a : F32} (h : Num.isFinite a = true) :
    -2 ^ 277 < Num.units a ∧ Num.units a < 2 ^ 277 := by
  have h2 : ((Num.mag a : Nat) : Int) < 2 ^ 277 := by exact_mod_cast Num.mag_lt_of_isFinite h
  unfold Num.units
  split <;> constructor <;> omega

theorem Num.mag_of_isInf {a : F32} (h : Num.isInf a = true) : Num.mag a = 2 ^ 277 := by
  simp only [Num.isInf, Bool.and_eq_true, beq_iff_eq] at h
  unfold Num.mag
  rw [h.1, h.2, if_neg (by decide), Nat.add_zero, ← pow_add]

/-- `roundEven` leaves a multiple of the step as it is. -/
theorem Num.roundEven_of_dvd {m s : Nat} (h : 2 ^ s ∣ m) : Num.roundEven m s * 2 ^ s = m := by
  unfold Num.roundEven
  rw [Nat.mod_eq_zero_of_dvd h, if_neg]
  · exact Nat.div_mul_cancel h
  · have := Nat.two_pow_pos s
    omega

/-- Integers of the clamp bounds' size are exact values (R132). -/
theorem Num.mag_round_int (neg : Bool) {n : Nat} (hn : n ≤ 32767) : Num.mag (Num.round neg (n * Num.one) 0) = n * Num.one := by
  have hone : Num.one = 2 ^ 149 := rfl
  have hlog : Nat.log2 (n * Num.one) - 23 ≤ 149 := by
    rcases Nat.eq_zero_or_pos n with rfl | h
    · simp
    · have hlt : n * Num.one < 2 ^ 164 := by
        calc n * Num.one < 2 ^ 15 * Num.one := Nat.mul_lt_mul_of_pos_right (by omega) (by rw [hone]; positivity)
          _ = 2 ^ 164 := by rw [hone, ← pow_add]
      have := (Nat.log2_lt (by rw [hone]; positivity)).mpr hlt
      omega
  have hlt : n * Num.one < Num.overflowAt * 2 ^ 0 := by
    have hb : Num.overflowAt = (2 ^ 25 - 1) * 2 ^ 252 := rfl
    calc n * Num.one ≤ 32767 * Num.one := Nat.mul_le_mul_right _ hn
      _ < Num.overflowAt * 2 ^ 0 := by rw [hb, hone]; norm_num
  have h := Num.mag_round neg (n * Num.one) 0 hlt
  rw [pow_zero, mul_one] at h
  rw [h]
  apply Num.roundEven_of_dvd
  have hd : Num.discard (n * Num.one) 0 ≤ 149 := by
    unfold Num.discard
    omega
  exact dvd_trans (pow_dvd_pow 2 hd) (Dvd.intro_left n rfl)

/-- The clamp constants as exact values (R132). -/
theorem Num.units_ofInt {n : Nat} (hn : n ≤ 32767) :
    Num.units (Num.ofInt n) = n * (Num.one : Nat) ∧ Num.units (Num.ofInt (-(n : Int))) = -(n * (Num.one : Nat) : Int) := by
  have e1 : Num.ofInt n = Num.round false (n * Num.one) 0 := by
    rw [Num.ofInt, decide_eq_false (by omega), Int.natAbs_natCast]
  constructor
  · rw [e1, Num.units, Num.signBit_round, Num.mag_round_int _ hn]; simp
  · rcases Nat.eq_zero_or_pos n with rfl | h
    · decide
    · have e2 : Num.ofInt (-(n : Int)) = Num.round true (n * Num.one) 0 := by
        rw [Num.ofInt, decide_eq_true (by omega), Int.natAbs_neg, Int.natAbs_natCast]
      rw [e2, Num.units, Num.signBit_round, Num.mag_round_int _ hn]; simp

theorem Num.isNaN_ofInt (k : Int) : Num.isNaN (Num.ofInt k) = false := Num.isNaN_round _ _ _

namespace Machine

/-- The quantiser without its comparisons: NaN is 0, then one clamp of the exact floor (R132 to R134). -/
theorem quant_eq {k : Consts} (hk : k.clampBound ≤ 32767) (y : F32) (hy : Num.isNaN y = false) :
    quant k y =
      if Num.units y < -(k.clampBound * (Num.one : Nat) : Int) then -(k.clampBound : Int)
      else if (k.clampBound * (Num.one : Nat) : Int) < Num.units y then k.clampBound
      else (2 * Num.units y + (Num.one : Nat)) / (2 * Num.one : Nat) := by
  obtain ⟨h1, h2⟩ := Num.units_ofInt hk
  unfold quant
  simp only [Num.fgt, Num.flt, hy, Num.isNaN_ofInt, h1, h2, Bool.not_false, Bool.true_and, decide_eq_true_eq,
    Bool.false_eq_true, if_false]

/-- Every sample lies within the clamp bounds (R134). -/
theorem quant_bounds {k : Consts} (hk : k.clampBound ≤ 32767) (y : F32) :
    -(k.clampBound : Int) ≤ quant k y ∧ quant k y ≤ k.clampBound := by
  cases hy : Num.isNaN y
  · rw [quant_eq hk y hy]
    split
    · omega
    · split
      · omega
      · rename_i h1 h2
        have hone : (0 : Int) < ((Num.one : Nat) : Int) := by exact_mod_cast Nat.two_pow_pos 149
        push_cast
        generalize ((Num.one : Nat) : Int) = o at *
        generalize Num.units y = u at *
        generalize (k.clampBound : Int) = c at *
        constructor
        · rw [Int.le_ediv_iff_mul_le (by omega)]
          nlinarith
        · have : (2 * u + o) / (2 * o) < c + 1 := by
            rw [Int.ediv_lt_iff_lt_mul (by omega)]
            nlinarith
          omega
  · simp [quant, hy]

/-- A sample as a 16-bit word and sign-extended (R75, R140). -/
theorem sample_words {v : Int} (h : -32768 ≤ v ∧ v ≤ 32767) :
    (BitVec.ofInt 16 v).toInt = v ∧ (BitVec.ofInt 16 v).signExtend 32 = BitVec.ofInt 32 v := by
  have h16 : (BitVec.ofInt 16 v).toInt = v := by
    rw [BitVec.toInt_ofInt]
    apply Int.bmod_eq_of_le <;> omega
  refine ⟨h16, BitVec.eq_of_toInt_eq ?_⟩
  rw [BitVec.toInt_signExtend_of_le (by norm_num), h16, BitVec.toInt_ofInt]
  symm
  apply Int.bmod_eq_of_le <;> omega

end Machine
end Sys2Proof
end

