-- ==== Sys2Proof/Tests/Slice0.lean ====
section
/-! SUPPORT. The model's own tests: expected results come from the encodings of 30_encoding.md and the vectors of
95_test_vectors.md. At the end, one witness for the hypotheses of each obligation that has some. -/

namespace Sys2Proof.Tests
open Sys2Proof.Machine

set_option Elab.async false

/-! ## Set-up: configuration T of 95_test_vectors.md and three small states -/

/-- Configuration T. -/
def paramsT : Params := { defaultParams with P := 2, D := 2, F := 1, CAP := 4 }

/-- T after reset. -/
def idleT : State := State.resetOf paramsT

/-- The context of the example of R142, in phase PAIR_READY. -/
def readyT : State :=
  { idleT with
    frameCount := 3, lpcCur := [0xBF000000, 0xBE800000], gainCur := 0x3F000000
    lastSig := [0x40800000, 0x40000000], pairsLeft := 2, phase := .pairReady }

/-- The context of the example of R146, in phase PAIR_WAIT. -/
def waitT : State := { readyT with pred1 := 0x40200000, phase := .pairWait }

/-- T with the latch set by `E_PHASE`. -/
def latchedT : State := { idleT with err := true, errCode := 3 }

/-- The words a step answers with when the host presents the words `ws` of one transaction. -/
def answer (s : State) (ws : List Word) : List Word :=
  match ws with
  | [] => []
  | w :: payload =>
    match step { s with pending := [.command w payload] } with
    | .next t => t.responses.flatMap fun r => r.header :: r.data
    | .fault _ => []
    | .refused _ => []

/-- The command runs to a next state in which no error stands. -/
def accepts (i : Instr) (s : State) : Bool :=
  match exec i s with
  | .next t => !t.err
  | .fault _ => false
  | .refused _ => false

theorem accepts_next {i : Instr} {s : State} (h : accepts i s = true) : ∃ t, exec i s = .next t ∧ t.err = false := by
  unfold accepts at h
  split at h
  · exact ⟨_, by assumption, by simpa using h⟩
  · cases h
  · cases h

/-! ## Instances -/

theorem tables_ok : defaultParams.DecOk ∧ defaultParams.ThrOk := by
  refine ⟨?_, ?_⟩ <;> decide +kernel

theorem defaultParams_valid : defaultParams.Valid := ⟨by decide, tables_ok.1, tables_ok.2, by decide⟩

theorem paramsT_valid : paramsT.Valid := ⟨by decide, tables_ok.1, tables_ok.2, by decide⟩

theorem idleT_inv : idleT.Inv := by
  refine ⟨paramsT_valid, ?_, ?_, ?_, ?_⟩ <;> decide +kernel

theorem readyT_inv : readyT.Inv := by
  refine ⟨paramsT_valid, ?_, ?_, ?_, ?_⟩ <;> decide +kernel

theorem waitT_inv : waitT.Inv := by
  refine ⟨paramsT_valid, ?_, ?_, ?_, ?_⟩ <;> decide +kernel

theorem latchedT_inv : latchedT.Inv := by
  refine ⟨paramsT_valid, ?_, ?_, ?_, ?_⟩ <;> decide +kernel

theorem pending_inv {s : State} (h : s.Inv) (evs : List PortEvent) : State.Inv { s with pending := evs } :=
  ⟨h.1, h.2, h.3, h.4, h.5⟩

/-! ## WellFormed (R65, R68) -/

theorem test_wellFormed_frame : (Instr.frame 2 0 [0, 0] [0]).WellFormed paramsT = true := by decide

theorem test_illFormed_frame_a : (Instr.frame 2 0 [0] [0]).WellFormed paramsT = false := by decide

theorem test_illFormed_frame_v : (Instr.frame 2 0 [0, 0] [0, 0]).WellFormed paramsT = false := by decide

/-! ## Decoding, words written out from R66 to R71 -/

theorem test_decode_init : decode paramsT 0b0000000000000000_0000000000000000#32 [] = .instr .init := by decide

theorem test_decode_pitch :
    decode paramsT 0b0001000000000000_0000000000000000#32 [7] = .instr (.pitch 7) := by decide

theorem test_decode_frame :
    decode paramsT 0b0010000000000000_1000000000000110#32 [1, 2, 3, 4] =
      .instr (.frame 0b1000000000000110 1 [2, 3] [4]) := by decide

theorem test_decode_predict : decode paramsT 0b0011000000000000_0000000000000000#32 [] = .instr .predict := by decide

theorem test_decode_commit :
    decode paramsT 0b0100000000000000_1000001001111110#32 [] = .instr (.commit 130 126) := by decide

theorem test_decode_enc : decode paramsT 0b0101000000000000_0000000000000000#32 [9] = .instr (.enc 9) := by decide

theorem test_decode_dec : decode paramsT 0b0110000000000000_0000000011111110#32 [] = .instr (.dec 254) := by decide

theorem test_decode_rdreg :
    decode paramsT 0b0111000000000000_0001000000000011#32 [] = .instr (.rdreg 0x1003) := by decide

theorem test_decode_wrreg :
    decode paramsT 0b1000000000000000_0000000100000001#32 [5] = .instr (.wrreg 0x101 5) := by decide

theorem test_decode_refuses :
    decode paramsT 0xF1234567 [1, 2, 3] = .refuse .opcode ∧ decode paramsT 0x00010000 [] = .refuse .reserved ∧
    decode paramsT 0x60000100 [] = .refuse .reserved ∧ decode paramsT 0x30000001 [] = .refuse .reserved := by decide

theorem test_decode_unframed : decode paramsT 0x10000000 [] = .unframed := by decide

theorem test_encode_commit : encode (.commit 140 120) = [0x40008C78] := by decide

theorem test_table_word : decodeTableWord 32 0x600000FF = some (.dec 255) := by decide

/-- The next step runs the word placed: `RDREG ID`. -/
theorem test_withFetchWord :
    (match step (State.reset.withFetchWord 32 0x70000000) with
      | .next t => t.responses
      | .fault _ => []
      | .refused _ => []) = [{ header := 0x70000001, data := [0x424C5053] }] := by decide +kernel

/-! ## The commands, against 95_test_vectors.md -/

/-- V-PITCH: 0.02 (just below) gives 101, through the bias; −1.36 clamps. -/
theorem test_pitch :
    answer idleT [0x10000000, 0x3CA3D70A] = [0x10000001, 101] ∧
    answer idleT [0x10000000, 0xBFAE147B] = [0x10000001, 33] := by decide +kernel

/-- V-PITCH: NaN and the infinities. -/
theorem test_pitch_special :
    pitchLag specConsts 0x7FC00000 = 33 ∧ pitchLag specConsts 0x7F800000 = 255 ∧
    pitchLag specConsts 0xFF800000 = 33 := by decide +kernel

/-- V-ENC at and just below `THR[129]`. -/
theorem test_enc :
    answer idleT [0x50000000, 0x403415BC] = [0x50000001, 129] ∧
    answer idleT [0x50000000, 0x403415BB] = [0x50000001, 128] := by decide +kernel

/-- V-ENC: a NaN. -/
theorem test_enc_nan : answer idleT [0x50000000, 0xFFC00001] = [0x50000001, 0] := by decide +kernel

/-- V-DEC. -/
theorem test_dec : answer idleT [0x6000008C] = [0x60000001, 0x42AF3933] := by decide +kernel

/-- Program A line 1: a warm-up frame answers the gain and its zeros. -/
theorem test_frame_warm_up :
    answer idleT [0x20000002, 0x3E800000, 0x3F800000, 0x40000000, 0x41100000] = [0x20000003, 0, 0, 0] := by
  decide +kernel

/-- Program B line 7: an active frame answers the gain that was in slot 0. -/
theorem test_frame_active :
    answer { idleT with frameCount := 2, gainHist := [0x3F000000, 0] } [0x20000004, 0, 0, 0, 0] =
      [0x20050001, 0x3F000000] := by decide +kernel

/-- Program B line 8: the example of R142. -/
theorem test_predict : answer readyT [0x30000000] = [0x30060003, 0x00808081, 0x00808080, 0x3F000000] := by
  decide +kernel

/-- Program B line 10: the example of R146. -/
theorem test_commit : answer waitT [0x4000827E] = [0x40050002, 14, 8] := by decide +kernel

/-- Program D line 5: the clamp does not feed back. -/
theorem test_commit_clamps :
    answer { waitT with lpcCur := [0, 0], lastSig := [0, 0], pred1 := 0, deemphMem := 0x471C4000 } [0x4000FF00] =
      [0x40050002, 0x00007FFF, 0x0000590F] := by decide +kernel

/-- Program C line 6: INIT clears the latch. -/
theorem test_init : answer latchedT [0x00000000] = [0x00000000] := by decide +kernel

/-- V-REG: the last persistent word; the first address past `LAST_SIG`. -/
theorem test_rdreg :
    answer { idleT with featHist := [[1], [2]] } [0x70002001] = [0x70000001, 2] ∧
    answer idleT [0x70000102] = [0x7A800000] := by decide +kernel

/-- V-REG: the counter saturates at CAP, and the header shows `ACTIVE` after the write. -/
theorem test_wrreg : answer idleT [0x80000009, 0x00011170] = [0x80040000] := by decide +kernel

/-- V-REG: a read-only register and a hole. -/
theorem test_wrreg_refused :
    answer idleT [0x80000008, 0] = [0x8B000000] ∧ answer idleT [0x80000400, 0] = [0x8A800000] := by decide +kernel

/-- V-ERR: the check order. -/
theorem test_check_order :
    answer waitT [0x80000400, 0] = [0x89860000] ∧ answer latchedT [0x90000000] = [0x9B800000] ∧
    answer idleT [0x20010003, 0, 0, 0, 0] = [0x29000000] := by decide +kernel

/-- V-LPC: the order and the rounding of each step show; an infinity minus itself is a NaN. -/
theorem test_lpcPredict :
    lpcPredict 0 [0x3F800000, 0x3F800000, 0x3F800000] [0x4CBEBC20, 0x3F800000, 0xCCBEBC20] = 0 ∧
    lpcPredict 0 [0x3DCCCCCD, 0x3E4CCCCD, 0x3E99999A] [0x3F800000, 0x40000000, 0x40400000] = 0xBFB33334 := by
  decide +kernel

/-- V-QUANT: halves go up, on both sides of zero. -/
theorem test_quant :
    quant specConsts 0x40200000 = 3 ∧ quant specConsts 0xC0200000 = -2 ∧ quant specConsts 0xBF000001 = -1 ∧
    quant specConsts 0x46FFFE01 = 32767 := by decide +kernel

/-- V-DEEMPH: 850 and 722.5. -/
theorem test_deemphasise :
    deemphasise 0 specConsts 0 0x447A0000 = 0x44548000 ∧ deemphasise 0 specConsts 0 0x44548000 = 0x4434A000 := by
  decide +kernel

/-- R79, R81: a line of assembly and its words. -/
theorem test_assemble :
    (assembleLine paramsT "FRAME 4, 0.5, [-0.5, -0.25], [1.0]".toList).map (fun is => is.flatMap encode) =
      some [0x20000004, 0x3F000000, 0xBF000000, 0xBE800000, 0x3F800000] := by decide +kernel

/-- R79, R81: a register name gives the address of R40; a name beyond its array's end is rejected (log 22), and its
address is spelled as a number. -/
theorem test_assemble_register :
    (assembleLine paramsT "WRREG LAST_SIG[1], 2.0".toList).map (fun is => is.flatMap encode) =
      some [0x80000101, 0x40000000] ∧
    assembleLine paramsT "WRREG LAST_SIG[2], 2.0".toList = none ∧
    assembleLine paramsT "RDREG FEAT_HIST[0][57344]".toList = none ∧
    (assembleLine paramsT "RDREG 0x0102".toList).map (fun is => is.flatMap encode) = some [0x70000102] := by
  decide +kernel

/-- R93 (d): contents whose spacing shrinks from 128 down to 127 break the constraint. -/
theorem test_spacing_below_silence :
    ¬ ({ paramsT with DEC := paramsT.DEC.set 127 0xC0A00000 } : Params).DecOk := fun h =>
  absurd (h.2.2.2.2 127 (by decide)) (by decide +kernel)

/-! ## Witnesses: states and operands that meet the hypotheses of the obligations, clause by clause -/

theorem witness_DecodeOfEncodedCommand : (Instr.frame 65535 0 [0, 0] [0]).WellFormed paramsT = true := by decide

theorem witness_EncodeOfDecodedCommand : ∃ i, decode paramsT 0x2000FFFF [1, 2, 3, 4] = .instr i := ⟨_, rfl⟩

theorem witness_DecoderSortsEveryWord :
    9 ≤ (opField 0x90000000).toNat ∧ (opField 0x8FFFFFFF).toNat < 9 ∧ (0x8FFFFFFF#32).extractLsb' 16 12 ≠ 0 ∧
    ((opField 0x50000001).toNat ∈ [0, 1, 3, 5] ∧ immField 0x50000001 ≠ 0) ∧
    ((opField 0x60000100).toNat = 6 ∧ (0x60000100#32).extractLsb' 8 8 ≠ 0) ∧
    ((opField 0x600000FF).toNat < 9 ∧ (0x600000FF#32).extractLsb' 16 12 = 0 ∧
      ((opField 0x600000FF).toNat ∈ [0, 1, 3, 5] → immField 0x600000FF = 0) ∧
      ((opField 0x600000FF).toNat = 6 → (0x600000FF#32).extractLsb' 8 8 = 0) ∧
      payloadWords paramsT (opField 0x600000FF) = 0) := by decide

theorem witness_WorkedEncodingsDecode : paramsT.P = 2 ∧ paramsT.F = 1 := by decide

theorem witness_FirstWordFixesTheLength : (Instr.frame 0 0 [1, 2] [3]).WellFormed paramsT = true := by decide

theorem witness_StepRunsTheDecodedCommand :
    (∃ s : State, s.pending = [.command 0x600000FF []] ∧ decode s.params 0x600000FF [] = .instr (.dec 255)) ∧
    waitT.pending = [] :=
  ⟨⟨{ idleT with pending := [.command 0x600000FF []] }, rfl, rfl⟩, rfl⟩

theorem witness_ReservedOpcodeIsRefused :
    ∃ s : State, s.pending = [.command 0xFFFFFFFF [1]] ∧ 9 ≤ (opField 0xFFFFFFFF).toNat :=
  ⟨{ idleT with pending := [.command 0xFFFFFFFF [1]] }, rfl, by decide⟩

theorem witness_ReservedBitIsRefused :
    ∃ s : State, s.err = true ∧ s.pending = [.command 0x00000001 []] ∧ (opField 0x00000001).toNat < 9 ∧
      ((opField 0x00000001).toNat ∈ [0, 1, 3, 5] ∧ immField 0x00000001 ≠ 0) :=
  ⟨{ latchedT with pending := [.command 0x00000001 []] }, rfl, rfl, by decide, by decide⟩

theorem witness_EveryCommandGetsOneResponse :
    ∃ s : State, s.Inv ∧ s.pending = [.command 0x30000000 []] ∧ decode s.params 0x30000000 [] ≠ .unframed :=
  ⟨{ readyT with pending := [.command 0x30000000 []] }, pending_inv readyT_inv _, rfl, by decide⟩

theorem witness_ErrorLatchKeepsTheFirstCause :
    (∃ s t : State, s.pending = [.reset] ∧ step s = .next t) ∧
    (∃ s t : State, s.pending = [.command 0x30000000 []] ∧ step s = .next t ∧ s.err = false ∧ t.err = true) ∧
    (∃ s t : State, s.pending = [.command 0x70000008 []] ∧ step s = .next t ∧ s.err = true) :=
  ⟨⟨{ idleT with pending := [.reset] }, _, rfl, rfl⟩,
   ⟨{ idleT with pending := [.command 0x30000000 []] }, _, rfl, rfl, rfl, rfl⟩,
   ⟨{ latchedT with pending := [.command 0x70000008 []] }, _, rfl, rfl, rfl⟩⟩

theorem witness_LatchedBlockRefusesOtherCommands :
    (Instr.enc 0).WellFormed latchedT.params = true ∧ latchedT.err = true ∧ Instr.enc 0 ≠ .init ∧
    (∀ addr, Instr.enc 0 ≠ .rdreg addr) := ⟨rfl, rfl, by simp, by simp⟩

theorem witness_MisplacedCommandIsRefused :
    (waitT.err = false ∧ waitT.phase ≠ .idle ∧ (Instr.frame 3 0 [0, 0] [0]).WellFormed waitT.params = true) ∧
    (readyT.err = false ∧ readyT.phase ≠ .idle ∧ readyT.phase ≠ .pairWait) ∧
    (idleT.err = false ∧ idleT.phase ≠ .pairReady ∧ idleT.phase ≠ .pairWait) := by decide +kernel

theorem witness_OddFrameIsRefused :
    (Instr.frame 65535 0 [0, 0] [0]).WellFormed idleT.params = true ∧ idleT.err = false ∧ idleT.phase = .idle ∧
    (65535#16).toNat % 2 = 1 := by decide +kernel

theorem witness_UnmappedAddressIsRefused :
    idleT.params.Valid ∧ Unmapped idleT.params 0x102 ∧ Unmapped idleT.params 6 ∧ idleT.err = false ∧
    idleT.phase = .idle := by
  refine ⟨paramsT_valid, fun r hr h => ?_, fun r hr h => ?_, rfl, rfl⟩
  · have h1 := regAt_regAddr paramsT_valid.1 hr
    have h2 : regAt paramsT 0x102 = none := by decide +kernel
    rw [show regAddr paramsT r = 0x102 from h] at h1
    exact absurd (h1.symm.trans h2) (by simp)
  · have h1 := regAt_regAddr paramsT_valid.1 hr
    have h2 : regAt paramsT 6 = none := by decide +kernel
    rw [show regAddr paramsT r = 6 from h] at h1
    exact absurd (h1.symm.trans h2) (by simp)

theorem witness_ReadOnlyWriteIsRefused :
    idleT.params.Valid ∧ idleT.err = false ∧ idleT.phase = .idle ∧ regExists idleT.params .pred1 = true ∧
    regExists idleT.params (.lpcCur 1) = true ∧
    Reg.pred1 ∈ [Reg.id, .paramP, .paramD, .paramF, .paramCap, .stateSize, .status, .gainCur, .pred1] ∧
    (∃ i, Reg.lpcCur 1 = .lpcCur i) :=
  ⟨paramsT_valid, rfl, rfl, rfl, rfl, by decide, 1, rfl⟩

theorem witness_ResetAndInitGiveTheTableOfR38 : ∃ s : State, s.err = true ∧ s.pending = [.reset] :=
  ⟨{ latchedT with pending := [.reset] }, rfl, rfl⟩

/-- For the three obligations that start from a state with the invariant and a step from it. -/
theorem witness_StepKeepsTheInvariant :
    ∃ s t : State, s.Inv ∧ s.PredictionCurrent ∧ s.phase = .pairReady ∧ step s = .next t ∧ t.phase = .pairWait :=
  ⟨{ readyT with pending := [.command 0x30000000 []] }, _, pending_inv readyT_inv _,
    fun h => absurd (show Phase.pairReady = Phase.pairWait from h) (by decide), rfl, rfl, rfl⟩

theorem witness_ResetMeetsTheInvariant : defaultParams.Valid ∧ paramsT.Valid := ⟨defaultParams_valid, paramsT_valid⟩

theorem witness_StepKeepsParametersAndPorts : ∃ s t : State, s.pending ≠ [] ∧ step s = .next t :=
  ⟨{ idleT with pending := [.command 0 []] }, _, by simp, rfl⟩

theorem witness_StepKeepsThePredictionCurrent :
    ∃ s t : State, s.Inv ∧ s.PredictionCurrent ∧ step s = .next t ∧ t.phase = .pairWait :=
  ⟨{ readyT with pending := [.command 0x30000000 []] }, _, pending_inv readyT_inv _,
    fun h => absurd (show Phase.pairReady = Phase.pairWait from h) (by decide), rfl, rfl⟩

theorem witness_SequencerFollowsR37 :
    (∃ t, readyT.Inv ∧ readyT.err = false ∧ exec .predict readyT = .next t ∧ t.err = false) ∧
    (∃ t, waitT.Inv ∧ waitT.err = false ∧ exec (.commit 1 2) waitT = .next t ∧ t.err = false) ∧
    ((Instr.frame 2 0 [0, 0] [0]).WellFormed readyT.params = true ∧ readyT.err = false ∧ readyT.phase ≠ .idle) ∧
    (∃ t, exec .predict idleT = .next t ∧ t.err = true) ∧
    (∃ s : State, s.pending = [.reset]) := by
  obtain ⟨t, h1, h2⟩ := accepts_next (i := .predict) (s := readyT) (by decide +kernel)
  obtain ⟨u, h3, h4⟩ := accepts_next (i := .commit 1 2) (s := waitT) (by decide +kernel)
  exact ⟨⟨t, readyT_inv, rfl, h1, h2⟩, ⟨u, waitT_inv, rfl, h3, h4⟩, ⟨rfl, rfl, by decide +kernel⟩, ⟨_, rfl, rfl⟩,
    ⟨{ idleT with pending := [.reset] }, rfl⟩⟩

theorem witness_OnlyFrameMovesTheDelayLines :
    ∃ t, exec (.commit 1 2) waitT = .next t ∧ t.err = false ∧ Instr.commit 1 2 ≠ .init ∧
      (∀ n g a v, Instr.commit 1 2 ≠ .frame n g a v) ∧ (∀ addr v, Instr.commit 1 2 ≠ .wrreg addr v) := by
  obtain ⟨t, h1, h2⟩ := accepts_next (i := .commit 1 2) (s := waitT) (by decide +kernel)
  exact ⟨t, h1, h2, by simp, by simp, by simp⟩

theorem witness_OnlyCommitMovesTheSynthesisHistory :
    ∃ t, exec (.frame 2 5 [6, 7] [8]) idleT = .next t ∧ t.err = false ∧ Instr.frame 2 5 [6, 7] [8] ≠ .init ∧
      (∀ e1 e0, Instr.frame 2 5 [6, 7] [8] ≠ .commit e1 e0) ∧
      (∀ addr v, Instr.frame 2 5 [6, 7] [8] ≠ .wrreg addr v) := by
  obtain ⟨t, h1, h2⟩ := accepts_next (i := .frame 2 5 [6, 7] [8]) (s := idleT) (by decide +kernel)
  exact ⟨t, h1, h2, by simp, by simp, by simp⟩

theorem witness_WarmUpGateIsOneWay :
    ∃ s t : State, s.Inv ∧ s.frameCount = 4 ∧ exec (.frame 2 5 [6, 7] [8]) s = .next t ∧ t.err = false ∧
      Instr.frame 2 5 [6, 7] [8] ≠ .init ∧ (∀ v, Instr.frame 2 5 [6, 7] [8] ≠ .wrreg 9 v) := by
  obtain ⟨t, h1, h2⟩ :=
    accepts_next (i := .frame 2 5 [6, 7] [8]) (s := { idleT with frameCount := 4 }) (by decide +kernel)
  refine ⟨{ idleT with frameCount := 4 }, t, ⟨paramsT_valid, ?_, ?_, ?_, ?_⟩, rfl, h1, h2, by simp, by simp⟩ <;>
    decide +kernel

theorem witness_RegisterMapIsOneToOne :
    paramsT.Valid ∧ regExists paramsT (.featHist 1 0) = true ∧ regAt paramsT 0x2001 = some (.featHist 1 0) :=
  ⟨paramsT_valid, by decide, by decide +kernel⟩

theorem witness_RdregAnswersTheContent : latchedT.Inv ∧ regExists latchedT.params (.lpcHist 1 1) = true :=
  ⟨latchedT_inv, by decide +kernel⟩

theorem witness_StatusRegisterFields : idleT.err = false ∧ idleT.phase = .idle := ⟨rfl, rfl⟩

theorem witness_FrameCountRegister : idleT.params.Valid ∧ idleT.err = false ∧ idleT.phase = .idle :=
  ⟨paramsT_valid, rfl, rfl⟩

theorem witness_LastExcRegister : idleT.err = false ∧ idleT.phase = .idle := ⟨rfl, rfl⟩

theorem witness_WrregWritesOneRegister :
    idleT.Inv ∧ idleT.err = false ∧ idleT.phase = .idle ∧ regExists idleT.params (.lastSig 1) = true ∧
    regWritable (.lastSig 1) = true ∧ regWritable .frameCount = true ∧ regWritable .lastExc = true ∧
    ReadsAs idleT (.lastSig 0) 0 := ⟨idleT_inv, rfl, rfl, by decide +kernel, rfl, rfl, rfl, rfl⟩

theorem witness_SaveAnswersTheImage : paramsT.Valid ∧ waitT.Inv := ⟨paramsT_valid, waitT_inv⟩

theorem witness_RestoreGivesTheSavedStreamBack :
    ∃ img, idleT.Inv ∧ idleT.phase = .idle ∧ waitT.Inv ∧ waitT.params = idleT.params ∧
      List.Forall₂ (ReadsAs idleT) (savedRegs idleT.params) img := by
  refine ⟨(savedRegs idleT.params).map fun r => memRead r idleT, idleT_inv, rfl, waitT_inv, rfl, ?_⟩
  rw [List.forall₂_map_right_iff, List.forall₂_same]
  have all : ∀ r ∈ savedRegs paramsT, regExists paramsT r = true := by decide
  exact fun r hr => readsAs_memRead idleT_inv (all r hr)

theorem witness_LatchesAreDeadInIdle :
    ∃ s t : State, s.Inv ∧ t.Inv ∧ SamePersistent s t ∧ s.lpcCur ≠ t.lpcCur ∧ s.phase = .idle ∧ t.phase = .idle ∧
      s.err = false ∧ t.err = false ∧ (Instr.frame 2 1 [2, 3] [4]).WellFormed s.params = true ∧
      (2#16).toNat % 2 = 0 := by
  refine ⟨idleT, { idleT with lpcCur := [1, 1] }, idleT_inv, ⟨paramsT_valid, ?_, ?_, ?_, ?_⟩,
    ⟨rfl, rfl, rfl, rfl, rfl, rfl, rfl, rfl, rfl⟩, ?_, rfl, rfl, rfl, rfl, rfl, rfl⟩ <;> decide +kernel

theorem witness_PitchIsTheClampedExactFloor :
    idleT.params.consts = specConsts ∧ idleT.err = false ∧ Num.isFinite 0x7F7FFFFF = true ∧
    Num.isNaN 0x7FC00000 = true := by decide +kernel

theorem witness_EncAnswersTheThresholdCount : waitT.params.Valid ∧ waitT.err = false := ⟨paramsT_valid, rfl⟩

theorem witness_DecAnswersTheTableEntry : readyT.params.Valid ∧ readyT.err = false := ⟨paramsT_valid, rfl⟩

theorem witness_EncIsMonotone : paramsT.Valid ∧ Num.fge 0x00000000 0x80000000 = true :=
  ⟨paramsT_valid, by decide +kernel⟩

theorem witness_EncOfDecIsTheCode : paramsT.Valid := paramsT_valid

theorem witness_EncAtZeroAtTheEndsAndAtNaN :
    paramsT.Valid ∧ Num.fge 0x46EFD48E (paramsT.thrAt 255) = true ∧ Num.flt 0xC6FA7E32 (paramsT.thrAt 1) = true ∧
    Num.isNaN 0xFFC00001 = true := ⟨paramsT_valid, by decide +kernel, by decide +kernel, by decide⟩

theorem witness_CompandingRoundTripWithinOneStep :
    paramsT.Valid ∧ Num.isNaN 0x42C80000 = false ∧ Num.units (paramsT.decAt 0) ≤ Num.units 0x42C80000 ∧
    Num.units 0x42C80000 ≤ Num.units (paramsT.decAt 255) ∧
    Num.units (paramsT.decAt 0) ≤ Num.units 0xC7000000 ∧ Num.units 0x46F51A98 ≤ Num.units (paramsT.decAt 255) :=
  ⟨paramsT_valid, by decide +kernel, by decide +kernel, by decide +kernel, by decide +kernel, by decide +kernel⟩

/-- For the three obligations about an accepted FRAME: a warm-up frame at the counter `D - 1`, an active one at `D`. -/
theorem witness_FrameShiftsAndAligns :
    ∃ s u : State, (s.Inv ∧ s.err = false ∧ s.phase = .idle ∧ s.frameCount.toNat + 1 = s.params.D) ∧
      (u.Inv ∧ u.err = false ∧ u.phase = .idle ∧ u.frameCount.toNat = u.params.D) ∧
      (Instr.frame 65534 1 [2, 3] [4]).WellFormed s.params = true ∧ (65534#16).toNat % 2 = 0 := by
  refine ⟨{ idleT with frameCount := 1 }, { idleT with frameCount := 2 },
    ⟨⟨paramsT_valid, ?_, ?_, ?_, ?_⟩, rfl, rfl, rfl⟩, ⟨⟨paramsT_valid, ?_, ?_, ?_, ?_⟩, rfl, rfl, rfl⟩, rfl, rfl⟩ <;>
    decide +kernel

theorem witness_FrameCountsAndGates :
    idleT.Inv ∧ idleT.err = false ∧ idleT.phase = .idle ∧
    (Instr.frame 0 1 [2, 3] [4]).WellFormed idleT.params = true ∧ (0#16).toNat % 2 = 0 :=
  ⟨idleT_inv, rfl, rfl, rfl, rfl⟩

theorem witness_FrameLeavesTheRest : ∃ t, exec (.frame 0 1 [2, 3] [4]) idleT = .next t ∧ t.err = false :=
  accepts_next (by decide +kernel)

theorem witness_DelayLinesHoldTheLastPushes :
    ∃ t, idleT.Inv ∧ (∀ i ∈ [Instr.frame 0 1 [2, 3] [4], .enc 0],
        i ≠ .init ∧ ∀ addr v, i ≠ .wrreg addr v) ∧
      execAll [.frame 0 1 [2, 3] [4], .enc 0] idleT = .next t ∧ t.err = false ∧
      framedGains [.frame 0 1 [2, 3] [4], .enc 0] ≠ [] := by
  have h : (match execAll [.frame 0 1 [2, 3] [4], .enc 0] idleT with
      | .next t => !t.err
      | .fault _ => false
      | .refused _ => false) = true := by decide +kernel
  split at h
  · exact ⟨_, idleT_inv, by simp, by assumption, by simpa using h, by simp [framedGains]⟩
  · cases h
  · cases h

theorem witness_PredictionIsTheOrderedNegativeDotProduct : readyT.lpcCur.length = readyT.lastSig.length := rfl

theorem witness_ZeroContextPredictsZero :
    ((∀ x ∈ [0#32, 0#32], x = 0x00000000#32) ∧ (∀ x ∈ [0x7F7FFFFF#32, 0x80000001#32], Num.isFinite x = true)) := by
  refine ⟨by simp, fun x hx => ?_⟩
  simp only [List.mem_cons, List.not_mem_nil, or_false] at hx
  rcases hx with rfl | rfl <;> decide

theorem witness_PredictAnswersTheBundle :
    readyT.Inv ∧ readyT.err = false ∧ readyT.phase = .pairReady ∧ readyT.lastSig[0]? = some 0x40800000 ∧
    readyT.lastSig[1]? = some 0x40000000 := ⟨readyT_inv, rfl, rfl, rfl, rfl⟩

theorem witness_CommitEmitsTheTwoSamples : waitT.Inv ∧ waitT.err = false ∧ waitT.phase = .pairWait :=
  ⟨waitT_inv, rfl, rfl⟩

theorem witness_QuantiserClampsAndRoundsHalfUp :
    Num.isNaN 0x7FC00000 = true ∧ Num.isFinite 0x46FFFE00 = true ∧ Num.isFinite 0xC6FFFF00 = true := by decide

theorem witness_EverySampleLiesInRange :
    waitT.params.consts = specConsts ∧ waitT.err = false ∧ waitT.phase = .pairWait := ⟨rfl, rfl, rfl⟩

theorem witness_NaNPatternsShowOnlyThroughRdreg :
    ∃ s t : State, SameButNaNs s t ∧ s.deemphMem ≠ t.deemphMem ∧ (Instr.commit 1 2).WellFormed s.params = true ∧
      ∀ addr, Instr.commit 1 2 ≠ .rdreg addr := by
  refine ⟨{ waitT with deemphMem := 0x7FC00000 }, { waitT with deemphMem := 0xFFC00001 }, ?_, ?_, rfl, by simp⟩ <;>
    decide +kernel

theorem witness_FrameProcedureYieldsItsSamples :
    ∃ s : State, s.Inv ∧ s.err = false ∧ s.phase = .idle ∧ s.frameCount.toNat = s.params.D ∧
      (4#16).toNat % 2 = 0 ∧ (FrameInputs.mk [1, 2] [3]).a.length = s.params.P ∧
      (FrameInputs.mk [1, 2] [3]).v.length = s.params.F := by
  refine ⟨{ idleT with frameCount := 2 }, ⟨paramsT_valid, ?_, ?_, ?_, ?_⟩, rfl, rfl, rfl, rfl, rfl, rfl⟩ <;>
    decide +kernel

theorem witness_AdditionRoundsToNearestEven :
    Num.isFinite 0x7F7FFFFF = true ∧ Num.isFinite 0x00000001 = true ∧ Num.isFinite (Num.fadd 0 0x3F800000 0x33800000) = true ∧
    Num.isFinite (Num.fadd 0 0x7F7FFFFF 0x7F7FFFFF) = false ∧ Num.isFinite (Num.fsub 0 0x3F800000 0xB3800000) = true ∧
    Num.isFinite (Num.fsub 0 0x7F7FFFFF 0xFF7FFFFF) = false := by decide +kernel

theorem witness_MultiplicationRoundsToNearestEven :
    Num.isFinite 0x3F800001 = true ∧ Num.isFinite (Num.fmul 0 0x3F800001 0x3F800001) = true ∧
    Num.isFinite (Num.fmul 0 0x7F7FFFFF 0x40000000) = false := by decide +kernel

theorem witness_SignsZerosAndInfinities :
    (Num.isFinite 0x80000000 = true ∧ Num.units 0x80000000 + Num.units 0x00000000 = 0) ∧
    Num.units 0x80000000 = Num.units 0x00000000 ∧ Num.isFinite (Num.fsub 0 0xFF7FFFFF 0x7F7FFFFF) = false ∧
    (Num.isInf 0x7F800000 = true ∧ Num.signBit 0xFF800000 ≠ Num.signBit 0x7F800000) ∧
    Num.isFinite (Num.fadd 0 0xFF7FFFFF 0xFF7FFFFF) = false ∧ Num.isInf 0xFF800000 = true ∧
    Num.isNaN (Num.fmul 0 0xFF800000 0x80000001) = false := by decide +kernel

theorem witness_ComparisonsAreOrdered :
    Num.isNaN 0x7F800001 = true ∧ Num.isFinite 0x80000000 = true ∧ Num.isFinite 0x7F7FFFFF = true ∧
    Num.isNaN 0x7F800000 = false ∧ Num.isNaN 0xFF800000 = false := by decide

end Sys2Proof.Tests
end

/-! Proofs of the statements about the state (10_state.md): the error latch (R35), the reset values (R38), the
sequencer (R37) and the registers `STATUS`, `FRAME_COUNT` and `LAST_EXC` (R43, R44, R46). -/

namespace Sys2Proof.Machine

/-! ### What one command and one step can do -/

/-- A command that is accepted found the latch clear, unless it is INIT or RDREG (R175). -/
theorem accepted_clear {i : Instr} {s t : State} (h : Accepted i s t) :
    i = .init ∨ (∃ addr, i = .rdreg addr) ∨ s.err = false := by
  cases i with
  | init => exact .inl rfl
  | rdreg addr => exact .inr (.inl ⟨addr, rfl⟩)
  | pitch | frame | predict | commit | enc | dec | wrreg => exact .inr (.inr h.1)

/-- A command that leaves the latch clear was accepted: a refusal sets it (R168). -/
theorem accepted_of_err_clear {i : Instr} {s t : State} (h : exec i s = .next t) (ht : t.err = false) :
    Accepted i s t := by
  rcases exec_cases h with ⟨e, -, rfl⟩ | ha
  · cases ht
  · exact ha

/-- A step that takes a reset clears the state (R185). -/
theorem step_reset {s : State} {rest : List PortEvent} (h : s.pending = .reset :: rest) :
    step s = .next (clearState { s with pending := rest }) := by
  rw [step, h]; rfl

/-- A step that takes a transaction refuses its word or accepts the command it spells. -/
theorem step_command_cases {s t : State} {w : Word} {pl : List Word} {rest : List PortEvent}
    (hp : s.pending = .command w pl :: rest) (h : step s = .next t) :
    (∃ op e, t = refusedState op e { s with pending := rest }) ∨
    (∃ i, decode s.params w pl = .instr i ∧ Accepted i { s with pending := rest } t) := by
  rcases step_cases h with ⟨h0, -⟩ | ⟨_, h0, -⟩ | ⟨_, _, _, i, h0, hd, he⟩ | ⟨_, _, _, _, h0, -, -, ht⟩
  · cases hp.symm.trans h0
  · cases hp.symm.trans h0
  · cases hp.symm.trans h0
    rcases exec_cases he with ⟨e, -, ht⟩ | ha
    · exact .inl ⟨_, e, ht⟩
    · exact .inr ⟨i, hd, ha⟩
  · cases hp.symm.trans h0
    exact .inl ⟨_, _, ht⟩

/-- Only the word 0 spells INIT (R66, R71). -/
theorem word_of_decode_init {p : Params} {w : Word} {pl : List Word} (h : decode p w pl = .instr .init) : w = 0 := by
  obtain ⟨hop, hm, hi⟩ := decode_instr_iff.mp h
  have h0 : 0 = (opField w).toNat := (decodeOperands_spec hi).2.2.1
  obtain ⟨hmid, hlow, -⟩ := (matches_iff w hop).mp hm
  have hlow := hlow (by simp [← h0])
  rw [toNat_opField] at h0
  have hz : (0 : Word).toNat = 0 := rfl
  apply BitVec.eq_of_toNat_eq
  omega

/-! ### The error latch (R35) -/

/-- The response of a refusal from a clear latch shows ERR and the code that the latch takes (R76, R168). -/
theorem refusedState_response (op : BitVec 4) (e : ErrCode) {s : State} (h : s.err = false) :
    ∃ r, (refusedState op e s).responses = s.responses ++ [r] ∧ r.header.getLsbD 27 = true ∧
      r.header.extractLsb' 23 4 = (refusedState op e s).errCode := by
  obtain ⟨-, herr, hcode, -⟩ := headerWord_fields op true (errNumber e) 0 s (by decide)
  refine ⟨_, rfl, herr, hcode.trans ?_⟩
  simp [h]

/-- Settles O11: a step on a command refuses it, which keeps a code that stands, or accepts it, which leaves the latch
as it was for all but INIT's word. -/
theorem errorLatchKeepsTheFirstCause : Obligations.ErrorLatchKeepsTheFirstCause := by
  refine ⟨fun p => ⟨rfl, rfl⟩, fun s t rest hp h => ?_, fun s t h => ?_, fun s t w pl rest hp h hs ht => ?_,
    fun s t w pl rest hp h hs hw => ?_⟩
  · cases (step_reset hp).symm.trans h
    exact ⟨rfl, rfl⟩
  · cases h
    exact ⟨rfl, rfl⟩
  · rcases step_command_cases hp h with ⟨op, e, rfl⟩ | ⟨i, -, ha⟩
    · exact refusedState_response op e (s := { s with pending := rest }) hs
    · rcases accepted_err ha with ⟨-, he, -⟩ | ⟨-, he, -⟩
      · cases he.symm.trans ht
      · cases hs.symm.trans (he.symm.trans ht)
  · rcases step_command_cases hp h with ⟨op, e, rfl⟩ | ⟨i, hd, ha⟩
    · exact ⟨rfl, if_pos hs⟩
    · rcases accepted_err ha with ⟨rfl, -⟩ | ⟨-, he, hc⟩
      · exact absurd (word_of_decode_init hd) hw
      · exact ⟨he.trans hs, hc⟩

/-! ### Reset values (R38) -/

theorem clearState_atResetValues (s : State) : AtResetValues (clearState s) := by
  simp [AtResetValues, clearState, State.resetOf, silence]

/-- Settles O17: hardware reset and INIT both go through `clearState`. -/
theorem resetAndInitGiveTheTableOfR38 : Obligations.ResetAndInitGiveTheTableOfR38 :=
  ⟨fun _ _ hp => ⟨_, step_reset hp, clearState_atResetValues _, rfl, rfl⟩,
   fun s => ⟨_, ⟨rfl, rfl⟩, clearState_atResetValues s, rfl⟩,
   clearState_atResetValues State.reset⟩

/-! ### The sequencer (R37) -/

/-- The phase after an opened frame: PAIR_READY where the gate is open and the frame holds a pair (R115, R116). -/
theorem openFrame_phase {n : BitVec 16} (s : State) (hn : n.toNat % 2 = 0) :
    (openFrame n s).phase =
      if s.params.D < (openFrame n s).frameCount.toNat ∧ 2 ≤ n.toNat then .pairReady else .idle := by
  have hz : n = 0#16 ↔ ¬ 2 ≤ n.toNat := by rw [← BitVec.toNat_inj, BitVec.toNat_zero]; omega
  have ha : active s = true ↔ s.params.D < s.frameCount.toNat := decide_eq_true_iff
  unfold openFrame
  split
  case isTrue h => by_cases h2 : 2 ≤ n.toNat <;> simp [ha.mp h, hz, h2]
  case isFalse h => simp [mt ha.mpr h]

/-- The phase in which R37 lists a command; none for those that every phase takes. -/
def listedPhase : Instr → Option Phase
  | .frame _ _ _ _ => some .idle
  | .wrreg _ _ => some .idle
  | .predict => some .pairReady
  | .commit _ _ => some .pairWait
  | .init => none
  | .pitch _ => none
  | .enc _ => none
  | .dec _ => none
  | .rdreg _ => none

/-- A command outside the phase it is listed for is refused with `E_PHASE` (R171). -/
theorem exec_misplaced {i : Instr} {s : State} {ph : Phase} (hi : i.WellFormed s.params = true) (he : s.err = false)
    (hl : listedPhase i = some ph) (hp : s.phase ≠ ph) : exec i s = .next (refusedState i.opcode .phase s) := by
  cases i with
  | frame n g a v =>
    cases hl
    simp only [Instr.WellFormed, Bool.and_eq_true, beq_iff_eq] at hi
    obtain ⟨ha, hv⟩ := hi
    simp [exec, execFrame, ha, hv, latchBlocks_of_clear _ he, hp, raise_eq, Instr.opcode]
  | wrreg addr v => cases hl; simp [exec, execWrreg, latchBlocks_of_clear _ he, hp, raise_eq, Instr.opcode]
  | predict => cases hl; simp [exec, execPredict, latchBlocks_of_clear _ he, hp, raise_eq, Instr.opcode]
  | commit e1 e0 => cases hl; simp [exec, execCommit, latchBlocks_of_clear _ he, hp, raise_eq, Instr.opcode]
  | init | pitch | enc | dec | rdreg => cases hl

/-- A command that leaves the latch set moves no phase: it was refused, or it was an RDREG under a latch (R37, R175). -/
theorem exec_phase_of_err {i : Instr} {s t : State} (h : exec i s = .next t) (ht : t.err = true) :
    t.phase = s.phase := by
  rcases exec_cases h with ⟨e, -, rfl⟩ | ha
  · rfl
  · rcases accepted_clear ha with rfl | ⟨addr, rfl⟩ | hs
    · subst ha; cases ht
    · obtain ⟨r, -, rfl⟩ := ha; rfl
    · rcases accepted_err ha with ⟨-, he, -⟩ | ⟨-, he, -⟩
      · cases he.symm.trans ht
      · cases hs.symm.trans (he.symm.trans ht)

/-- Settles O22: what `Accepted` says of each command, `E_PHASE` outside the listed phase, and that INIT and reset
clear the state. -/
theorem sequencerFollowsR37 : Obligations.SequencerFollowsR37 := by
  refine ⟨fun i s t _ _ h ht => ?_, fun i s hi he hl => ?_, fun i s t => exec_phase_of_err,
    fun s => ⟨_, rfl, rfl⟩, fun s rest hp => ⟨_, step_reset hp, rfl⟩⟩
  · have ha := accepted_of_err_clear h ht
    cases i with
    | init => subst ha; rfl
    | frame n g a v =>
      obtain ⟨-, -, -, hp, hn, rfl⟩ := ha
      exact ⟨hp, openFrame_phase _ hn⟩
    | predict => obtain ⟨-, hp, rfl⟩ := ha; exact ⟨hp, rfl⟩
    | commit e1 e0 => obtain ⟨-, hp, rfl⟩ := ha; exact ⟨hp, rfl⟩
    | wrreg addr v => obtain ⟨-, hp, r, -, -, rfl⟩ := ha; exact ⟨hp, by simp [hp]⟩
    | pitch f => obtain ⟨-, rfl⟩ := ha; rfl
    | enc x => obtain ⟨-, rfl⟩ := ha; rfl
    | dec u => obtain ⟨-, rfl⟩ := ha; rfl
    | rdreg addr => obtain ⟨r, -, rfl⟩ := ha; rfl
  · cases i with
    | frame | wrreg | predict | commit => exact exec_misplaced hi he rfl hl
    | init | pitch | enc | dec | rdreg => exact hl.elim

/-! ### Register access by address (R153, R156) -/

/-- RDREG of a mapped register completes with its content and leaves the rest of the state (R52, R153). -/
theorem completes_rdreg {addr : Addr} {r : Reg} {s : State} (h : regAt s.params addr = some r) :
    Completes (.rdreg addr) s (respond 7 [memRead r s] s) [memRead r s] ∧
      OnlyAnswered s (respond 7 [memRead r s] s) :=
  ⟨⟨exec_of_accepted ⟨r, h, rfl⟩, rfl⟩, rfl⟩

/-- WRREG of a writable register completes with no data (R156, R158). -/
theorem completes_wrreg {addr : Addr} {r : Reg} {s : State} (v : Word) (he : s.err = false) (hp : s.phase = .idle)
    (h : regAt s.params addr = some r) (hw : regWritable r = true) :
    Completes (.wrreg addr v) s (respond 8 [] (memWrite r v s)) [] :=
  ⟨exec_of_accepted ⟨he, hp, r, h, hw, rfl⟩, by rw [respond_responses, memWrite_responses]; rfl⟩

/-- WRREG of a mapped register without access `RW` is refused with `E_RO` (R174). -/
theorem exec_wrreg_readOnly {addr : Addr} {r : Reg} {s : State} (v : Word) (he : s.err = false) (hp : s.phase = .idle)
    (h : regAt s.params addr = some r) (hw : regWritable r = false) :
    exec (.wrreg addr v) s = .next (refusedState 8 .ro s) := by
  simp [exec, execWrreg, latchBlocks_of_clear _ he, hp, h, hw, raise_eq]

/-- At reset `STATUS` shows IDLE, the gate closed, no error and no pair due (R43). -/
theorem statusWord_resetOf (p : Params) : statusWord (State.resetOf p) = 0 := by
  have ha : active (State.resetOf p) = false := by simp [active, State.resetOf]
  rw [statusWord, ha]
  change 0#16 ++ 0#8 ++ 0#4 ++ BitVec.ofBool false ++ BitVec.ofBool false ++ phaseCode .idle = 0#32
  decide

/-- Settles O28: `STATUS` reads as `statusWord` and has no access `RW`. -/
theorem statusRegisterFields : Obligations.StatusRegisterFields := by
  refine ⟨fun s => ?_, fun p => ?_, fun s v he hp => exec_wrreg_readOnly v he hp (r := .status) rfl rfl⟩
  · obtain ⟨hc, ho⟩ := completes_rdreg (addr := 8) (r := .status) (s := s) rfl
    exact ⟨_, _, hc, ho, statusWord_fields s⟩
  · have hc := (completes_rdreg (addr := 8) (r := .status) (s := State.resetOf p) rfl).1
    rw [memRead, statusWord_resetOf] at hc
    exact ⟨_, hc⟩

/-- Settles O29: the cap is below 2^16 for valid parameters (R10), so the saturated count is kept whole. -/
theorem frameCountRegister : Obligations.FrameCountRegister := by
  refine ⟨fun s => ?_, fun s v hv he hp => ?_, fun p => rfl⟩
  · obtain ⟨hc, ho⟩ := completes_rdreg (addr := 9) (r := .frameCount) (s := s) rfl
    refine ⟨_, _, hc, ho, ?_⟩
    rw [memRead, BitVec.toNat_setWidth_of_le (by decide)]
  · obtain ⟨-, -, -, -, -, -, -, -, hcap⟩ := hv.1
    exact ⟨_, completes_wrreg v he hp (r := .frameCount) rfl rfl, toNat_min_cap (by omega), rfl⟩

/-- The fields of `LAST_EXC`, each where R46 puts it. -/
theorem lastExcWord_fields (exc0 exc1 : Code) :
    (0#16 ++ exc1 ++ exc0 : Word).extractLsb' 0 8 = exc0 ∧ (0#16 ++ exc1 ++ exc0 : Word).extractLsb' 8 8 = exc1 ∧
    (0#16 ++ exc1 ++ exc0 : Word).extractLsb' 16 16 = 0 := by
  have h0 := exc0.isLt
  have h1 := exc1.isLt
  have hz : (0 : BitVec 16).toNat = 0 := rfl
  refine ⟨?_, ?_, ?_⟩ <;> apply BitVec.eq_of_toNat_eq <;>
    rw [toNat_extract, toNat_append_eq, toNat_append_eq, BitVec.toNat_zero] <;> omega

/-- At reset `LAST_EXC` shows two silent codes (R46). -/
theorem memRead_lastExc_resetOf (p : Params) : memRead .lastExc (State.resetOf p) = 0x00008080 :=
  show 0#16 ++ silence ++ silence = 0x00008080#32 by decide

/-- Settles O30: a read concatenates the two codes under zeros and a write stores the two low bytes. -/
theorem lastExcRegister : Obligations.LastExcRegister := by
  refine ⟨fun s => ?_, fun s v he hp => ?_, fun p => ?_⟩
  · obtain ⟨hc, ho⟩ := completes_rdreg (addr := 11) (r := .lastExc) (s := s) rfl
    exact ⟨_, _, hc, ho, lastExcWord_fields s.lastExc0 s.lastExc1⟩
  · exact ⟨_, completes_wrreg v he hp (r := .lastExc) rfl rfl, rfl, rfl, rfl⟩
  · have hc := (completes_rdreg (addr := 11) (r := .lastExc) (s := State.resetOf p) rfl).1
    rw [memRead_lastExc_resetOf] at hc
    exact ⟨_, hc⟩

end Sys2Proof.Machine

/-! Proofs of the statements about command words and their answers (30_encoding.md): what the decoder makes of a word
(R70 to R72), the two refusals of a word that spells no command (R169, R170), and the one response (R73 to R76). -/

namespace Sys2Proof.Machine

/-! ### The decoder's three answers (R72) -/

/-- `(w & mask) = match` in terms of the fields that R71 names. -/
theorem matches_iff_fields (w : Word) (hop : (opField w).toNat < 9) :
    w &&& rowMask (opField w) = rowMatch (opField w) ↔
      w.extractLsb' 16 12 = 0 ∧ ((opField w).toNat ∈ [0, 1, 3, 5] → immField w = 0) ∧
        ((opField w).toNat = 6 → w.extractLsb' 8 8 = 0) := by
  rw [matches_iff w hop, ← BitVec.toNat_inj (x := w.extractLsb' 16 12), ← BitVec.toNat_inj (x := immField w),
    ← BitVec.toNat_inj (x := w.extractLsb' 8 8), toNat_extract, toNat_extract, toNat_immField]
  rfl

/-- A 1 in a must-be-zero bit of R71 decodes to `E_RESERVED`, whatever the payload. -/
theorem decode_of_mustBeZero_set {p : Params} {w : Word} {pl : List Word} (hop : (opField w).toNat < 9)
    (hbit : w.extractLsb' 16 12 ≠ 0 ∨ ((opField w).toNat ∈ [0, 1, 3, 5] ∧ immField w ≠ 0) ∨
      ((opField w).toNat = 6 ∧ w.extractLsb' 8 8 ≠ 0)) : decode p w pl = .refuse .reserved := by
  refine decode_reserved hop fun hm => ?_
  obtain ⟨hrsv, himm, hdec⟩ := (matches_iff_fields w hop).mp hm
  rcases hbit with h | ⟨hmem, h⟩ | ⟨h6, h⟩
  · exact h hrsv
  · exact h (himm hmem)
  · exact h (hdec h6)

theorem noPayload_of_length {i : Instr} {pl : List Word} (h : pl.length = 0) : ∃ j, noPayload i pl = some j :=
  ⟨_, noPayload_eq_some.mpr ⟨List.length_eq_zero_iff.mp h, rfl⟩⟩

theorem onePayload_of_length {f : Word → Instr} {pl : List Word} (h : pl.length = 1) :
    ∃ j, onePayload f pl = some j := by
  obtain ⟨x, rfl⟩ := List.length_eq_one_iff.mp h
  exact ⟨f x, rfl⟩

theorem framePayload_of_length {p : Params} {n : BitVec 16} {pl : List Word} (h : pl.length = 1 + p.P + p.F) :
    ∃ j, framePayload p n pl = some j := by
  cases pl with
  | nil => simp at h; omega
  | cons g rest => exact ⟨_, if_pos (by rw [List.length_cons] at h; omega)⟩

/-- A payload of the length that R68 fixes for a defined opcode spells a command. -/
theorem decodeOperands_of_length {p : Params} {op : BitVec 4} (imm : BitVec 16) {pl : List Word} (hop : op.toNat < 9)
    (h : pl.length = payloadWords p op) : ∃ i, decodeOperands p op.toNat imm pl = some i := by
  unfold payloadWords at h
  generalize op.toNat = k at hop h ⊢
  interval_cases k
  · exact noPayload_of_length h
  · exact onePayload_of_length h
  · exact framePayload_of_length h
  · exact noPayload_of_length h
  · exact noPayload_of_length h
  · exact onePayload_of_length h
  · exact noPayload_of_length h
  · exact noPayload_of_length h
  · exact onePayload_of_length h

/-- A decoded command is well formed and has the word's opcode (R67, R68). -/
theorem decode_instr_spec {p : Params} {w : Word} {pl : List Word} {i : Instr} (h : decode p w pl = .instr i) :
    i.WellFormed p = true ∧ i.opcode = opField w := by
  obtain ⟨-, -, hi⟩ := decode_instr_iff.mp h
  obtain ⟨hwf, -, hop, -⟩ := decodeOperands_spec hi
  exact ⟨hwf, BitVec.eq_of_toNat_eq hop⟩

/-- Settles O3: by opcode, then by the must-be-zero bits; what is left has a payload that spells a command. -/
theorem decoderSortsEveryWord : Obligations.DecoderSortsEveryWord := by
  refine fun p w pl => ⟨decode_opcode, decode_of_mustBeZero_set, fun hop hrsv himm hdec hlen => ?_⟩
  obtain ⟨i, hi⟩ := decodeOperands_of_length (immField w) hop hlen
  have hd : decode p w pl = .instr i :=
    decode_instr_iff.mpr ⟨hop, (matches_iff_fields w hop).mpr ⟨hrsv, himm, hdec⟩, hi⟩
  exact ⟨i, hd, (decode_instr_spec hd).2⟩

/-! ### Words that spell no command (R169, R170) -/

/-- The latch stops every reserved opcode: the two that pass it, INIT and RDREG, are defined (R175). -/
theorem latchBlocks_of_reserved {op : BitVec 4} (s : State) (h : 9 ≤ op.toNat) : latchBlocks op s = s.err := by
  have h0 : op ≠ 0 := by rintro rfl; simp at h
  have h7 : op ≠ 7 := by rintro rfl; simp at h
  rw [latchBlocks, bne_iff_ne.mpr h0, bne_iff_ne.mpr h7, Bool.and_true, Bool.and_true]

/-- Settles O8: the decoder answers `E_OPCODE`, and the check of the latch comes first. -/
theorem reservedOpcodeIsRefused : Obligations.ReservedOpcodeIsRefused := by
  intro s w pl rest hp hop
  rw [step_refuse hp (decode_opcode hop), latchBlocks_of_reserved s hop]

/-- Settles O9: the decoder answers `E_RESERVED`, and the check of the latch comes first. -/
theorem reservedBitIsRefused : Obligations.ReservedBitIsRefused := by
  intro s w pl rest hp hop hbit
  rw [step_refuse hp (decode_of_mustBeZero_set hop hbit), if_congr latchBlocks_eq_true rfl rfl]

/-! ### The one response (R73 to R76) -/

/-- From `s` a command with opcode `op` leaves `t` with exactly one response more, laid out as R74 says; with ERR = 1
it is a refusal, and nothing else changed (R76). -/
def AnswersOnce (op : BitVec 4) (s t : State) : Prop :=
  ∃ r, t.responses = s.responses ++ [r] ∧
    r.header.extractLsb' 28 4 = op ∧
    r.header.extractLsb' 19 4 = 0 ∧
    r.header.getLsbD 18 = active t ∧
    r.header.extractLsb' 16 2 = phaseCode t.phase ∧
    (r.header.extractLsb' 0 16).toNat = r.data.length ∧
    (r.header.getLsbD 27 = false → r.header.extractLsb' 23 4 = 0) ∧
    (r.header.getLsbD 27 = true → ∃ e, r.header.extractLsb' 23 4 = errNumber e ∧ t = refusedState op e s)

theorem refusedState_answersOnce (op : BitVec 4) (e : ErrCode) (s : State) :
    AnswersOnce op s (refusedState op e s) := by
  obtain ⟨hop, herr, hcode, hzero, hactive, hphase, hndata⟩ :=
    headerWord_fields op true (errNumber e) 0 s (by decide)
  exact ⟨_, rfl, hop, hzero, hactive, hphase, hndata, fun h => (nomatch herr.symm.trans h),
    fun _ => ⟨e, hcode, rfl⟩⟩

theorem accepted_answersOnce {i : Instr} {s t : State} (h : Accepted i s t) : AnswersOnce i.opcode s t := by
  obtain ⟨data, hlen, hresp⟩ := accepted_response h
  obtain ⟨hop, herr, hcode, hzero, hactive, hphase, hndata⟩ := headerWord_fields i.opcode false 0 data.length t hlen
  exact ⟨_, hresp, hop, hzero, hactive, hphase, hndata, fun _ => hcode, fun h => (nomatch herr.symm.trans h)⟩

/-- A well-formed command is answered once, refused or accepted (R73). -/
theorem exec_answersOnce {i : Instr} {s : State} (hi : i.WellFormed s.params = true) :
    ∃ t, exec i s = .next t ∧ AnswersOnce i.opcode s t := by
  obtain ⟨t, ht⟩ := exec_total hi
  rcases exec_cases ht with ⟨e, -, rfl⟩ | ha
  · exact ⟨_, ht, refusedState_answersOnce i.opcode e s⟩
  · exact ⟨t, ht, accepted_answersOnce ha⟩

/-- A step on a transaction that spells a command executes it in the state without that transaction (R59). -/
theorem step_instr {s : State} {w : Word} {pl : List Word} {rest : List PortEvent} {i : Instr}
    (h : s.pending = .command w pl :: rest) (hd : decode s.params w pl = .instr i) :
    step s = exec i { s with pending := rest } := by
  rw [step, h]
  simp only [handleEvent, runTransaction, hd]

/-- Settles O10: the word is refused as it stands, or it spells a well-formed command, which answers once. -/
theorem everyCommandGetsOneResponse : Obligations.EveryCommandGetsOneResponse := by
  intro s w pl rest _ hp hframed
  suffices h : ∃ t, step s = .next t ∧ AnswersOnce (opField w) { s with pending := rest } t by
    obtain ⟨t, hstep, r, hr⟩ := h
    exact ⟨t, r, hstep, hr⟩
  cases hd : decode s.params w pl with
  | unframed => exact absurd hd hframed
  | refuse e => exact ⟨_, step_refuse hp hd, refusedState_answersOnce _ _ _⟩
  | instr i =>
    obtain ⟨hwf, hop⟩ := decode_instr_spec hd
    rw [step_instr hp hd, ← hop]
    exact exec_answersOnce (s := { s with pending := rest }) hwf

end Sys2Proof.Machine

/-! Proofs of the statements about the compander (40_compander.md): the commands ENC and DEC. -/

namespace Sys2Proof.Machine

/-! ### ENC and DEC complete in every phase (R99, R100) -/

/-- ENC under a clear latch completes with the code, and only the response port changes (R99). -/
theorem completes_enc (x : F32) {s : State} (he : s.err = false) :
    Completes (.enc x) s (respond 5 [(encode8 s.params x).setWidth 32] s) [(encode8 s.params x).setWidth 32] ∧
      OnlyAnswered s (respond 5 [(encode8 s.params x).setWidth 32] s) :=
  ⟨⟨exec_of_accepted ⟨he, rfl⟩, rfl⟩, rfl⟩

/-- DEC under a clear latch completes with the amplitude, and only the response port changes (R100). -/
theorem completes_dec (u : Code) {s : State} (he : s.err = false) :
    Completes (.dec u) s (respond 6 [decode8 s.params u] s) [decode8 s.params u] ∧
      OnlyAnswered s (respond 6 [decode8 s.params u] s) :=
  ⟨⟨exec_of_accepted ⟨he, rfl⟩, rfl⟩, rfl⟩

/-! ### The code and the table entry (R91, R92) -/

theorem encode8_le (p : Params) (x : F32) : (encode8 p x).toNat ≤ 255 := Nat.le_of_lt_succ (encode8 p x).isLt

/-- The thresholds that `x` reaches are the first ones, up to its code (R92, R94). -/
theorem reached_eq_Icc {p : Params} (hp : p.Valid) (x : F32) :
    (Finset.Icc 1 255).filter (fun k => Num.fge x (p.thrAt k) = true) = Finset.Icc 1 (encode8 p x).toNat := by
  have hle := encode8_le p x
  ext k
  rw [Finset.mem_filter, Finset.mem_Icc, Finset.mem_Icc]
  constructor
  · rintro ⟨⟨h1, hk⟩, hge⟩
    exact ⟨h1, (le_encode8_iff hp x h1 hk).mpr hge⟩
  · rintro ⟨h1, hk⟩
    exact ⟨⟨h1, hk.trans hle⟩, (le_encode8_iff hp x h1 (hk.trans hle)).mp hk⟩

/-- A code that is not 0 is the index of a threshold that `x` reaches (R92). -/
theorem encode8_reached {p : Params} (hp : p.Valid) (x : F32) :
    (encode8 p x).toNat = 0 ∨ Num.fge x (p.thrAt (encode8 p x).toNat) = true :=
  (Nat.eq_zero_or_pos _).imp_right fun h => (le_encode8_iff hp x h (encode8_le p x)).mp le_rfl

/-- `x` reaches no threshold above its code (R92). -/
theorem not_reached_above_encode8 {p : Params} (hp : p.Valid) (x : F32) {k : Nat} (h : (encode8 p x).toNat < k)
    (hk : k ≤ 255) : Num.fge x (p.thrAt k) = false :=
  Bool.eq_false_iff.mpr fun hge => h.not_ge ((le_encode8_iff hp x (by omega) hk).mpr hge)

/-- The decoder table has an entry for every code (R93). -/
theorem getElem?_DEC {p : Params} (hd : p.DecOk) (u : Code) : p.DEC[u.toNat]? = some (decode8 p u) := by
  have hu : u.toNat < p.DEC.length := hd.1.symm ▸ u.isLt
  rw [decode8, Params.decAt, List.getD_eq_getElem _ _ hu, List.getElem?_eq_getElem hu]

/-- Settles O36: the thresholds reached are `1` to the code, so their count and the largest of them are the code. -/
theorem encAnswersTheThresholdCount : Obligations.EncAnswersTheThresholdCount := by
  intro x s hv he
  obtain ⟨hc, ho⟩ := completes_enc x he
  refine ⟨_, _, hc, ho, ?_⟩
  rw [BitVec.toNat_setWidth_of_le (by decide), reached_eq_Icc hv, Nat.card_Icc, Nat.add_sub_cancel]
  exact ⟨rfl, encode8_le _ x, encode8_reached hv x, fun _ => not_reached_above_encode8 hv x⟩

/-- Settles O37: the table of a valid instance has an entry for every code. -/
theorem decAnswersTheTableEntry : Obligations.DecAnswersTheTableEntry := by
  rintro u s ⟨-, hd, -, -⟩ he
  obtain ⟨hc, ho⟩ := completes_dec u he
  exact ⟨_, _, hc, ho, getElem?_DEC hd u⟩

end Sys2Proof.Machine

/-! Proofs of the statements about the frame step (41_frame_alignment.md): the pitch lag (R106), the delay lines (R108)
and the outcome of FRAME (R113 to R116). -/

namespace Sys2Proof.Machine

/-! ### The pitch lag (R106, R107) -/

/-- PITCH under a clear latch completes in every phase with the lag, and only the response port changes (R107). -/
theorem completes_pitch (f : F32) {s : State} (he : s.err = false) :
    Completes (.pitch f) s (respond 1 [BitVec.ofNat 32 (pitchLag s.params.consts f)] s)
        [BitVec.ofNat 32 (pitchLag s.params.consts f)] ∧
      OnlyAnswered s (respond 1 [BitVec.ofNat 32 (pitchLag s.params.consts f)] s) :=
  ⟨⟨exec_of_accepted ⟨he, rfl⟩, rfl⟩, rfl⟩

/-- The integer division of `lagFloor` is the floor of the rational lag formula: numerator and denominator are the
formula's, both scaled by the bias's denominator and by the units of 1.0. -/
theorem lagFloor_eq_floor {k : Consts} (hk : 0 < k.lagBiasDen) (f : F32) :
    lagFloor k f = ⌊(k.lagBiasNum / k.lagBiasDen : ℚ) + k.lagScale * Num.real f + k.lagOffset⌋ := by
  rw [lagFloor, ← Rat.floor_intCast_div_natCast, Num.real]
  have hden : (k.lagBiasDen : ℚ) ≠ 0 := by positivity
  congr 1
  push_cast [Num.one]
  field_simp
  ring

theorem pitchLag_of_isNaN (k : Consts) {f : F32} (hf : Num.isNaN f = true) : pitchLag k f = k.lagMin := if_pos hf

/-- For a finite feature the lag is the clamped floor (R106). -/
theorem pitchLag_of_isFinite (k : Consts) {f : F32} (hf : Num.isFinite f = true) :
    (pitchLag k f : Int) = min (k.lagMax : Int) (max (k.lagMin : Int) (lagFloor k f)) := by
  simp only [pitchLag, Num.isNaN_of_isFinite hf, Num.isInf_of_isFinite hf, Bool.false_eq_true, if_false]
  omega

/-- Every lag lies within the lag bounds (R106). -/
theorem pitchLag_bounds {k : Consts} (hk : k.lagMin ≤ k.lagMax) (f : F32) :
    k.lagMin ≤ pitchLag k f ∧ pitchLag k f ≤ k.lagMax := by
  unfold pitchLag
  split
  · exact ⟨le_rfl, hk⟩
  · split
    · split
      · exact ⟨le_rfl, hk⟩
      · exact ⟨hk, le_rfl⟩
    · omega

/-- Settles O35: the answer is the lag, which 32 bits hold, and `lagFloor` is the exact floor. -/
theorem pitchIsTheClampedExactFloor : Obligations.PitchIsTheClampedExactFloor := by
  intro f s hc he
  obtain ⟨hcomp, honly⟩ := completes_pitch f he
  obtain ⟨hlow, hhigh⟩ : 33 ≤ pitchLag specConsts f ∧ pitchLag specConsts f ≤ 255 :=
    pitchLag_bounds (k := specConsts) (by decide) f
  have hw : (BitVec.ofNat 32 (pitchLag s.params.consts f)).toNat = pitchLag specConsts f := by
    rw [hc, BitVec.toNat_ofNat, Nat.mod_eq_of_lt (by omega)]
  refine ⟨_, _, hcomp, honly, ?_⟩
  rw [hw]
  refine ⟨hlow, hhigh, fun hf => ?_, pitchLag_of_isNaN specConsts, ?_, ?_⟩
  · rw [pitchLag_of_isFinite _ hf, lagFloor_eq_floor (by decide)]
    norm_num [specConsts]
  · rintro rfl; rfl
  · rintro rfl; rfl

/-! ### What an accepted FRAME leaves (R110 to R116) -/

/-- A well-formed FRAME with even `n` in IDLE under a clear latch is accepted (R110). -/
theorem exec_frame_of_wellFormed {n : BitVec 16} {g : F32} {a v : List F32} {s : State} (he : s.err = false)
    (hp : s.phase = .idle) (hwf : (Instr.frame n g a v).WellFormed s.params = true) (hn : n.toNat % 2 = 0) :
    exec (.frame n g a v) s = .next (openFrame n (alignFrame g a v s)) := by
  simp only [Instr.WellFormed, Bool.and_eq_true, beq_iff_eq] at hwf
  obtain ⟨ha, hv⟩ := hwf
  exact exec_of_accepted ⟨he, ha, hv, hp, hn, rfl⟩

/-- A push onto a line of depth `d` keeps the `d` newest values, and the oldest slot can be read (R108). -/
theorem push_line {α : Type} {line : List α} {d : Nat} (hl : line.length = d) (hd : 1 ≤ d) (x dflt : α) :
    push line x = (x :: line).take d ∧ (push line x)[d - 1]? = some ((push line x).getD (d - 1) dflt) :=
  ⟨hl ▸ push_eq_take line x (ne_nil_of_length hl hd), oldest_getD line x dflt hl hd⟩

/-- Settles O42: a warm-up frame and an active one push the same lines and latch the same slots. -/
theorem frameShiftsAndAligns : Obligations.FrameShiftsAndAligns := by
  intro n g a v s hs he hp hwf hn
  obtain ⟨-, -, hd, -⟩ := hs.valid.1
  obtain ⟨hgain, hlpc, -, hfeat, -⟩ := hs.shaped
  obtain ⟨hg, hgcur⟩ := push_line hgain hd g 0
  obtain ⟨hv, -⟩ := push_line hfeat hd v []
  obtain ⟨ha, hacur⟩ := push_line hlpc hd a []
  have hexec := exec_frame_of_wellFormed he hp hwf hn
  cases hgate : active (alignFrame g a v s)
  case false =>
    rw [openFrame_warmUp hgate] at hexec
    exact ⟨_, _, ⟨hexec, rfl⟩, hg, hgcur, hv, ha, hacur⟩
  case true =>
    rw [openFrame_active hgate] at hexec
    exact ⟨_, _, ⟨hexec, rfl⟩, hg, hgcur, hv, ha, hacur⟩

/-- Settles O43: the gate reads the counter after the increment, and each side of it has its own outcome. -/
theorem frameCountsAndGates : Obligations.FrameCountsAndGates := by
  intro n g a v s hs he hp hwf hn
  obtain ⟨-, -, -, -, -, -, -, -, hcap⟩ := hs.valid.1
  have hcount := frameCount_alignFrame g a v hcap
  have hexec := exec_frame_of_wellFormed he hp hwf hn
  refine ⟨openFrame n (alignFrame g a v s), ?_⟩
  cases hgate : active (alignFrame g a v s)
  case false =>
    have hwarm : (alignFrame g a v s).frameCount.toNat ≤ s.params.D := by
      simpa [active_alignFrame] using hgate
    rw [openFrame_warmUp hgate] at hexec ⊢
    exact ⟨hcount, (if_pos hwarm).mpr ⟨⟨hexec, rfl⟩, rfl, rfl⟩⟩
  case true =>
    have hactive : ¬ (alignFrame g a v s).frameCount.toNat ≤ s.params.D := by
      simpa [active_alignFrame] using hgate
    have hpairs : (n >>> 1).toNat = n.toNat / 2 := by simp [Nat.shiftRight_one]
    rw [openFrame_active hgate] at hexec ⊢
    exact ⟨hcount, (if_neg hactive).mpr ⟨⟨hexec, rfl⟩, hpairs, rfl⟩⟩

end Sys2Proof.Machine

/-! Proofs of the statements about pair synthesis (42_pair_synthesis.md): the prediction (R125), PREDICT (R137), COMMIT
(R127 to R131, R139, R143) and the quantiser (R134). -/

namespace Sys2Proof.Machine

/-! ### The prediction (R125) -/

/-- The term of tap `j` taken from the accumulator (R125), with the free bits of the statement. -/
def subtractTap (c s : List F32) (acc : F32) (j : Nat) : F32 :=
  Num.fsub 0 acc (Num.fmul 0 (s.getD j 0) (c.getD j 0))

/-- Tap 0 first, then the taps of the tails: the fold over indices unrolls at its front. -/
theorem foldl_subtractTap_cons (c s : List F32) (x y acc : F32) (n : Nat) :
    (List.range (n + 1)).foldl (subtractTap (y :: c) (x :: s)) acc =
      (List.range n).foldl (subtractTap c s) (Num.fsub 0 acc (Num.fmul 0 x y)) := by
  rw [List.range_succ_eq_map, List.foldl_cons, List.foldl_map]
  rfl

/-- The accumulation over the two lists is the fold over indices, whatever the free bits (R15, R125). -/
theorem lpcAccumulate_same_foldl (epoch : Nat) {s : List F32} :
    ∀ {c : List F32} (j : Nat) {acc acc' : F32}, c.length = s.length → Num.Same acc acc' →
      Num.Same (lpcAccumulate epoch j acc s c) ((List.range s.length).foldl (subtractTap c s) acc') := by
  induction s with
  | nil => exact fun _ _ _ _ hacc => by simpa [lpcAccumulate] using hacc
  | cons x s ih =>
    intro c j acc acc' hlen hacc
    cases c with
    | nil => cases hlen
    | cons y c =>
      rw [lpcAccumulate, List.length_cons, foldl_subtractTap_cons]
      exact ih _ (Nat.succ.inj hlen) (Num.same_fsub _ _ hacc (Num.same_fmul _ _ (.refl x) (.refl y)))

/-- Settles O46: by induction over the taps, from an accumulator that is the same up to the pattern of a NaN. -/
theorem predictionIsTheOrderedNegativeDotProduct : Obligations.PredictionIsTheOrderedNegativeDotProduct :=
  fun epoch _ _ hlen => lpcAccumulate_same_foldl epoch 0 hlen (.refl _)

/-- The epoch of free patterns shows in no prediction but a NaN. -/
theorem lpcPredict_same_epoch (e e' : Nat) (c s : List F32) : Num.Same (lpcPredict e c s) (lpcPredict e' c s) :=
  lpcPredict_same e e' c (forall₂_same_refl s)

/-! ### PREDICT (R137, R142) -/

/-- The code in a bundle word is that of the tap it names (R137). -/
theorem encode8_getD_of_getElem? (p : Params) {l : List F32} {i : Nat} {x : F32} (h : l[i]? = some x) :
    encode8 p (l.getD i 0) = encode8 p x := by
  rw [List.getD_eq_getElem?_getD, h, Option.getD_some]

/-- PREDICT in PAIR_READY under a clear latch completes with the bundle (R142). -/
theorem completes_predict {s : State} (he : s.err = false) (hp : s.phase = .pairReady) :
    Completes .predict s
      (respond 3 (bundle s) { s with pred1 := currentPrediction s, phase := .pairWait, nanEpoch := s.nanEpoch + 1 })
      (bundle s) :=
  ⟨exec_of_accepted ⟨he, hp, rfl⟩, rfl⟩

/-- Settles O48: the answer is `bundle`, whose two words have the fields of R75. -/
theorem predictAnswersTheBundle : Obligations.PredictAnswersTheBundle := by
  intro s _ he hp
  obtain ⟨hsig0, hpred0, hexc0, hzero0⟩ := bundleWord_fields s.lastExc0
    (encode8 s.params (currentPrediction s)) (encode8 s.params (s.lastSig.getD 0 0))
  obtain ⟨hsig1, hpred1, hexc1, hzero1⟩ := bundleWord_fields s.lastExc1
    (encode8 s.params (currentPrediction s)) (encode8 s.params (s.lastSig.getD 1 0))
  exact ⟨_, _, _, completes_predict he hp, lpcPredict_same_epoch _ _ _ _, rfl,
    fun _ hx => hsig0.trans (encode8_getD_of_getElem? _ hx), fun _ hx => hsig1.trans (encode8_getD_of_getElem? _ hx),
    hpred0, hpred1, hexc0, hexc1, hzero0, hzero1, rfl⟩

/-! ### COMMIT (R127 to R131, R139, R143) -/

/-- The data words of a COMMIT: the quantised samples in chronological order, sign-extended (R75, R140). -/
abbrev committedSamples (e1 e0 : Code) (s : State) : List Word :=
  [(BitVec.ofInt 16 (quant s.params.consts (memFirst e1 s))).signExtend 32,
   (BitVec.ofInt 16 (quant s.params.consts (memSecond e1 e0 s))).signExtend 32]

/-- COMMIT in PAIR_WAIT under a clear latch completes with its two samples (R143). -/
theorem completes_commit (e1 e0 : Code) {s : State} (he : s.err = false) (hp : s.phase = .pairWait) :
    Completes (.commit e1 e0) s
      (respond 4 (committedSamples e1 e0 s) (closePair (commitSecond e0 (commitFirst e1 s).2).2))
      (committedSamples e1 e0 s) := by
  obtain ⟨hout1, hout0⟩ := commit_samples e1 e0 s
  exact ⟨exec_of_accepted ⟨he, hp, by rw [hout1, hout0]⟩, rfl⟩

/-- A sample read back from its 16 bits is the quantiser's value (R134, R140). -/
theorem toInt_quant {k : Consts} (hk : k.clampBound ≤ 32767) (y : F32) :
    (BitVec.ofInt 16 (quant k y)).toInt = quant k y := by
  have hb := quant_bounds hk y
  exact (sample_words (by omega)).1

theorem reconstruct_same (epoch : Nat) (p : Params) (pred : F32) (e : Code) :
    Num.Same (reconstruct epoch p pred e) (Num.fadd 0 pred (p.decAt e.toNat)) :=
  Num.same_fadd _ _ (.refl _) (.refl _)

theorem deemphasise_same (epoch : Nat) (k : Consts) (pcm mem : F32) :
    Num.Same (deemphasise epoch k pcm mem) (Num.fadd 0 pcm (Num.fmul 0 k.preemph mem)) :=
  Num.same_fadd _ _ (.refl _) (Num.same_fmul _ _ (.refl _) (.refl _))

/-- Outside IDLE a pair is due, so the countdown does not wrap (R33). -/
theorem toNat_pairsLeft_sub_one {s : State} (hs : s.Sequenced) (hp : s.phase ≠ .idle) :
    (s.pairsLeft - 1).toNat + 1 = s.pairsLeft.toNat := by
  have h0 : s.pairsLeft ≠ 0 := mt hs.1.mpr hp
  bv_omega

/-- Settles O49: the values of the first sample, then those of the second, each the operation of its rule on the values
before it, up to the pattern of a NaN. -/
theorem commitEmitsTheTwoSamples : Obligations.CommitEmitsTheTwoSamples := by
  intro e1 e0 s hs he hp
  obtain ⟨⟨hP, -⟩, -, -, hk, -⟩ := hs.valid
  obtain ⟨-, -, -, -, -, hsig, -⟩ := hs.shaped
  have hne : s.lastSig ≠ [] := ne_nil_of_length hsig (by omega)
  have hp0 : Num.Same (predSecond e1 s) (lpcPredict 0 s.lpcCur ((pcmFirst e1 s :: s.lastSig).take s.params.P)) := by
    rw [← hsig, ← push_eq_take _ _ hne]
    exact lpcPredict_same_epoch _ _ _ _
  have hcount := toNat_pairsLeft_sub_one hs.sequenced (by rw [hp]; decide)
  exact ⟨_, _, _, pcmFirst e1 s, memFirst e1 s, predSecond e1 s, pcmSecond e1 e0 s, memSecond e1 e0 s,
    completes_commit e1 e0 he hp,
    reconstruct_same _ _ _ _, deemphasise_same _ _ _ _, toInt_quant hk _, hp0,
    reconstruct_same _ _ _ _, deemphasise_same _ _ _ _, toInt_quant hk _,
    hsig ▸ push_push_eq_take _ _ _ hne, rfl, rfl, rfl, hcount, rfl, rfl⟩

/-! ### The quantiser (R134) -/

/-- A comparison of exact values is one of units (R14). -/
theorem real_lt_intCast_iff (y : F32) (k : Int) : Num.real y < k ↔ Num.units y < k * (Num.one : Nat) := by
  rw [Num.real, div_lt_iff₀ (by positivity)]
  norm_cast

theorem intCast_lt_real_iff (y : F32) (k : Int) : k < Num.real y ↔ k * (Num.one : Nat) < Num.units y := by
  rw [Num.real, lt_div_iff₀ (by positivity)]
  norm_cast

/-- The integer division of `quant` is the exact floor: both sides of the fraction are doubled (R134). -/
theorem quant_floor (y : F32) :
    (2 * Num.units y + (Num.one : Nat)) / (2 * Num.one : Nat) = ⌊Num.real y + 1 / 2⌋ := by
  rw [← Rat.floor_intCast_div_natCast, Num.real]
  congr 1
  push_cast [Num.one]
  ring

/-- On a finite value the quantiser clamps and rounds the exact value (R132 to R134). -/
theorem quant_of_isFinite {k : Consts} (hk : k.clampBound ≤ 32767) {y : F32} (hy : Num.isFinite y = true) :
    quant k y =
      if Num.real y < (-(k.clampBound : Int) : Int) then -(k.clampBound : Int)
      else if ((k.clampBound : Int) : ℚ) < Num.real y then (k.clampBound : Int)
      else ⌊Num.real y + 1 / 2⌋ := by
  rw [quant_eq hk y (Num.isNaN_of_isFinite hy), quant_floor]
  simp only [real_lt_intCast_iff, intCast_lt_real_iff, neg_mul]

/-- Settles O50: the two infinities are evaluated, and a finite value is clamped and rounded as an exact one. -/
theorem quantiserClampsAndRoundsHalfUp : Obligations.QuantiserClampsAndRoundsHalfUp := by
  refine fun y => ⟨fun hy => if_pos hy, ?_, ?_, fun hy => ?_⟩
  · rintro rfl; decide
  · rintro rfl; decide
  · have h := quant_of_isFinite (k := specConsts) (by decide) hy
    exact_mod_cast h

end Sys2Proof.Machine

/-! Proofs of the statements about refusals (60_exceptions.md): the error latch (R175), the phase (R171), the odd sample
count (R172), the unmapped address (R173) and the read-only register (R174), in the order of R176's checks. -/

namespace Sys2Proof.Machine

/-! ### The latch (R175, R176 check 1) -/

/-- The checks of a FRAME that the port can carry, in R176's order: the latch, the phase, the sample count. -/
theorem exec_frame_eq {n : BitVec 16} {g : F32} {a v : List F32} {s : State}
    (hwf : (Instr.frame n g a v).WellFormed s.params = true) :
    exec (.frame n g a v) s =
      if latchBlocks 2 s then .next (refusedState 2 .latched s)
      else if s.phase ≠ .idle then .next (refusedState 2 .phase s)
      else if n.getLsbD 0 then .next (refusedState 2 .odd s)
      else .next (openFrame n (alignFrame g a v s)) := by
  simp only [Instr.WellFormed, Bool.and_eq_true, beq_iff_eq] at hwf
  obtain ⟨ha, hv⟩ := hwf
  simp only [exec, execFrame, raise_eq]
  exact if_neg (by simp [ha, hv])

/-- A command that the latch stops is refused before any other check. -/
theorem exec_of_latchBlocks {i : Instr} {s : State} (hwf : i.WellFormed s.params = true)
    (hb : latchBlocks i.opcode s = true) : exec i s = .next (refusedState i.opcode .latched s) := by
  cases i with
  | init | rdreg => simp [latchBlocks, Instr.opcode] at hb
  | frame n g a v => rw [exec_frame_eq hwf]; exact if_pos hb
  | pitch | predict | commit | enc | dec | wrreg => rw [← raise_eq]; exact if_pos hb

/-- INIT and RDREG have opcodes of their own, the two that the latch lets through (R69, R175). -/
theorem opcode_ne_of_stopped {i : Instr} (h0 : i ≠ .init) (h7 : ∀ addr, i ≠ .rdreg addr) :
    i.opcode ≠ 0 ∧ i.opcode ≠ 7 := by
  cases i with
  | init => exact absurd rfl h0
  | rdreg addr => exact absurd rfl (h7 addr)
  | pitch | frame | predict | commit | enc | dec | wrreg => simp [Instr.opcode]

/-- Settles O12: the latch stops every opcode but those of INIT and RDREG, and a refusal keeps a code that stands. -/
theorem latchedBlockRefusesOtherCommands : Obligations.LatchedBlockRefusesOtherCommands :=
  fun _ _ hwf he h0 h7 =>
    ⟨exec_of_latchBlocks hwf (latchBlocks_eq_true.mpr ⟨he, opcode_ne_of_stopped h0 h7⟩), if_pos he⟩

/-! ### The phase and the sample count (R171, R172) -/

/-- Settles O13: each of the four commands is outside the phase it is listed for. -/
theorem misplacedCommandIsRefused : Obligations.MisplacedCommandIsRefused :=
  fun _ he =>
    ⟨fun hp _ _ _ _ hwf => exec_misplaced hwf he rfl hp, fun hp _ _ => exec_misplaced rfl he rfl hp,
     fun hp => exec_misplaced rfl he rfl hp, fun hp _ _ => exec_misplaced rfl he rfl hp⟩

/-- Settles O14: the FRAME passes the latch and the phase, and its sample count has bit 0 set. -/
theorem oddFrameIsRefused : Obligations.OddFrameIsRefused := by
  intro n g a v s hwf he hp hn
  rw [exec_frame_eq hwf, latchBlocks_of_clear 2 he, if_neg Bool.false_ne_true, if_neg (not_not.mpr hp),
    if_pos ((odd_iff n).mpr hn)]

/-! ### The address and the access (R173, R174) -/

/-- RDREG of an unmapped address is refused with `E_ADDR`, in every phase and with an error latched (R153, R173). -/
theorem exec_rdreg_unmapped {addr : Addr} {s : State} (h : regAt s.params addr = none) :
    exec (.rdreg addr) s = .next (refusedState 7 .addr s) := by
  simp only [exec, execRdreg, h, raise_eq]

/-- WRREG of an unmapped address, past the latch and the phase, is refused with `E_ADDR` (R156, R173). -/
theorem exec_wrreg_unmapped {addr : Addr} {s : State} (v : Word) (he : s.err = false) (hp : s.phase = .idle)
    (h : regAt s.params addr = none) : exec (.wrreg addr v) s = .next (refusedState 8 .addr s) := by
  simp [exec, execWrreg, latchBlocks_of_clear _ he, hp, h, raise_eq]

/-- Settles O15: where no register of the map stands the lookup finds none. -/
theorem unmappedAddressIsRefused : Obligations.UnmappedAddressIsRefused :=
  fun _ _ _ hu =>
    ⟨exec_rdreg_unmapped (regAt_unmapped hu), fun he hp v => exec_wrreg_unmapped v he hp (regAt_unmapped hu)⟩

/-- The registers whose access is RO in the table of R40 are not writable. -/
theorem regWritable_of_readOnly {r : Reg}
    (h : r ∈ [Reg.id, .paramP, .paramD, .paramF, .paramCap, .stateSize, .status, .gainCur, .pred1] ∨
      ∃ i, r = .lpcCur i) : regWritable r = false := by
  rcases h with hscalar | ⟨i, rfl⟩
  · revert r
    decide
  · rfl

/-- Settles O16: an existing register is found at its address, and the listed ones are not writable. -/
theorem readOnlyWriteIsRefused : Obligations.ReadOnlyWriteIsRefused :=
  fun _ v _ hv he hp hr hro => exec_wrreg_readOnly v he hp (regAt_regAddr hv.1 hr) (regWritable_of_readOnly hro)

end Sys2Proof.Machine

/-! Proofs of the statements about the encoding of commands (30_encoding.md R66 to R69, R77, R81), the byte form of
words (R54) and the step that runs a decoded command (R59). -/

namespace Sys2Proof.Machine

/-! ### Decoding what the encoder writes (R67 to R69) -/

/-- A field of two joined codes is the code that stands there (R67). -/
theorem extract_append_codes (hi lo : Code) :
    (hi ++ lo : BitVec 16).extractLsb' 8 8 = hi ∧ (hi ++ lo : BitVec 16).extractLsb' 0 8 = lo := by
  have h1 := hi.isLt
  have h0 := lo.isLt
  constructor <;> apply BitVec.eq_of_toNat_eq <;> rw [toNat_extract, toNat_append_eq] <;> omega

/-- The operand decoder reads back the opcode, immediate and payload of a well-formed command. -/
theorem decodeOperands_encode {p : Params} {i : Instr} (hi : i.WellFormed p = true) :
    decodeOperands p i.opcode.toNat i.imm (encodePayload i) = some i := by
  cases i with
  | frame n g a v =>
    simp only [Instr.WellFormed, Bool.and_eq_true, beq_iff_eq] at hi
    obtain ⟨ha, hv⟩ := hi
    exact framePayload_eq_some.mpr ⟨g, a, v, rfl, ha, hv, rfl⟩
  | commit e1 e0 =>
    obtain ⟨h1, h0⟩ := extract_append_codes e1 e0
    exact noPayload_eq_some.mpr ⟨rfl, by rw [Instr.imm, h1, h0]⟩
  | dec u => exact noPayload_eq_some.mpr ⟨rfl, by rw [Instr.imm, (extract_append_codes 0#8 u).2]⟩
  | init | predict | rdreg => exact noPayload_eq_some.mpr ⟨rfl, rfl⟩
  | pitch | enc | wrreg => exact onePayload_eq_some.mpr ⟨_, rfl, rfl⟩

/-- Settles O1: the encoded word has the command's opcode, matches its row and carries its immediate, so the operand
decoder sees the command's own fields. -/
theorem decodeOfEncodedCommand : Obligations.DecodeOfEncodedCommand := by
  intro p i hi
  rw [decode_instr_iff, opField_encodeWord, immField_encodeWord]
  exact ⟨opcode_lt i, matches_encodeWord i, decodeOperands_encode hi⟩

/-! ### Encoding what the decoder reads (R71) -/

/-- A word whose reserved bits are 0 is its opcode and its immediate (R66). -/
theorem encodeWord_eq {i : Instr} {w : Word} (hop : i.opcode = opField w) (himm : i.imm = immField w)
    (hrsv : w.toNat / 2 ^ 16 % 2 ^ 12 = 0) : encodeWord i = w := by
  apply BitVec.eq_of_toNat_eq
  rw [toNat_encodeWord, hop, himm, toNat_opField, toNat_immField]
  omega

/-- Settles O2: the must-be-zero bits are those that no operand carries, so the fields of the command fix the word. -/
theorem encodeOfDecodedCommand : Obligations.EncodeOfDecodedCommand := by
  intro p w pl i hd
  obtain ⟨hlt, hm, hi⟩ := decode_instr_iff.mp hd
  obtain ⟨hrsv, hzero, hdec⟩ := (matches_iff w hlt).mp hm
  obtain ⟨hwf, hpl, hop, himm⟩ := decodeOperands_spec hi
  rw [toNat_immField] at himm
  exact ⟨encodeWord_eq (BitVec.eq_of_toNat_eq hop) (himm hzero fun h6 => by have := hdec h6; omega) hrsv, hpl, hwf⟩

/-! ### The length of a transaction (R77) -/

/-- The payload of a well-formed command has the length of its opcode (R68). -/
theorem length_encodePayload {p : Params} {i : Instr} (hi : i.WellFormed p = true) :
    (encodePayload i).length = payloadWords p i.opcode := by
  cases i with
  | frame n g a v =>
    simp only [Instr.WellFormed, Bool.and_eq_true, beq_iff_eq] at hi
    obtain ⟨ha, hv⟩ := hi
    have hw : payloadWords p (Instr.frame n g a v).opcode = 1 + p.P + p.F := rfl
    rw [hw, encodePayload, List.length_cons, List.length_append, ha, hv]
    omega
  | init | pitch | predict | commit | enc | dec | rdreg | wrreg => rfl

/-- Settles O5: the first word holds the opcode, and the opcode the length of the payload. -/
theorem firstWordFixesTheLength : Obligations.FirstWordFixesTheLength := by
  intro p i rest hi
  have hlen := length_encodePayload hi
  constructor
  · rw [encode, List.cons_append, splitTransaction, opField_encodeWord, ← hlen, if_neg (by simp), List.take_left,
      List.drop_left]
  · rw [encode, List.length_cons, hlen, Nat.add_comm]

/-! ### The byte form (R54) -/

/-- The four bytes of a word, joined again. -/
theorem append_bytes (w : Word) :
    w.extractLsb' 24 8 ++ w.extractLsb' 16 8 ++ w.extractLsb' 8 8 ++ w.extractLsb' 0 8 = w := by
  have := w.isLt
  apply BitVec.eq_of_toNat_eq
  simp only [toNat_append_eq, toNat_extract]
  omega

/-- Settles O6: by induction over the words, each of which is its four bytes joined. -/
theorem wordsSurviveTheByteChannel : Obligations.WordsSurviveTheByteChannel := by
  refine fun ws => ⟨?_, fun w => ⟨rfl, rfl⟩⟩
  induction ws with
  | nil => rfl
  | cons w ws ih =>
    have hcons : (w :: ws).flatMap wordBytes = w.extractLsb' 0 8 :: w.extractLsb' 8 8 :: w.extractLsb' 16 8 ::
        w.extractLsb' 24 8 :: ws.flatMap wordBytes := rfl
    rw [hcons, wordsOfBytes, ih, Option.map_some, append_bytes]

/-! ### Worked encodings (R81) and the step (R59) -/

/-- Settles O4: the words of the commands are the encoder's, and in the others the opcode or a must-be-zero bit is
refused. -/
theorem workedEncodingsDecode : Obligations.WorkedEncodingsDecode := by
  intro p hP hF
  have accepted : ∀ i : Instr, i.WellFormed p = true → decode p (encodeWord i) (encodePayload i) = .instr i :=
    decodeOfEncodedCommand p
  refine ⟨accepted (.frame 4#16 0x3F000000#32 [0xBF000000#32, 0xBE800000#32] [0x3F800000#32]) ?_,
    accepted (.commit 130#8 128#8) rfl, accepted (.dec 255#8) rfl, accepted (.rdreg 8#16) rfl,
    accepted (.wrreg 0x101#16 0x40000000#32) rfl, decode_opcode (by decide), decode_reserved (by decide) (by decide),
    decode_reserved (by decide) (by decide), decode_reserved (by decide) (by decide)⟩
  simp [Instr.WellFormed, hP, hF]

/-- Settles O7: `step` decodes the oldest transaction and adds nothing around `exec`. -/
theorem stepRunsTheDecodedCommand : Obligations.StepRunsTheDecodedCommand :=
  ⟨fun _ _ _ _ _ hp hd => step_instr hp hd, fun s hp => by rw [step, hp]⟩

end Sys2Proof.Machine

/-! Proofs of the statements about what every step keeps (10_state.md): the invariant of the block, the parameters and
the ports, the latched prediction (R144), and the state that one command alone moves (R25 to R30, R119). -/

namespace Sys2Proof.Machine

/-! ### What a step can do, with a refused command and a refused word as one case -/

/-- A step with an event at the port takes it: a reset, a refusal, or a command that is accepted. -/
theorem step_event_cases {s t : State} (h : step s = .next t) :
    (s.pending = [] ∧ t = s) ∨
    ∃ ev rest, s.pending = ev :: rest ∧
      (t = clearState { s with pending := rest } ∨
       (∃ op e, (e ≠ .latched ∨ s.err = true) ∧ t = refusedState op e { s with pending := rest }) ∨
       ∃ i, Accepted i { s with pending := rest } t) := by
  rcases step_cases h with h0 | ⟨rest, hp, ht⟩ | ⟨w, pl, rest, i, hp, -, he⟩ | ⟨w, pl, rest, e, hp, -, hne, ht⟩
  · exact .inl h0
  · exact .inr ⟨_, rest, hp, .inl ht⟩
  · refine .inr ⟨_, rest, hp, .inr ?_⟩
    exact (exec_cases he).imp (fun ⟨e, hl, ht⟩ => ⟨_, e, hl, ht⟩) (fun ha => ⟨i, ha⟩)
  · refine .inr ⟨_, rest, hp, .inr (.inl ⟨_, _, ?_, ht⟩)⟩
    split
    case isTrue hb => exact .inr (latchBlocks_eq_true.mp hb).1
    case isFalse => exact .inl hne

/-! ### The invariant (R21, R28, R33, R35) -/

theorem resetOf_inv {p : Params} (hp : p.Valid) : (State.resetOf p).Inv where
  valid := hp
  shaped := replicate_shaped p
  counted := Nat.zero_le _
  sequenced := ⟨iff_of_true rfl rfl, fun h => absurd rfl h⟩
  latchOk := ⟨fun _ => rfl, fun h => nomatch h⟩

/-- Settles O19: every line is a list of zeros of its size, and in IDLE there is no prediction to compare. -/
theorem resetMeetsTheInvariant : Obligations.ResetMeetsTheInvariant :=
  fun _ hp => ⟨resetOf_inv hp, fun h => nomatch h⟩

/-- The invariant says nothing of the ports and of the epoch of free patterns. -/
theorem inv_of_ports {s : State} (hs : s.Inv) (pending : List PortEvent) (responses : List Response) (epoch : Nat) :
    State.Inv { s with pending := pending, responses := responses, nanEpoch := epoch } :=
  ⟨hs.valid, hs.shaped, hs.counted, hs.sequenced, hs.latchOk⟩

theorem clearState_inv {s : State} (hs : s.Inv) : (clearState s).Inv :=
  inv_of_ports (resetOf_inv hs.valid) _ _ _

theorem respond_inv {s : State} (op : BitVec 4) (data : List Word) (hs : s.Inv) : (respond op data s).Inv :=
  inv_of_ports hs _ _ _

/-- Every code but `E_LATCHED` may be stored (R166). -/
theorem errNumber_bounds {e : ErrCode} (he : e ≠ .latched) : 1 ≤ (errNumber e).toNat ∧ (errNumber e).toNat ≤ 6 := by
  cases e with
  | latched => exact absurd rfl he
  | opcode | reserved | phase | odd | addr | ro => decide

/-- A refusal latches a code that may be stored (R35, R166), and moves nothing else. -/
theorem refusedState_inv {s : State} (op : BitVec 4) {e : ErrCode} (he : e ≠ .latched ∨ s.err = true) (hs : s.Inv) :
    State.Inv (refusedState op e s) := by
  refine ⟨hs.valid, hs.shaped, hs.counted, hs.sequenced, ⟨fun h => (nomatch h), fun _ => ?_⟩⟩
  cases hc : s.err with
  | true => simpa [hc] using hs.latchOk.2 hc
  | false => simpa [hc] using errNumber_bounds (he.resolve_right (by simp [hc]))

theorem ite_phase_eq_idle (c : Prop) [Decidable c] : (if c then Phase.idle else .pairReady) = .idle ↔ c := by
  split
  case isTrue h => exact iff_of_true rfl h
  case isFalse h => exact iff_of_false (by simp) h

/-- An accepted FRAME keeps the invariant: it opens pairs only behind the gate (R113, R115, R116). -/
theorem openFrame_inv {n : BitVec 16} {g : F32} {a v : List F32} {s : State} (hs : s.Inv)
    (ha : a.length = s.params.P) (hv : v.length = s.params.F) (hn : n.toNat % 2 = 0) :
    (openFrame n (alignFrame g a v s)).Inv := by
  obtain ⟨-, -, hd, -, -, -, -, -, hcap⟩ := hs.valid.1
  have hshape := alignFrame_shaped g hd ha hv hs.shaped
  have hcount : (alignFrame g a v s).frameCount.toNat ≤ s.params.CAP :=
    (frameCount_alignFrame g a v hcap).trans_le (Nat.min_le_right _ _)
  unfold openFrame
  split
  case isTrue hact =>
    refine respond_inv _ _ ⟨hs.valid, hshape, hcount, ⟨?_, fun _ => hact⟩, hs.latchOk⟩
    have hz : n = 0#16 ↔ n >>> 1 = 0#16 := by bv_omega
    exact (ite_phase_eq_idle (n = 0)).trans hz
  case isFalse =>
    exact respond_inv _ _ ⟨hs.valid, hshape, hcount, ⟨iff_of_true rfl rfl, fun h => absurd rfl h⟩, hs.latchOk⟩

/-- A COMMIT keeps the invariant: the window keeps its length, and IDLE comes back with the last pair (R127, R143). -/
theorem commit_inv (e1 e0 : Code) {s : State} (hs : s.Inv) (hp : s.phase = .pairWait) :
    (closePair (commitSecond e0 (commitFirst e1 s).2).2).Inv := by
  obtain ⟨hg, hl, hls, hf, hfs, hsig, hcur⟩ := hs.shaped
  obtain ⟨⟨hP, -⟩, -⟩ := hs.valid
  have hlen : ∀ x y, (push (push s.lastSig x) y).length = s.params.P := fun x y => by
    rw [push_length _ _ (by simp [push]), push_length _ _ (ne_nil_of_length hsig (by omega)), hsig]
  rw [commit_state]
  exact ⟨hs.valid, ⟨hg, hl, hls, hf, hfs, hlen _ _, hcur⟩, hs.counted,
    ⟨ite_phase_eq_idle _, fun _ => hs.sequenced.2 (by simp [hp])⟩, hs.latchOk⟩

/-- A register write keeps the invariant in IDLE: `FRAME_COUNT` stores at most the cap (R44). -/
theorem memWrite_inv (r : Reg) (v : Word) {s : State} (hs : s.Inv) (hp : s.phase = .idle) : (memWrite r v s).Inv := by
  obtain ⟨-, -, -, -, -, -, -, -, hcap⟩ := hs.valid.1
  have hcount : (memWrite r v s).frameCount.toNat ≤ s.params.CAP := by
    cases r with
    | frameCount => exact (toNat_min_cap hcap).trans_le (Nat.min_le_right _ _)
    | _ => exact hs.counted
  refine ⟨?_, memWrite_shaped r v hs.shaped, ?_, ⟨?_, ?_⟩, ?_⟩
  · rw [memWrite_params]; exact hs.valid
  · rw [memWrite_params]; exact hcount
  · rw [memWrite_phase, memWrite_pairsLeft]; exact hs.sequenced.1
  · rw [memWrite_phase]; exact fun h => absurd hp h
  · rw [State.LatchOk, memWrite_err, memWrite_errCode]; exact hs.latchOk

/-- Every accepted command keeps the invariant. -/
theorem accepted_inv {i : Instr} {s t : State} (h : Accepted i s t) (hs : s.Inv) : t.Inv := by
  cases i with
  | init => subst h; exact respond_inv _ _ (clearState_inv hs)
  | frame n g a v =>
    obtain ⟨-, ha, hv, -, hn, rfl⟩ := h
    exact openFrame_inv hs ha hv hn
  | predict =>
    obtain ⟨-, hp, rfl⟩ := h
    have hdue : s.pairsLeft ≠ 0 := mt hs.sequenced.1.mpr (by simp [hp])
    exact respond_inv _ _ ⟨hs.valid, hs.shaped, hs.counted,
      ⟨iff_of_false (by simp) hdue, fun _ => hs.sequenced.2 (by simp [hp])⟩, hs.latchOk⟩
  | commit e1 e0 => obtain ⟨-, hp, rfl⟩ := h; exact respond_inv _ _ (commit_inv e1 e0 hs hp)
  | wrreg addr v => obtain ⟨-, hp, r, -, -, rfl⟩ := h; exact respond_inv _ _ (memWrite_inv r v hs hp)
  | pitch | enc | dec => obtain ⟨-, rfl⟩ := h; exact respond_inv _ _ hs
  | rdreg addr => obtain ⟨r, -, rfl⟩ := h; exact respond_inv _ _ hs

/-- Settles O18: a reset, a refusal and an accepted command each keep the invariant, which does not see the port. -/
theorem stepKeepsTheInvariant : Obligations.StepKeepsTheInvariant := by
  intro s t hs h
  rcases step_event_cases h with ⟨-, rfl⟩ | ⟨ev, rest, -, hcase⟩
  · exact hs
  · have hs' : State.Inv { s with pending := rest } := inv_of_ports hs rest _ _
    rcases hcase with rfl | ⟨op, e, he, rfl⟩ | ⟨i, ha⟩
    · exact clearState_inv hs'
    · exact refusedState_inv op he hs'
    · exact accepted_inv ha hs'

/-! ### Parameters and ports (R49, R59) -/

/-- Settles O20: a reset emits nothing, and a refused or accepted command adds its one response. -/
theorem stepKeepsParametersAndPorts : Obligations.StepKeepsParametersAndPorts := by
  intro s t h
  rcases step_event_cases h with ⟨h0, rfl⟩ | ⟨ev, rest, hp, hcase⟩
  · exact ⟨rfl, by rw [h0, List.tail_nil], List.prefix_refl _⟩
  · rw [hp, List.tail_cons]
    rcases hcase with rfl | ⟨op, e, -, rfl⟩ | ⟨i, ha⟩
    · exact ⟨rfl, rfl, List.prefix_refl _⟩
    · exact ⟨rfl, rfl, List.prefix_append _ _⟩
    · obtain ⟨hparams, hpending⟩ := accepted_params ha
      obtain ⟨data, -, hresp⟩ := accepted_response ha
      exact ⟨hparams, hpending, hresp ▸ List.prefix_append _ _⟩

/-! ### The latched prediction (R144) -/

/-- A command that ends in PAIR_WAIT was PREDICT, which latches the prediction, or moved neither the latch nor what it
was computed from. -/
theorem accepted_predictionCurrent {i : Instr} {s t : State} (h : Accepted i s t) (hs : s.PredictionCurrent) :
    t.PredictionCurrent := by
  cases i with
  | predict => obtain ⟨-, -, rfl⟩ := h; exact fun _ epoch => lpcPredict_same_epoch _ epoch _ _
  | init => subst h; exact fun hw => nomatch hw
  | frame n g a v =>
    obtain ⟨-, -, -, -, hn, rfl⟩ := h
    intro hw
    rw [openFrame_phase _ hn] at hw
    split at hw <;> cases hw
  | commit e1 e0 =>
    obtain ⟨-, -, rfl⟩ := h
    intro hw
    rw [respond_phase, closePair_phase] at hw
    split at hw <;> cases hw
  | wrreg addr v =>
    obtain ⟨-, hp, r, -, -, rfl⟩ := h
    intro hw
    rw [respond_phase, memWrite_phase, hp] at hw
    cases hw
  | pitch | enc | dec => obtain ⟨-, rfl⟩ := h; exact hs
  | rdreg addr => obtain ⟨r, -, rfl⟩ := h; exact hs

/-- Settles O21: a reset leaves PAIR_WAIT, a refusal moves nothing, and an accepted command keeps the prediction
current. -/
theorem stepKeepsThePredictionCurrent : Obligations.StepKeepsThePredictionCurrent := by
  intro s t _ hs h
  rcases step_event_cases h with ⟨-, rfl⟩ | ⟨ev, rest, -, rfl | ⟨op, e, -, rfl⟩ | ⟨i, ha⟩⟩
  · exact hs
  · exact fun hw => nomatch hw
  · exact hs
  · exact accepted_predictionCurrent ha hs

/-! ### What one command alone moves (R25 to R30, R113, R117, R119) -/

/-- Settles O23: a refusal moves no line, and of the accepted commands only the three excepted ones write one. -/
theorem onlyFrameMovesTheDelayLines : Obligations.OnlyFrameMovesTheDelayLines := by
  intro i s t h hinit hframe hwrreg
  rcases exec_cases h with ⟨e, -, rfl⟩ | ha
  · exact ⟨rfl, rfl, rfl, rfl, rfl, rfl⟩
  · cases i with
    | init => exact absurd rfl hinit
    | frame n g a v => exact absurd rfl (hframe n g a v)
    | wrreg addr v => exact absurd rfl (hwrreg addr v)
    | predict | commit => obtain ⟨-, -, rfl⟩ := ha; exact ⟨rfl, rfl, rfl, rfl, rfl, rfl⟩
    | pitch | enc | dec => obtain ⟨-, rfl⟩ := ha; exact ⟨rfl, rfl, rfl, rfl, rfl, rfl⟩
    | rdreg addr => obtain ⟨r, -, rfl⟩ := ha; exact ⟨rfl, rfl, rfl, rfl, rfl, rfl⟩

/-- An opened frame writes the sequencer and the response port alone (R115 to R117). -/
theorem openFrame_eq (n : BitVec 16) (s : State) :
    openFrame n s =
      { s with pairsLeft := (openFrame n s).pairsLeft, phase := (openFrame n s).phase,
               responses := (openFrame n s).responses } := by
  unfold openFrame
  split <;> rfl

/-- Settles O44: a FRAME that leaves no error was accepted; it writes the lines, the counter and the sequencer. -/
theorem frameLeavesTheRest : Obligations.FrameLeavesTheRest := by
  intro n g a v s t h ht
  obtain ⟨-, -, -, -, -, rfl⟩ := accepted_of_err_clear h ht
  rw [openFrame_eq]
  exact ⟨rfl, rfl, rfl, rfl, rfl, rfl, rfl, rfl, rfl, rfl⟩

/-- Settles O24: a refusal moves no history, and FRAME leaves it in a warm-up frame and in an active one. -/
theorem onlyCommitMovesTheSynthesisHistory : Obligations.OnlyCommitMovesTheSynthesisHistory := by
  intro i s t h hinit hcommit hwrreg
  rcases exec_cases h with ⟨e, -, rfl⟩ | ha
  · exact ⟨rfl, rfl, rfl, rfl⟩
  · cases i with
    | init => exact absurd rfl hinit
    | commit e1 e0 => exact absurd rfl (hcommit e1 e0)
    | wrreg addr v => exact absurd rfl (hwrreg addr v)
    | frame n g a v =>
      obtain ⟨-, -, -, -, -, rfl⟩ := ha
      rw [openFrame_eq]
      exact ⟨rfl, rfl, rfl, rfl⟩
    | predict => obtain ⟨-, -, rfl⟩ := ha; exact ⟨rfl, rfl, rfl, rfl⟩
    | pitch | enc | dec => obtain ⟨-, rfl⟩ := ha; exact ⟨rfl, rfl, rfl, rfl⟩
    | rdreg addr => obtain ⟨r, -, rfl⟩ := ha; exact ⟨rfl, rfl, rfl, rfl⟩

/-- A write to another register keeps the counter. -/
theorem memWrite_frameCount_of_ne {r : Reg} (h : r ≠ .frameCount) (v : Word) (s : State) :
    (memWrite r v s).frameCount = s.frameCount := by
  cases r with
  | frameCount => exact absurd rfl h
  | _ => rfl

/-- `FRAME_COUNT` stands at address 9 (R40). -/
theorem regAt_ne_frameCount {p : Params} {addr : Addr} {r : Reg} (h : regAt p addr = some r) (h9 : addr ≠ 9) :
    r ≠ .frameCount := by
  rintro rfl
  exact h9 (BitVec.eq_of_toNat_eq (regAt_spec h).2.symm)

/-- The counter after an accepted command that is neither INIT nor a write to it: counted by FRAME, else kept. -/
theorem accepted_frameCount {i : Instr} {s t : State} (hcap : s.params.CAP ≤ 65535) (h : Accepted i s t)
    (hinit : i ≠ .init) (hwrreg : ∀ v, i ≠ .wrreg 9 v) :
    t.frameCount = s.frameCount ∨ t.frameCount.toNat = min (s.frameCount.toNat + 1) s.params.CAP := by
  cases i with
  | init => exact absurd rfl hinit
  | frame n g a v =>
    obtain ⟨-, -, -, -, -, rfl⟩ := h
    rw [openFrame_eq]
    exact .inr (frameCount_alignFrame g a v hcap)
  | wrreg addr v =>
    obtain ⟨-, -, r, hr, -, rfl⟩ := h
    exact .inl (memWrite_frameCount_of_ne (regAt_ne_frameCount hr fun h9 => hwrreg v (h9 ▸ rfl)) v s)
  | predict | commit => obtain ⟨-, -, rfl⟩ := h; exact .inl rfl
  | pitch | enc | dec => obtain ⟨-, rfl⟩ := h; exact .inl rfl
  | rdreg addr => obtain ⟨r, -, rfl⟩ := h; exact .inl rfl

theorem exec_params {i : Instr} {s t : State} (h : exec i s = .next t) : t.params = s.params := by
  rcases exec_cases h with ⟨e, -, rfl⟩ | ha
  · rfl
  · exact (accepted_params ha).1

/-- Settles O25: the counter is kept or counted up to the cap, and the gate compares it with a parameter. -/
theorem warmUpGateIsOneWay : Obligations.WarmUpGateIsOneWay := by
  intro i s t hs h hinit hwrreg
  have hparams := exec_params h
  have hle := hs.counted
  obtain ⟨-, -, -, -, -, -, -, -, hcap⟩ := hs.valid.1
  have hcount : s.frameCount.toNat ≤ t.frameCount.toNat ∧ t.frameCount.toNat ≤ s.params.CAP := by
    rcases exec_cases h with ⟨e, -, rfl⟩ | ha
    · exact ⟨le_rfl, hle⟩
    · rcases accepted_frameCount hcap ha hinit hwrreg with hf | hf <;> rw [hf] <;> omega
  refine ⟨hcount.1, hcount.2, ?_⟩
  simp only [active, decide_eq_true_eq, hparams]
  omega

end Sys2Proof.Machine

/-! Proofs of the statements about frames: the alignment law over a command sequence (R109) and the latches that are dead
in IDLE (R42, R160). -/

namespace Sys2Proof.Machine

/-! ### An accepted FRAME as one completion (R110 to R116) -/

/-- The answer of a FRAME whose lines stand aligned in `s` (R115, R116). -/
def frameAnswer (n : BitVec 16) (s : State) : List Word :=
  s.gainCur :: if active s then [] else List.replicate n.toNat 0

/-- A well-formed FRAME with even `n` in IDLE under a clear latch completes with its answer. -/
theorem completes_frame {n : BitVec 16} {g : F32} {a v : List F32} {s : State} (he : s.err = false)
    (hp : s.phase = .idle) (hwf : (Instr.frame n g a v).WellFormed s.params = true) (hn : n.toNat % 2 = 0) :
    Completes (.frame n g a v) s (openFrame n (alignFrame g a v s)) (frameAnswer n (alignFrame g a v s)) := by
  refine ⟨exec_frame_of_wellFormed he hp hwf hn, ?_⟩
  unfold openFrame frameAnswer
  split <;> rfl

/-! ### Two streams with one persistent state (R42, R160) -/

/-- `ACTIVE` is a predicate of the persistent state (R36). -/
theorem active_congr {s t : State} (hp : s.params = t.params) (hc : s.frameCount = t.frameCount) :
    active s = active t := by
  rw [active, active, hp, hc]

/-- FRAME's alignment reloads the aligned values from the delay lines, so nothing of the old latches is left in them. -/
theorem alignFrame_samePersistent (g : F32) (a v : List F32) {s t : State} (h : SamePersistent s t) :
    SamePersistent (alignFrame g a v s) (alignFrame g a v t) ∧
      (alignFrame g a v s).lpcCur = (alignFrame g a v t).lpcCur ∧
      (alignFrame g a v s).gainCur = (alignFrame g a v t).gainCur := by
  obtain ⟨hp, hc, hf, hl, hg, hsig, hx0, hx1, hm⟩ := h
  simp [SamePersistent, alignFrame, hp, hc, hf, hl, hg, hsig, hx0, hx1, hm]

/-- Opening a frame depends on the persistent state and the aligned gain (R115, R116). -/
theorem openFrame_samePersistent (n : BitVec 16) {s t : State} (h : SamePersistent s t)
    (hg : s.gainCur = t.gainCur) :
    SamePersistent (openFrame n s) (openFrame n t) ∧ (openFrame n s).pairsLeft = (openFrame n t).pairsLeft ∧
      (openFrame n s).phase = (openFrame n t).phase ∧ frameAnswer n s = frameAnswer n t := by
  obtain ⟨hp, hc, -⟩ := id h
  unfold openFrame frameAnswer
  rw [active_congr hp hc, hg]
  split <;> exact ⟨h, rfl, rfl, rfl⟩

/-- Settles O34: the alignment makes the latches equal, and the outcome depends on nothing else. -/
theorem latchesAreDeadInIdle : Obligations.LatchesAreDeadInIdle := by
  intro n g a v s t _ _ hst hsp htp hse hte hwf hn
  have hwf' : (Instr.frame n g a v).WellFormed t.params = true := hst.1 ▸ hwf
  obtain ⟨halign, hlpc, hgain⟩ := alignFrame_samePersistent g a v hst
  obtain ⟨hopen, hpairs, hphase, hdata⟩ := openFrame_samePersistent n halign hgain
  have hlatch : ∀ u, (openFrame n (alignFrame g a v u)).lpcCur = (alignFrame g a v u).lpcCur ∧
      (openFrame n (alignFrame g a v u)).gainCur = (alignFrame g a v u).gainCur ∧
      (openFrame n (alignFrame g a v u)).err = u.err := fun u => by rw [openFrame_eq]; exact ⟨rfl, rfl, rfl⟩
  obtain ⟨hsl, hsg, hserr⟩ := hlatch s
  obtain ⟨htl, htg, hterr⟩ := hlatch t
  exact ⟨_, _, _, completes_frame hse hsp hwf hn, hdata ▸ completes_frame hte htp hwf' hn, hopen,
    by rw [hsl, htl, hlpc], by rw [hsg, htg, hgain], hpairs, hphase, hserr.trans hse, hterr.trans hte⟩

/-! ### The alignment law (R109) -/

/-- The aligned values are those in the oldest slots of lines of depth `d`. -/
def Aligned (d : Nat) (s : State) : Prop :=
  s.gainHist[d - 1]? = some s.gainCur ∧ s.lpcHist[d - 1]? = some s.lpcCur

/-- The lines of `t` are those of `s` after the pushes of the sequence, and the aligned values are in place if they were
before or if a frame has passed. -/
def LinesAfter (is : List Instr) (s t : State) : Prop :=
  t.gainHist = ((framedGains is).reverse ++ s.gainHist).take s.params.D ∧
  t.lpcHist = ((framedSets is).reverse ++ s.lpcHist).take s.params.D ∧
  t.featHist = ((framedInputs is).reverse ++ s.featHist).take s.params.D ∧
  (framedGains is ≠ [] ∨ Aligned s.params.D s → Aligned s.params.D t)

/-- A state whose lines and aligned values did not move, after commands that frame nothing. -/
theorem linesAfter_of_unmoved {is : List Instr} {s t : State} (hs : s.Shaped) (hg : framedGains is = [])
    (hl : framedSets is = []) (hf : framedInputs is = [])
    (h : t.gainHist = s.gainHist ∧ t.lpcHist = s.lpcHist ∧ t.featHist = s.featHist ∧ t.frameCount = s.frameCount ∧
      t.lpcCur = s.lpcCur ∧ t.gainCur = s.gainCur) : LinesAfter is s t := by
  obtain ⟨hgain, hlpc, -, hfeat, -⟩ := hs
  obtain ⟨tg, tl, tf, -, tlc, tgc⟩ := h
  refine ⟨?_, ?_, ?_, fun ha => ?_⟩
  · rw [tg, hg, ← hgain]; simp
  · rw [tl, hl, ← hlpc]; simp
  · rw [tf, hf, ← hfeat]; simp
  · have hs := ha.resolve_left (not_not.mpr hg)
    rw [Aligned, tg, tl, tlc, tgc]
    exact hs

/-- An accepted FRAME pushes each line once and reads the oldest slots (R108, R111, R114). -/
theorem linesAfter_frame {n : BitVec 16} {g : F32} {a v : List F32} {s t : State} (hs : s.Inv)
    (h : Accepted (.frame n g a v) s t) : LinesAfter [.frame n g a v] s t := by
  obtain ⟨-, -, -, -, -, rfl⟩ := h
  obtain ⟨-, -, hd, -⟩ := hs.valid.1
  obtain ⟨hgain, hlpc, -, hfeat, -⟩ := hs.shaped
  obtain ⟨hg, hgcur⟩ := push_line hgain hd g 0
  obtain ⟨hl, hlcur⟩ := push_line hlpc hd a []
  rw [openFrame_eq]
  exact ⟨hg, hl, (push_line hfeat hd v []).1, fun _ => ⟨hgcur, hlcur⟩⟩

/-- An accepted command other than INIT and WRREG, as a sequence of one. -/
theorem linesAfter_accepted {i : Instr} {s t : State} (hs : s.Inv) (hinit : i ≠ .init)
    (hwrreg : ∀ addr v, i ≠ .wrreg addr v) (h : Accepted i s t) : LinesAfter [i] s t := by
  have unmoved : (∀ n g a v, i ≠ .frame n g a v) → framedGains [i] = [] → framedSets [i] = [] →
      framedInputs [i] = [] → LinesAfter [i] s t := fun hne hg hl hf =>
    linesAfter_of_unmoved hs.shaped hg hl hf
      (onlyFrameMovesTheDelayLines i s t (exec_of_accepted h) hinit hne hwrreg)
  cases i with
  | frame n g a v => exact linesAfter_frame hs h
  | init | pitch | predict | commit | enc | dec | rdreg | wrreg => exact unmoved (by simp) rfl rfl rfl

/-- A sequence frames what its first command frames, then what the rest does. -/
theorem framed_cons (i : Instr) (is : List Instr) :
    framedGains (i :: is) = framedGains [i] ++ framedGains is ∧
    framedSets (i :: is) = framedSets [i] ++ framedSets is ∧
    framedInputs (i :: is) = framedInputs [i] ++ framedInputs is := by
  cases i <;> exact ⟨rfl, rfl, rfl⟩

/-- A line cut to its depth after some pushes and cut again after more is cut once after all of them. -/
theorem take_append_take {α : Type} (first later line : List α) (d : Nat) :
    (later.reverse ++ (first.reverse ++ line).take d).take d = ((first ++ later).reverse ++ line).take d := by
  rw [List.reverse_append, List.append_assoc, List.take_append, List.take_append (l₁ := later.reverse),
    List.take_take, Nat.min_eq_left (Nat.sub_le _ _)]

theorem LinesAfter.cons {i : Instr} {is : List Instr} {s u t : State} (hp : u.params = s.params)
    (h1 : LinesAfter [i] s u) (h2 : LinesAfter is u t) : LinesAfter (i :: is) s t := by
  obtain ⟨g1, l1, f1, a1⟩ := h1
  obtain ⟨g2, l2, f2, a2⟩ := h2
  obtain ⟨hg, hl, hf⟩ := framed_cons i is
  rw [hp] at g2 l2 f2 a2
  refine ⟨?_, ?_, ?_, fun ha => a2 ?_⟩
  · rw [g2, g1, hg, take_append_take]
  · rw [l2, l1, hl, take_append_take]
  · rw [f2, f1, hf, take_append_take]
  · by_cases hrest : framedGains is = []
    · rw [hg, hrest, List.append_nil] at ha
      exact .inr (a1 ha)
    · exact .inl hrest

/-- A latched error stays for every command but INIT (R35). -/
theorem err_clear_before {i : Instr} {s t : State} (h : exec i s = .next t) (hinit : i ≠ .init) (ht : t.err = false) :
    s.err = false := by
  rcases accepted_err (accepted_of_err_clear h ht) with ⟨rfl, -⟩ | ⟨-, he, -⟩
  · exact absurd rfl hinit
  · exact he ▸ ht

theorem execAll_cons_eq_next {i : Instr} {is : List Instr} {s t : State} (h : execAll (i :: is) s = .next t) :
    ∃ u, exec i s = .next u ∧ execAll is u = .next t := by
  rw [execAll] at h
  cases he : exec i s with
  | next u => rw [he] at h; exact ⟨u, rfl, h⟩
  | fault r => rw [he] at h; cases h
  | refused r => rw [he] at h; cases h

theorem execAll_err_clear_before {is : List Instr} :
    ∀ {s t : State}, (∀ i ∈ is, i ≠ .init) → execAll is s = .next t → t.err = false → s.err = false := by
  induction is with
  | nil => intro s t _ h ht; cases h; exact ht
  | cons i is ih =>
    intro s t hne h ht
    obtain ⟨hi, his⟩ := List.forall_mem_cons.mp hne
    obtain ⟨u, hu, hrest⟩ := execAll_cons_eq_next h
    exact err_clear_before hu hi (ih his hrest ht)

theorem linesAfter_execAll {is : List Instr} :
    ∀ {s t : State}, s.Inv → (∀ i ∈ is, i ≠ .init ∧ ∀ addr v, i ≠ .wrreg addr v) → execAll is s = .next t →
      t.err = false → LinesAfter is s t := by
  induction is with
  | nil =>
    intro s t hs _ h _
    cases h
    exact linesAfter_of_unmoved hs.shaped rfl rfl rfl ⟨rfl, rfl, rfl, rfl, rfl, rfl⟩
  | cons i is ih =>
    intro s t hs hne h ht
    obtain ⟨⟨hinit, hwrreg⟩, his⟩ := List.forall_mem_cons.mp hne
    obtain ⟨u, hu, hrest⟩ := execAll_cons_eq_next h
    have ha := accepted_of_err_clear hu (execAll_err_clear_before (fun j hj => (his j hj).1) hrest ht)
    exact (linesAfter_accepted hs hinit hwrreg ha).cons (accepted_params ha).1 (ih (accepted_inv ha hs) his hrest ht)

/-- Settles O45: by induction over the sequence, every command of which was accepted, since no error is latched at its
end. -/
theorem delayLinesHoldTheLastPushes : Obligations.DelayLinesHoldTheLastPushes := by
  intro is s t hs hne h ht
  obtain ⟨hgain, hlpc, hfeat, haligned⟩ := linesAfter_execAll hs hne h ht
  exact ⟨hgain, hlpc, hfeat, fun hf => haligned (.inl hf)⟩

end Sys2Proof.Machine

/-! Proof of the statement about the host procedure of one frame (70_reset_and_hazards.md R190): each command it issues
is accepted, and the loop over the pairs ends in IDLE. -/

namespace Sys2Proof.Machine

/-! ### Issuing a command -/

/-- A well-formed command presented at the port is executed (R65, R78). -/
theorem handleEvent_presented {i : Instr} {s : State} (hwf : i.WellFormed s.params = true) :
    handleEvent (presented i) s = exec i s := by
  simp only [presented, handleEvent, runTransaction, decodeOfEncodedCommand s.params i hwf]

/-- A host that issues a command which completes takes its response (R73, R190). -/
theorem issue_of_completes {i : Instr} {s t : State} {data : List Word} (hwf : i.WellFormed s.params = true)
    (hc : Completes i s t data) (hlen : data.length < 2 ^ 16) :
    issue i s = some ({ header := headerWord i.opcode false 0 data.length t, data := data }, t) := by
  obtain ⟨hexec, hresp⟩ := hc
  obtain ⟨-, herr, -⟩ := headerWord_fields i.opcode false 0 data.length t hlen
  rw [issue, handleEvent_presented hwf, hexec]
  simp only [hresp, List.getLast?_concat, herr, Bool.false_eq_true, if_false]

/-- A command that completes and leaves no error latched keeps the invariant. -/
theorem completes_inv {i : Instr} {s t : State} {data : List Word} (hc : Completes i s t data) (hs : s.Inv)
    (ht : t.err = false) : t.Inv :=
  accepted_inv (accepted_of_err_clear hc.1 ht) hs

/-! ### The loop over the pairs (R190 step 5) -/

/-- What the host has after a frame: `count` samples, and a block in IDLE that keeps its invariant. -/
def YieldsSamples {σ : Type} (result : Option (List Word × σ × State)) (count : Nat) : Prop :=
  ∃ pcm h t, result = some (pcm, h, t) ∧ pcm.length = count ∧ t.Inv ∧ t.err = false ∧ t.phase = .idle

/-- The state after PREDICT in PAIR_READY, its response among it (R142). -/
abbrev predicted (s : State) : State :=
  respond 3 (bundle s) { s with pred1 := currentPrediction s, phase := .pairWait, nanEpoch := s.nanEpoch + 1 }

/-- The state after COMMIT in PAIR_WAIT, its response among it (R143). -/
abbrev committed (e1 e0 : Code) (s : State) : State :=
  respond 4 (committedSamples e1 e0 s) (closePair (commitSecond e0 (commitFirst e1 s).2).2)

/-- What a COMMIT leaves of the latch and of the sequencer (R143). -/
theorem committed_fields (e1 e0 : Code) (s : State) :
    (committed e1 e0 s).err = s.err ∧ (committed e1 e0 s).pairsLeft = s.pairsLeft - 1 ∧
      (committed e1 e0 s).phase ≠ .pairWait := by
  rw [committed, commit_state]
  refine ⟨rfl, rfl, ?_⟩
  rw [respond_phase]
  split <;> simp

/-- One pair of the loop: PREDICT and COMMIT are both answered (R137, R143). -/
theorem synthesizePairs_succ {σ : Type} (generate : σ → List Word → (Code × Code) × σ) (k : Nat) (h : σ) {s : State}
    (he : s.err = false) (hp : s.phase = .pairReady) :
    ∃ e1 e0 h', synthesizePairs generate (k + 1) h s =
      (synthesizePairs generate k h' (committed e1 e0 (predicted s))).map fun rest =>
        (committedSamples e1 e0 (predicted s) ++ rest.1, rest.2) := by
  have hpredict := issue_of_completes rfl (completes_predict he hp) (by simp [bundle])
  have hcommit := fun e1 e0 => issue_of_completes rfl
    (completes_commit e1 e0 (s := predicted s) he rfl) (by simp)
  refine ⟨(generate h (bundle s)).1.1, (generate h (bundle s)).1.2, (generate h (bundle s)).2, ?_⟩
  rw [synthesizePairs, hpredict, Option.bind_some, hcommit, Option.bind_some]

/-- With `k` pairs due and none half done the loop yields `2 k` samples and ends in IDLE: by induction on `k`, since
each COMMIT counts `pairs_left` down by one. -/
theorem synthesizePairs_yields {σ : Type} (generate : σ → List Word → (Code × Code) × σ) (k : Nat) :
    ∀ (h : σ) {s : State}, s.Inv → s.err = false → s.phase ≠ .pairWait → s.pairsLeft.toNat = k →
      YieldsSamples (synthesizePairs generate k h s) (2 * k) := by
  induction k with
  | zero =>
    intro h s hs he _ hk
    have hidle : s.phase = .idle := hs.sequenced.1.mpr (BitVec.eq_of_toNat_eq hk)
    exact ⟨[], h, s, rfl, rfl, hs, he, hidle⟩
  | succ k ih =>
    intro h s hs he hw hk
    have hready : s.phase = .pairReady := by
      have hidle : s.phase ≠ .idle := fun hp => by
        rw [hs.sequenced.1.mp hp] at hk
        cases hk
      cases hp : s.phase with
      | idle => exact absurd hp hidle
      | pairReady => rfl
      | pairWait => exact absurd hp hw
    obtain ⟨e1, e0, h', hloop⟩ := synthesizePairs_succ generate k h he hready
    obtain ⟨herr, hdown, hnext⟩ := committed_fields e1 e0 (predicted s)
    have herr : (committed e1 e0 (predicted s)).err = false := herr.trans he
    have hpinv := completes_inv (completes_predict he hready) hs he
    have hcinv := completes_inv (completes_commit e1 e0 (s := predicted s) he rfl) hpinv herr
    have hleft : (committed e1 e0 (predicted s)).pairsLeft.toNat = k := by
      have hcount := toNat_pairsLeft_sub_one hpinv.sequenced (by simp)
      have hkeep : (predicted s).pairsLeft = s.pairsLeft := rfl
      rw [hdown]
      rw [hkeep] at hcount ⊢
      omega
    obtain ⟨pcm, h'', t, hrest, hlen, ht⟩ := ih h' hcinv herr hnext hleft
    refine ⟨committedSamples e1 e0 (predicted s) ++ pcm, h'', t, ?_, ?_, ht⟩
    · rw [hloop, hrest, Option.map_some]
    · rw [List.length_append, hlen]
      simp
      omega

/-! ### The whole frame (R190) -/

/-- Steps 4 and 5 of R190: after FRAME the host has its samples in the answer, or makes them pair by pair. -/
theorem frame_yields {σ : Type} (generate : σ → List Word → (Code × Code) × σ) {n : BitVec 16} (g : F32)
    {a v : List F32} (h : σ) {s : State} (hs : s.Inv) (he : s.err = false) (hp : s.phase = .idle)
    (hn : n.toNat % 2 = 0) (hwf : (Instr.frame n g a v).WellFormed s.params = true) :
    YieldsSamples
      ((issue (.frame n g a v) s).bind fun r =>
        if r.1.data.tail.length = n.toNat then some (r.1.data.tail, h, r.2)
        else synthesizePairs generate (n.toNat / 2) h r.2) n.toNat := by
  have hc := completes_frame he hp hwf hn
  have hlen : (frameAnswer n (alignFrame g a v s)).length < 2 ^ 16 := by
    have := n.isLt
    unfold frameAnswer
    split <;> simp
    omega
  have herr : (openFrame n (alignFrame g a v s)).err = false := by rw [openFrame_eq]; exact he
  have hinv := completes_inv hc hs herr
  rw [issue_of_completes hwf hc hlen, Option.bind_some]
  cases hgate : active (alignFrame g a v s) with
  | false =>
    have htail : (frameAnswer n (alignFrame g a v s)).tail = List.replicate n.toNat 0 := by
      simp [frameAnswer, hgate]
    have hidle : (openFrame n (alignFrame g a v s)).phase = .idle := by rw [openFrame_warmUp hgate]; rfl
    rw [htail, if_pos List.length_replicate]
    exact ⟨_, h, _, rfl, List.length_replicate, hinv, herr, hidle⟩
  | true =>
    have htail : (frameAnswer n (alignFrame g a v s)).tail = [] := by simp [frameAnswer, hgate]
    have hphase : (openFrame n (alignFrame g a v s)).phase = if n = 0 then .idle else .pairReady := by
      rw [openFrame_active hgate]; rfl
    have hleft : (openFrame n (alignFrame g a v s)).pairsLeft.toNat = n.toNat / 2 := by
      rw [openFrame_active hgate]
      simp [Nat.shiftRight_one]
    rw [htail]
    split
    case isTrue h0 =>
      have hz : n = 0 := BitVec.eq_of_toNat_eq h0.symm
      exact ⟨[], h, _, rfl, h0, hinv, herr, hphase.trans (if_pos hz)⟩
    case isFalse =>
      have hw : (openFrame n (alignFrame g a v s)).phase ≠ .pairWait := by
        rw [hphase]
        split <;> simp
      have hpairs := synthesizePairs_yields generate _ h hinv herr hw hleft
      rwa [show 2 * (n.toNat / 2) = n.toNat by omega] at hpairs

/-- Settles O53: PITCH and RDREG are answered and change nothing that FRAME needs; then FRAME and the loop. -/
theorem frameProcedureYieldsItsSamples : Obligations.FrameProcedureYieldsItsSamples := by
  intro σ condition generate n f g h s hs he hp hn hsizes
  have hlag := (completes_pitch f he).1
  have hcount := (completes_rdreg (addr := regImm s.params .frameCount) (r := .frameCount)
    (s := respond 1 [BitVec.ofNat 32 (pitchLag s.params.consts f)] s) rfl).1
  rw [synthesize, issue_of_completes rfl hlag (by simp), Option.bind_some, issue_of_completes rfl hcount (by simp),
    Option.bind_some]
  refine frame_yields generate g _ (respond_inv _ _ (respond_inv _ _ hs)) he hp hn ?_
  obtain ⟨ha, hv⟩ := hsizes h _ _
  simp only [Instr.WellFormed, Bool.and_eq_true, beq_iff_eq]
  exact ⟨ha, hv⟩

end Sys2Proof.Machine

/-! Proof of the statement about the patterns of NaNs (R15, U3): two states that differ in such patterns alone answer
every command but RDREG alike. The proof runs the two states through each meaning side by side. -/

namespace Sys2Proof.Machine

/-! ### The window up to the pattern of a NaN -/

/-- A push of like values onto like windows. -/
theorem push_same {l l' : List F32} {x x' : F32} (hl : List.Forall₂ Num.Same l l') (hx : Num.Same x x') :
    List.Forall₂ Num.Same (push l x) (push l' x') := by
  rw [push, push, List.dropLast_eq_take, List.dropLast_eq_take, hl.length_eq]
  exact .cons hx (List.forall₂_take _ hl)

theorem getD_same {l l' : List F32} (hl : List.Forall₂ Num.Same l l') (k : Nat) :
    Num.Same (l.getD k 0) (l'.getD k 0) := by
  induction hl generalizing k with
  | nil => exact .refl _
  | cons hx _ ih =>
    cases k with
    | zero => exact hx
    | succ k => exact ih k

theorem set_same {l l' : List F32} (hl : List.Forall₂ Num.Same l l') (k : Nat) (v : F32) :
    List.Forall₂ Num.Same (l.set k v) (l'.set k v) := by
  induction hl generalizing k with
  | nil => exact .nil
  | cons hx hrest ih =>
    cases k with
    | zero => exact .cons (.refl v) hrest
    | succ k => exact .cons hx (ih k)

/-! ### Two outcomes side by side -/

/-- From `s` and `t` the two outcomes are next states that differ in NaN patterns alone, after one response, the same in
both. -/
def SameOutcome (s t : State) (o o' : Host.Outcome State Fault Refusal) : Prop :=
  ∃ s' t' r, o = .next s' ∧ o' = .next t' ∧ SameButNaNs s' t' ∧
    s'.responses = s.responses ++ [r] ∧ t'.responses = t.responses ++ [r]

theorem SameOutcome.ite {s t : State} {c : Prop} [Decidable c] {a b a' b' : Host.Outcome State Fault Refusal}
    (ha : SameOutcome s t a a') (hb : SameOutcome s t b b') :
    SameOutcome s t (if c then a else b) (if c then a' else b') := by
  split
  · exact ha
  · exact hb

/-- What the checks of a command read (R176) is the same in both states. -/
theorem SameButNaNs.checks {s t : State} (h : SameButNaNs s t) :
    s.params = t.params ∧ s.frameCount = t.frameCount ∧ s.phase = t.phase ∧ s.err = t.err := by
  obtain ⟨hp, hc, -, -, -, -, -, -, -, -, -, -, -, hph, he, -⟩ := h
  exact ⟨hp, hc, hph, he⟩

theorem SameButNaNs.latchBlocks_eq {s t : State} (h : SameButNaNs s t) (op : BitVec 4) :
    latchBlocks op s = latchBlocks op t := by
  rw [latchBlocks, latchBlocks, h.checks.2.2.2]

/-- The header shows no amplitude (R74). -/
theorem SameButNaNs.headerWord_eq {s t : State} (h : SameButNaNs s t) (op : BitVec 4) (err : Bool) (ecode : BitVec 4)
    (n : Nat) : headerWord op err ecode n s = headerWord op err ecode n t := by
  obtain ⟨hp, hc, hph, -⟩ := h.checks
  rw [headerWord, headerWord, active_congr hp hc, hph]

/-- An accepted command that leaves like states and answers the same words. -/
theorem sameOutcome_respond {s t s' t' : State} (op : BitVec 4) {data data' : List Word} (h : SameButNaNs s' t')
    (hd : data = data') (hs : s'.responses = s.responses) (ht : t'.responses = t.responses) :
    SameOutcome s t (.next (respond op data s')) (.next (respond op data' t')) := by
  subst hd
  refine ⟨_, _, { header := headerWord op false 0 data.length s', data := data }, rfl, rfl, h, ?_, ?_⟩
  · rw [respond_responses, hs]
  · rw [respond_responses, ht, h.headerWord_eq]

/-- A refusal for the same reason leaves like states and the same response (R168). -/
theorem sameOutcome_raise {s t : State} (h : SameButNaNs s t) (op : BitVec 4) (e : ErrCode) :
    SameOutcome s t (.next (raise op e s)) (.next (raise op e t)) := by
  rw [raise_eq, raise_eq]
  refine ⟨_, _, _, rfl, rfl, ?_, rfl, ?_⟩
  · obtain ⟨hp, hc, hf, hl, hg, hsig, hx0, hx1, hm, hlc, hgc, hp1, hpl, hph, he, hec⟩ := h
    exact ⟨hp, hc, hf, hl, hg, hsig, hx0, hx1, hm, hlc, hgc, hp1, hpl, hph, rfl, by simp [he, hec]⟩
  · rw [h.headerWord_eq]

/-! ### The states each command leaves -/

theorem clearState_sameButNaNs {s t : State} (h : SameButNaNs s t) : SameButNaNs (clearState s) (clearState t) := by
  obtain ⟨hp, -⟩ := h.checks
  simp [SameButNaNs, hp, Num.Same.refl]

/-- FRAME reads no amplitude that arithmetic produced (R111 to R114). -/
theorem alignFrame_sameButNaNs (g : F32) (a v : List F32) {s t : State} (h : SameButNaNs s t) :
    SameButNaNs (alignFrame g a v s) (alignFrame g a v t) := by
  obtain ⟨hp, hc, hf, hl, hg, hsig, hx0, hx1, hm, -, -, hp1, hpl, hph, he, hec⟩ := h
  refine ⟨hp, ?_, ?_, ?_, ?_, hsig, hx0, hx1, hm, ?_, ?_, hp1, hpl, hph, he, hec⟩ <;>
    simp [alignFrame, hp, hc, hf, hl, hg]

theorem openFrame_sameOutcome (n : BitVec 16) {s t u w : State} (h : SameButNaNs u w)
    (hs : u.responses = s.responses) (ht : w.responses = t.responses) :
    SameOutcome s t (.next (openFrame n u)) (.next (openFrame n w)) := by
  obtain ⟨hp, hc, -⟩ := h.checks
  obtain ⟨-, -, hf, hl, hg, hsig, hx0, hx1, hm, hlc, hgc, hp1, -, -, he, hec⟩ := id h
  unfold openFrame
  rw [active_congr hp hc]
  split <;>
    exact sameOutcome_respond 2 ⟨hp, hc, hf, hl, hg, hsig, hx0, hx1, hm, hlc, hgc, hp1, rfl, rfl, he, hec⟩
      (by rw [hgc]) hs ht

/-- A register write stores the same word in both states (R158). -/
theorem memWrite_sameButNaNs (r : Reg) (v : Word) {s t : State} (h : SameButNaNs s t) :
    SameButNaNs (memWrite r v s) (memWrite r v t) := by
  obtain ⟨hp, hc, hf, hl, hg, hsig, hx0, hx1, hm, hrest⟩ := id h
  cases r with
  | frameCount => exact ⟨hp, by rw [memWrite, memWrite, hp], hf, hl, hg, hsig, hx0, hx1, hm, hrest⟩
  | deemphMem => exact ⟨hp, hc, hf, hl, hg, hsig, hx0, hx1, .refl v, hrest⟩
  | lastExc => exact ⟨hp, hc, hf, hl, hg, hsig, rfl, rfl, hm, hrest⟩
  | lastSig j => exact ⟨hp, hc, hf, hl, hg, set_same hsig j v, hx0, hx1, hm, hrest⟩
  | gainHist j => exact ⟨hp, hc, hf, hl, by rw [memWrite, memWrite, hg], hsig, hx0, hx1, hm, hrest⟩
  | lpcHist j i => exact ⟨hp, hc, hf, by rw [memWrite, memWrite, hl], hg, hsig, hx0, hx1, hm, hrest⟩
  | featHist j i => exact ⟨hp, hc, by rw [memWrite, memWrite, hf], hl, hg, hsig, hx0, hx1, hm, hrest⟩
  | _ => exact h

/-- The bundle shows codes, not amplitudes (R75, R137). -/
theorem bundle_sameButNaNs {s t : State} (h : SameButNaNs s t) : bundle s = bundle t := by
  obtain ⟨hp, -, -, -, -, hsig, hx0, hx1, -, hlc, hgc, -⟩ := h
  have hpred : Num.Same (currentPrediction s) (currentPrediction t) := by
    rw [currentPrediction, currentPrediction, hlc]
    exact lpcPredict_same _ _ _ hsig
  rw [bundle, bundle, hp, hx0, hx1, hgc, encode8_same _ hpred, encode8_same _ (getD_same hsig 0),
    encode8_same _ (getD_same hsig 1)]

theorem reconstruct_same_of_same (epoch epoch' : Nat) (p : Params) {x x' : F32} (e : Code) (h : Num.Same x x') :
    Num.Same (reconstruct epoch p x e) (reconstruct epoch' p x' e) := Num.same_fadd _ _ h (.refl _)

theorem deemphasise_same_of_same (epoch epoch' : Nat) (k : Consts) {x x' m m' : F32} (hx : Num.Same x x')
    (hm : Num.Same m m') : Num.Same (deemphasise epoch k x m) (deemphasise epoch' k x' m') :=
  Num.same_fadd _ _ hx (Num.same_fmul _ _ (.refl _) hm)

/-- The amplitudes of a COMMIT, in the order in which each is made from those before (R129, R131, R139). -/
theorem commit_amplitudes_same (e1 e0 : Code) {s t : State} (h : SameButNaNs s t) :
    Num.Same (pcmFirst e1 s) (pcmFirst e1 t) ∧ Num.Same (memFirst e1 s) (memFirst e1 t) ∧
    Num.Same (pcmSecond e1 e0 s) (pcmSecond e1 e0 t) ∧ Num.Same (memSecond e1 e0 s) (memSecond e1 e0 t) := by
  obtain ⟨hp, -, -, -, -, hsig, -, -, hm, hlc, -, hp1, -⟩ := h
  have hpcm1 : Num.Same (pcmFirst e1 s) (pcmFirst e1 t) := by
    rw [pcmFirst, hp]
    exact reconstruct_same_of_same _ _ _ e1 hp1
  have hmem1 : Num.Same (memFirst e1 s) (memFirst e1 t) := by
    rw [memFirst, hp]
    exact deemphasise_same_of_same _ _ _ hpcm1 hm
  have hpred : Num.Same (predSecond e1 s) (predSecond e1 t) := by
    rw [predSecond, hlc]
    exact lpcPredict_same _ _ _ (push_same hsig hpcm1)
  have hpcm0 : Num.Same (pcmSecond e1 e0 s) (pcmSecond e1 e0 t) := by
    rw [pcmSecond, hp]
    exact reconstruct_same_of_same _ _ _ e0 hpred
  refine ⟨hpcm1, hmem1, hpcm0, ?_⟩
  rw [memSecond, hp]
  exact deemphasise_same_of_same _ _ _ hpcm0 hmem1

theorem commit_sameOutcome (e1 e0 : Code) {s t : State} (h : SameButNaNs s t) :
    SameOutcome s t
      (.next (respond 4 (committedSamples e1 e0 s) (closePair (commitSecond e0 (commitFirst e1 s).2).2)))
      (.next (respond 4 (committedSamples e1 e0 t) (closePair (commitSecond e0 (commitFirst e1 t).2).2))) := by
  obtain ⟨hpcm1, hmem1, hpcm0, hmem0⟩ := commit_amplitudes_same e1 e0 h
  obtain ⟨hp, hc, hf, hl, hg, hsig, -, -, -, hlc, hgc, hp1, hpl, -, he, hec⟩ := h
  rw [commit_state, commit_state]
  refine sameOutcome_respond 4
    ⟨hp, hc, hf, hl, hg, push_same (push_same hsig hpcm1) hpcm0, rfl, rfl, hmem0, hlc, hgc, hp1, ?_, ?_, he, hec⟩
    ?_ rfl rfl
  · rw [hpl]
  · rw [hpl]
  · rw [committedSamples, committedSamples, hp, quant_same _ hmem1, quant_same _ hmem0]

/-! ### Each command -/

theorem exec_sameOutcome {i : Instr} {s t : State} (h : SameButNaNs s t) (hwf : i.WellFormed s.params = true)
    (hrd : ∀ addr, i ≠ .rdreg addr) : SameOutcome s t (exec i s) (exec i t) := by
  obtain ⟨hp, hc, hph, he⟩ := h.checks
  have hblocks := h.latchBlocks_eq
  cases i with
  | rdreg addr => exact absurd rfl (hrd addr)
  | init => exact sameOutcome_respond 0 (clearState_sameButNaNs h) rfl rfl rfl
  | pitch f =>
    rw [exec, exec, execPitch, execPitch, hblocks]
    exact (sameOutcome_raise h _ _).ite (sameOutcome_respond _ h (by rw [hp]) rfl rfl)
  | enc x =>
    rw [exec, exec, execEnc, execEnc, hblocks]
    exact (sameOutcome_raise h _ _).ite (sameOutcome_respond _ h (by rw [hp]) rfl rfl)
  | dec u =>
    rw [exec, exec, execDec, execDec, hblocks]
    exact (sameOutcome_raise h _ _).ite (sameOutcome_respond _ h (by rw [hp]) rfl rfl)
  | frame n g a v =>
    rw [exec_frame_eq hwf, exec_frame_eq (hp ▸ hwf), hblocks, hph]
    simp only [← raise_eq]
    exact (sameOutcome_raise h _ _).ite ((sameOutcome_raise h _ _).ite ((sameOutcome_raise h _ _).ite
      (openFrame_sameOutcome n (alignFrame_sameButNaNs g a v h) rfl rfl)))
  | predict =>
    rw [exec, exec, execPredict, execPredict, hblocks, hph]
    refine (sameOutcome_raise h _ _).ite ((sameOutcome_raise h _ _).ite
      (sameOutcome_respond _ ?_ (bundle_sameButNaNs h) rfl rfl))
    obtain ⟨-, -, hf, hl, hg, hsig, hx0, hx1, hm, hlc, hgc, -, hpl, -, -, hec⟩ := h
    refine ⟨hp, hc, hf, hl, hg, hsig, hx0, hx1, hm, hlc, hgc, ?_, hpl, rfl, he, hec⟩
    rw [currentPrediction, currentPrediction, hlc]
    exact lpcPredict_same _ _ _ hsig
  | commit e1 e0 =>
    rw [exec, exec, execCommit, execCommit, hblocks, hph]
    exact (sameOutcome_raise h _ _).ite ((sameOutcome_raise h _ _).ite (commit_sameOutcome e1 e0 h))
  | wrreg addr v =>
    rw [exec, exec, execWrreg, execWrreg, hblocks, hph, hp]
    refine (sameOutcome_raise h _ _).ite ((sameOutcome_raise h _ _).ite ?_)
    cases regAt t.params addr with
    | none => exact sameOutcome_raise h _ _
    | some r =>
      exact (sameOutcome_respond _ (memWrite_sameButNaNs r v h) rfl (memWrite_responses r v s)
        (memWrite_responses r v t)).ite (sameOutcome_raise h _ _)

/-- Settles O52: the checks read no amplitude, each meaning keeps the relation, and an answer shows codes and samples,
which treat all NaNs alike. -/
theorem naNPatternsShowOnlyThroughRdreg : Obligations.NaNPatternsShowOnlyThroughRdreg :=
  fun _ _ _ => exec_sameOutcome

end Sys2Proof.Machine

/-! Proofs of the statements about the register map (10_state.md R40 to R47) and about state access
(43_state_access.md): RDREG, WRREG and the pseudo-instructions SAVE and RESTORE (R80, R160). -/

namespace Sys2Proof.Machine

/-! ### The map, RDREG and WRREG (R40, R153, R156) -/

/-- Settles O26: the lookup is the inverse of the address of a register. -/
theorem registerMapIsOneToOne : Obligations.RegisterMapIsOneToOne :=
  fun _ hp => ⟨fun _ hr => ⟨regAddr_lt hp.1 hr, regAt_regAddr hp.1 hr⟩, fun _ _ => regAt_spec⟩

/-- Settles O27: the register is found at its address, and `memRead` is its content. -/
theorem rdregAnswersTheContent : Obligations.RdregAnswersTheContent := by
  intro r s hs hr
  obtain ⟨hc, ho⟩ := completes_rdreg (regAt_regAddr hs.valid.1 hr)
  exact ⟨_, _, hc, readsAs_memRead hs hr, ho⟩

/-- Settles O31: the register is found at its address, and `memWrite` writes it alone. -/
theorem wrregWritesOneRegister : Obligations.WrregWritesOneRegister := by
  intro r v s hs he hp hr hw
  obtain ⟨-, -, -, -, -, -, -, -, hcap⟩ := hs.valid.1
  refine ⟨_, completes_wrreg v he hp (regAt_regAddr hs.valid.1 hr) hw,
    fun hf hx => readsAs_respond (readsAs_memWrite_self hs.shaped hr hw hf hx), ?_, ?_,
    fun r' w hr' hne hst h => readsAs_respond (readsAs_memWrite_other hs.shaped hne hst hw hr' h), ?_⟩
  · rintro rfl
    exact toNat_min_cap hcap
  · rintro rfl
    exact ⟨rfl, rfl⟩
  · simp

/-! ### The registers of an image (R42, R80) -/

/-- A slot-major window is dense (R47): its addresses are consecutive. -/
theorem window_dense (base n m : Nat) :
    ((List.range n).flatMap fun j => (List.range m).map fun i => base + j * m + i) =
      (List.range (n * m)).map (base + ·) := by
  induction n with
  | zero => simp
  | succ n ih =>
    rw [List.range_succ, List.flatMap_append, ih, Nat.succ_mul, List.range_add, List.map_append, List.map_map]
    simp [Nat.add_assoc, Function.comp_def]

/-- The addresses of the image, in the order of SAVE. -/
theorem map_regAddr_savedRegs (p : Params) :
    (savedRegs p).map (regAddr p) =
      [0x9, 0xA, 0xB] ++ (List.range p.P).map (0x100 + ·) ++ (List.range p.D).map (0x300 + ·) ++
        (List.range (p.D * p.P)).map (0x1000 + ·) ++ (List.range (p.D * p.F)).map (0x2000 + ·) := by
  rw [← window_dense, ← window_dense]
  simp [savedRegs, List.map_flatMap, Function.comp_def, regAddr]

theorem length_savedRegs (p : Params) : (savedRegs p).length = p.stateSize := by
  have h := congrArg List.length (map_regAddr_savedRegs p)
  simp only [List.length_map, List.length_append, List.length_range, List.length_cons, List.length_nil] at h
  rw [h, Params.stateSize]
  ring

/-- Ascending addresses below a window, followed by the window, ascend up to the window's end. -/
theorem ascending_append_window {l : List Nat} {base : Nat} (n : Nat) (hl : l.Pairwise (· < ·))
    (hb : ∀ a ∈ l, a < base) :
    (l ++ (List.range n).map (base + ·)).Pairwise (· < ·) ∧ ∀ a ∈ l ++ (List.range n).map (base + ·), a < base + n := by
  have hwin : ((List.range n).map (base + ·)).Pairwise (· < ·) :=
    List.pairwise_map.mpr (List.pairwise_lt_range.imp fun h => Nat.add_lt_add_left h base)
  constructor
  · refine List.pairwise_append.mpr ⟨hl, hwin, fun a ha b hb' => ?_⟩
    obtain ⟨k, -, rfl⟩ := List.mem_map.mp hb'
    exact Nat.lt_add_right k (hb a ha)
  · intro a ha
    rcases List.mem_append.mp ha with ha | ha
    · exact Nat.lt_add_right n (hb a ha)
    · obtain ⟨k, hk, rfl⟩ := List.mem_map.mp ha
      exact Nat.add_lt_add_left (List.mem_range.mp hk) base

/-- The image is in ascending address order: each window begins after the one before ends (R9, R40). -/
theorem savedRegs_ascending {p : Params} (hp : p.SizesOk) : ((savedRegs p).map (regAddr p)).Pairwise (· < ·) := by
  obtain ⟨-, hP, -, hD, hDP, -⟩ := hp
  obtain ⟨h1, b1⟩ := ascending_append_window (l := [0x9, 0xA, 0xB]) (base := 0x100) p.P (by decide) (by decide)
  obtain ⟨h2, b2⟩ := ascending_append_window (base := 0x300) p.D h1 fun a ha => by have := b1 a ha; omega
  obtain ⟨h3, b3⟩ := ascending_append_window (base := 0x1000) (p.D * p.P) h2 fun a ha => by have := b2 a ha; omega
  rw [map_regAddr_savedRegs]
  exact (ascending_append_window (base := 0x2000) (p.D * p.F) h3 fun a ha => by have := b3 a ha; omega).1

/-- The registers of the image are the writable ones: the persistent state (R42, R160). -/
theorem mem_savedRegs (p : Params) (r : Reg) : r ∈ savedRegs p ↔ regExists p r = true ∧ regWritable r = true := by
  cases r <;> simp [savedRegs, regExists, regWritable]

/-! ### SAVE (R80) -/

/-- An answer changes no register. -/
theorem memRead_respond (op : BitVec 4) (data : List Word) (s : State) (r : Reg) :
    memRead r (respond op data s) = memRead r s := by
  cases r <;> rfl

/-- Reading a list of registers answers the content of each and changes nothing but the response port. -/
theorem execAll_rdreg {l : List Reg} :
    ∀ {s : State}, s.params.SizesOk → (∀ r ∈ l, regExists s.params r = true) →
      ∃ t rs, execAll (l.map fun r => .rdreg (regImm s.params r)) s = .next t ∧ OnlyAnswered s t ∧
        t.responses = s.responses ++ rs ∧ rs.map Response.data = l.map fun r => [memRead r s] := by
  induction l with
  | nil => exact fun {s} _ _ => ⟨s, [], rfl, rfl, (List.append_nil _).symm, rfl⟩
  | cons r l ih =>
    intro s hp hl
    obtain ⟨hr, hl⟩ := List.forall_mem_cons.mp hl
    obtain ⟨⟨hexec, hresp⟩, -⟩ := completes_rdreg (regAt_regAddr hp hr)
    obtain ⟨t, rs, hrest, honly, hrs, hdata⟩ := ih (s := respond 7 [memRead r s] s) hp hl
    refine ⟨t, { header := headerWord 7 false 0 1 (respond 7 [memRead r s] s), data := [memRead r s] } :: rs, ?_, honly,
      ?_, ?_⟩
    · rw [List.map_cons, execAll, regImm, hexec]
      exact hrest
    · rw [hrs, hresp, List.append_assoc]
      rfl
    · rw [List.map_cons, hdata]
      simp only [memRead_respond, List.map_cons]

/-- Settles O32: the addresses ascend from window to window, and each RDREG answers its register. -/
theorem saveAnswersTheImage : Obligations.SaveAnswersTheImage := by
  refine ⟨fun p hp => ⟨length_savedRegs p, savedRegs_ascending hp.1, mem_savedRegs p⟩, fun s hs => ?_⟩
  have hexists : ∀ r ∈ savedRegs s.params, regExists s.params r = true := fun r hr => ((mem_savedRegs _ r).mp hr).1
  obtain ⟨t, rs, hexec, honly, hrs, hdata⟩ := execAll_rdreg hs.valid.1 hexists
  refine ⟨t, rs, (savedRegs s.params).map fun r => memRead r s, hexec, honly, hrs, ?_, ?_⟩
  · rw [hdata, List.map_map]
    rfl
  · rw [List.forall₂_map_right_iff, List.forall₂_same]
    exact fun r hr => readsAs_memRead hs (hexists r hr)

/-! ### RESTORE (R80, R160) -/

/-- A saved content written back is the content: the counter was within its cap, and `LAST_EXC` has zeros above its
codes (R44, R46). -/
theorem readsAs_memWrite_saved {r : Reg} {v : Word} {s u : State} (hs : s.Inv) (hu : u.Inv)
    (hp : u.params = s.params) (hr : regExists s.params r = true) (hw : regWritable r = true) (h : ReadsAs s r v) :
    ReadsAs (memWrite r v u) r v := by
  by_cases hf : r = .frameCount
  · subst hf
    have hv : v.toNat = s.frameCount.toNat := h
    have hle := hs.counted
    have hwidth := s.frameCount.isLt
    show v.toNat = (BitVec.ofNat 16 (min v.toNat u.params.CAP)).toNat
    rw [BitVec.toNat_ofNat, hp]
    omega
  · by_cases hx : r = .lastExc
    · subst hx
      exact ⟨rfl, rfl, h.2.2⟩
    · exact readsAs_memWrite_self hu.shaped (hp ▸ hr) hw hf hx

/-- `u` is an idle block with the parameters of `s` and with no error latched. -/
structure ReadyFor (s u : State) : Prop where
  inv : u.Inv
  params : u.params = s.params
  clear : u.err = false
  idle : u.phase = .idle

/-- Writing contents of `s` to a block that is ready for them: all are accepted, and what was written, or stood there
before, is there in the end. -/
theorem execAll_wrreg {s : State} (hs : s.Inv) {l : List (Reg × Word)} :
    ∀ {u : State}, ReadyFor s u →
      (∀ rv ∈ l, regExists s.params rv.1 = true ∧ regWritable rv.1 = true ∧ ReadsAs s rv.1 rv.2) →
      ∃ t, execAll (l.map fun rv => .wrreg (regImm s.params rv.1) rv.2) u = .next t ∧ ReadyFor s t ∧
        t.responses.length = u.responses.length + l.length ∧
        ∀ r w, regExists s.params r = true → regWritable r = true → ReadsAs s r w →
          ReadsAs u r w ∨ (r, w) ∈ l → ReadsAs t r w := by
  induction l with
  | nil => exact fun {u} hu _ => ⟨u, rfl, hu, rfl, fun r w _ _ _ h => h.resolve_right (by simp)⟩
  | cons rv l ih =>
    intro u hu hl
    obtain ⟨r, v⟩ := rv
    obtain ⟨⟨hr, hw, hv⟩, hl⟩ := List.forall_mem_cons.mp hl
    have hat : regAt u.params (regImm s.params r) = some r := by
      rw [hu.params]
      exact regAt_regAddr hs.valid.1 hr
    obtain ⟨hexec, hresp⟩ := completes_wrreg v hu.clear hu.idle hat hw
    have hwritten : ReadsAs (memWrite r v u) r v := readsAs_memWrite_saved hs hu.inv hu.params hr hw hv
    have hready : ReadyFor s (respond 8 [] (memWrite r v u)) :=
      ⟨respond_inv _ _ (memWrite_inv r v hu.inv hu.idle), (memWrite_params r v u).trans hu.params,
        (memWrite_err r v u).trans hu.clear, (memWrite_phase r v u).trans hu.idle⟩
    obtain ⟨t, hrest, ht, hlen, hreads⟩ := ih hready hl
    refine ⟨t, ?_, ht, ?_, fun r' w hr' hw' hs' hor => hreads r' w hr' hw' hs' ?_⟩
    · rw [List.map_cons, execAll, hexec]
      exact hrest
    · rw [hlen, hresp, List.length_append, List.length_singleton, List.length_cons]
      omega
    · by_cases hne : r' = r
      · subst hne
        have hval : w = v := (ReadsAs_unique hs hr hs').trans (ReadsAs_unique hs hr hv).symm
        exact .inl (readsAs_respond (hval ▸ hwritten))
      · refine hor.imp (fun h => ?_) (fun h => ?_)
        · have hst : r' ≠ .status := by rintro rfl; cases hw'
          exact readsAs_respond (readsAs_memWrite_other hu.inv.shaped hne hst hw (by rw [hu.params]; exact hr') h)
        · exact (List.mem_cons.mp h).resolve_left fun heq => hne (congrArg Prod.fst heq)

/-- Lines of one depth with the same value in every slot are the same. -/
theorem eq_of_common_slots {α : Type} {l l' : List α} {n : Nat} (hl : l.length = n) (hl' : l'.length = n)
    (h : ∀ j, j < n → ∃ x, l[j]? = some x ∧ l'[j]? = some x) : l = l' := by
  refine List.ext_getElem? fun j => ?_
  rcases Nat.lt_or_ge j n with hj | hj
  · obtain ⟨x, h1, h2⟩ := h j hj
    rw [h1, h2]
  · rw [List.getElem?_eq_none (hl ▸ hj), List.getElem?_eq_none (hl' ▸ hj)]

/-- The same for lines of vectors, element by element (R47). -/
theorem eq_of_common_elements {l l' : List (List F32)} {n m : Nat} (hl : l.length = n) (hl' : l'.length = n)
    (hm : ∀ x ∈ l, x.length = m) (hm' : ∀ x ∈ l', x.length = m)
    (h : ∀ j i, j < n → i < m → ∃ w, (∃ x, l[j]? = some x ∧ x[i]? = some w) ∧ ∃ y, l'[j]? = some y ∧ y[i]? = some w) :
    l = l' := by
  refine eq_of_common_slots hl hl' fun j hj => ?_
  have hx := getD_of_lt l [] (i := j) (by omega)
  have hy := getD_of_lt l' [] (i := j) (by omega)
  refine ⟨_, hx, hy.trans (congrArg some ?_)⟩
  refine eq_of_common_slots (hm' _ (List.mem_of_getElem? hy)) (hm _ (List.mem_of_getElem? hx)) fun i hi => ?_
  obtain ⟨w, ⟨x, hxj, hxi⟩, y, hyj, hyi⟩ := h j i hj hi
  rw [hx] at hxj
  rw [hy] at hyj
  cases hxj
  cases hyj
  exact ⟨w, hyi, hxi⟩

/-- The writable registers hold the whole persistent state (R42): two blocks with the same parameters that read alike
there have the same. -/
theorem samePersistent_of_reads {s t : State} (hs : s.Inv) (ht : t.Inv) (hp : t.params = s.params)
    (h : ∀ r, regExists s.params r = true → regWritable r = true → ∃ w, ReadsAs s r w ∧ ReadsAs t r w) :
    SamePersistent s t := by
  obtain ⟨sg, sl, sls, sf, sfs, ssig, -⟩ := hs.shaped
  obtain ⟨tg, tl, tls, tf, tfs, tsig, -⟩ := ht.shaped
  rw [hp] at tg tl tls tf tfs tsig
  obtain ⟨wc, hcs, hct⟩ := h .frameCount rfl rfl
  obtain ⟨wm, hms, hmt⟩ := h .deemphMem rfl rfl
  obtain ⟨wx, ⟨hs0, hs1, -⟩, ht0, ht1, -⟩ := h .lastExc rfl rfl
  refine ⟨hp.symm, BitVec.eq_of_toNat_eq (Eq.trans (Eq.symm hcs) hct), ?_, ?_, ?_, ?_, hs0.symm.trans ht0,
    hs1.symm.trans ht1, Eq.trans (Eq.symm hms) hmt⟩
  · exact eq_of_common_elements sf tf sfs tfs fun j i hj hi => h (.featHist j i) (by simp [regExists, hj, hi]) rfl
  · exact eq_of_common_elements sl tl sls tls fun j i hj hi => h (.lpcHist j i) (by simp [regExists, hj, hi]) rfl
  · exact eq_of_common_slots sg tg fun j hj => h (.gainHist j) (decide_eq_true hj) rfl
  · exact eq_of_common_slots ssig tsig fun j hj => h (.lastSig j) (decide_eq_true hj) rfl

/-- Every register of an image has its word in it. -/
theorem exists_mem_zip {s : State} {regs : List Reg} {img : List Word} (h : List.Forall₂ (ReadsAs s) regs img) {r : Reg}
    (hr : r ∈ regs) : ∃ w, (r, w) ∈ regs.zip img := by
  rw [← List.map_fst_zip h.length_eq.le] at hr
  obtain ⟨⟨r', w⟩, hmem, rfl⟩ := List.mem_map.mp hr
  exact ⟨w, hmem⟩

/-- Settles O33: INIT makes the block ready, every WRREG is accepted, and each register of the image has its content in
the end. -/
theorem restoreGivesTheSavedStreamBack : Obligations.RestoreGivesTheSavedStreamBack := by
  intro s u img hs _ hu hp himg
  have hinit : ReadyFor s (respond 0 [] (clearState u)) := ⟨respond_inv _ _ (clearState_inv hu), hp, rfl, rfl⟩
  have hsaved : ∀ rv ∈ (savedRegs s.params).zip img,
      regExists s.params rv.1 = true ∧ regWritable rv.1 = true ∧ ReadsAs s rv.1 rv.2 := fun rv hrv =>
    have hmem := (mem_savedRegs s.params rv.1).mp (List.of_mem_zip hrv).1
    ⟨hmem.1, hmem.2, List.forall₂_zip himg hrv⟩
  obtain ⟨t, hexec, ht, hlen, hreads⟩ := execAll_wrreg hs hinit hsaved
  refine ⟨t, hexec, samePersistent_of_reads hs ht.inv ht.params fun r hr hw => ?_, ht.idle,
    ht.inv.sequenced.1.mp ht.idle, ht.clear, ht.inv.latchOk.1 ht.clear, ?_⟩
  · obtain ⟨w, hmem⟩ := exists_mem_zip himg ((mem_savedRegs s.params r).mpr ⟨hr, hw⟩)
    have hsw := List.forall₂_zip himg hmem
    exact ⟨w, hsw, hreads r w hr hw hsw (.inr hmem)⟩
  · rw [hlen, List.length_zip, ← himg.length_eq, Nat.min_self, length_savedRegs]
    simp

end Sys2Proof.Machine

/-! Proofs of the statements about the compander as a function (40_compander.md R96 to R98) and about the range of the
emitted samples (R132, R134). -/

namespace Sys2Proof

theorem Num.fge_trans {a b c : F32} (hab : Num.fge a b = true) (hbc : Num.fge b c = true) : Num.fge a c = true := by
  simp only [Num.fge, Bool.and_eq_true, decide_eq_true_eq] at *
  obtain ⟨⟨ha, -⟩, hba⟩ := hab
  obtain ⟨⟨-, hc⟩, hcb⟩ := hbc
  exact ⟨⟨ha, hc⟩, hcb.trans hba⟩

/-- A value below another does not reach it. -/
theorem Num.fge_of_flt {a b : F32} (h : Num.flt a b = true) : Num.fge a b = false := by
  simp only [Num.flt, Num.fge, Bool.and_eq_true, Bool.and_eq_false_iff, decide_eq_true_eq, decide_eq_false_iff_not] at *
  omega

/-- An infinity stands beyond every finite value, on the side of its sign (R14). -/
theorem Num.units_of_isInf {a : F32} (h : Num.isInf a = true) :
    Num.units a = if Num.signBit a then -2 ^ 277 else 2 ^ 277 := by
  rw [Num.units, Num.mag_of_isInf h, Nat.cast_pow, Nat.cast_ofNat]

namespace Machine

/-! ### The code as the place between two thresholds (R92) -/

/-- The code is `k` where `x` reaches the threshold `k` and not the next one. -/
theorem toNat_encode8_eq {p : Params} (hp : p.Valid) {x : F32} {k : Nat} (hk : k ≤ 255)
    (hlow : 1 ≤ k → Num.fge x (p.thrAt k) = true) (hhigh : k < 255 → Num.fge x (p.thrAt (k + 1)) = false) :
    (encode8 p x).toNat = k := by
  apply Nat.le_antisymm
  · by_contra hlt
    have hle := encode8_le p x
    have hreach := (le_encode8_iff hp x (k := k + 1) (by omega) (by omega)).mp (by omega)
    rw [hhigh (by omega)] at hreach
    cases hreach
  · rcases Nat.eq_zero_or_pos k with rfl | h1
    · exact Nat.zero_le _
    · exact (le_encode8_iff hp x h1 hk).mpr (hlow h1)

/-- The same in exact values, for an amplitude that is no NaN. -/
theorem toNat_encode8_eq_of_units {p : Params} (hp : p.Valid) {x : F32} (hx : Num.isNaN x = false) {k : Nat}
    (hk : k ≤ 255) (hlow : 1 ≤ k → Num.units (p.thrAt k) ≤ Num.units x)
    (hhigh : k < 255 → Num.units x < Num.units (p.thrAt (k + 1))) : (encode8 p x).toNat = k := by
  obtain ⟨-, -, ht, -⟩ := id hp
  refine toNat_encode8_eq hp hk (fun h1 => ?_) (fun h255 => ?_)
  · exact (Num.fge_iff hx (Params.isNaN_thrAt ht h1 hk)).mpr (hlow h1)
  · rw [← Bool.not_eq_true, Num.fge_iff hx (Params.isNaN_thrAt ht (by omega) (by omega))]
    exact not_le.mpr (hhigh h255)

/-- Settles O38: the threshold of the code of `x` is one that `y` reaches too. -/
theorem encIsMonotone : Obligations.EncIsMonotone := by
  intro p x y hp hyx
  rcases Nat.eq_zero_or_pos (encode8 p x).toNat with h0 | h1
  · rw [h0]
    exact Nat.zero_le _
  · have hle := encode8_le p x
    have hreach := (le_encode8_iff hp x h1 hle).mp le_rfl
    exact (le_encode8_iff hp y h1 hle).mpr (Num.fge_trans hyx hreach)

/-- Each threshold lies above the amplitude of the code below it and not above that of its own code (R94 b). -/
theorem thr_between {p : Params} (hp : p.Valid) {k : Nat} (h1 : 1 ≤ k) (hk : k ≤ 255) :
    Num.units (p.decAt (k - 1)) < Num.units (p.thrAt k) ∧ Num.units (p.thrAt k) ≤ Num.units (p.decAt k) := by
  obtain ⟨-, -, ht, -⟩ := hp
  have h := ht.2.2 (k - 1) (by omega)
  rwa [Nat.sub_add_cancel h1] at h

/-- An amplitude with the exact value of a table entry has that entry's code. -/
theorem toNat_encode8_of_units_eq {p : Params} (hp : p.Valid) {x : F32} (hx : Num.isNaN x = false) {k : Nat}
    (hk : k ≤ 255) (h : Num.units x = Num.units (p.decAt k)) : (encode8 p x).toNat = k := by
  refine toNat_encode8_eq_of_units hp hx hk (fun h1 => ?_) (fun h255 => ?_)
  · rw [h]
    exact (thr_between hp h1 hk).2
  · rw [h]
    exact (thr_between hp (k := k + 1) (by omega) (by omega)).1

/-- Settles O39: a table entry is finite and lies between its own threshold and the next. -/
theorem encOfDecIsTheCode : Obligations.EncOfDecIsTheCode := by
  intro p u hp
  obtain ⟨-, hd, -⟩ := id hp
  exact BitVec.eq_of_toNat_eq (toNat_encode8_of_units_eq hp (Num.isNaN_of_isFinite (hd.2.1 _ u.isLt))
    (Nat.le_of_lt_succ u.isLt) rfl)

/-- A finite value lies between the infinities (R14). -/
theorem thr_finite {p : Params} (hp : p.Valid) {k : Nat} (h1 : 1 ≤ k) (hk : k ≤ 255) :
    -2 ^ 277 < Num.units (p.thrAt k) ∧ Num.units (p.thrAt k) < 2 ^ 277 := by
  obtain ⟨-, -, ht, -⟩ := hp
  have h := ht.2.1 (k - 1) (by omega)
  rw [Nat.sub_add_cancel h1] at h
  exact Num.units_lt_of_isFinite h

/-- Settles O40: each value is placed between two thresholds; `DEC[128]` is +0.0, and finite thresholds lie between the
infinities. -/
theorem encAtZeroAtTheEndsAndAtNaN : Obligations.EncAtZeroAtTheEndsAndAtNaN := by
  intro p hp
  obtain ⟨-, ⟨-, -, -, hsilence, -⟩, -⟩ := id hp
  have code : ∀ {x : F32} {u : Code}, (encode8 p x).toNat = u.toNat → encode8 p x = u := BitVec.eq_of_toNat_eq
  have hzero : Num.units (p.decAt 128) = 0 := congrArg Num.units hsilence
  have hpos : Num.units 0x7F800000#32 = 2 ^ 277 := Num.units_of_isInf (by decide)
  have hneg : Num.units 0xFF800000#32 = -2 ^ 277 := Num.units_of_isInf (by decide)
  refine ⟨code (toNat_encode8_of_units_eq hp (by decide) (by decide) ?_),
    code (toNat_encode8_of_units_eq hp (by decide) (by decide) ?_),
    fun x hx => ?_, fun x hx => ?_, ?_, ?_, fun x hx => ?_⟩
  · exact hzero.symm
  · exact hzero.symm
  · exact code (toNat_encode8_eq hp le_rfl (fun _ => hx) fun h => absurd h (by decide))
  · exact code (toNat_encode8_eq hp (Nat.zero_le _) (fun h => absurd h (by decide)) fun _ => Num.fge_of_flt hx)
  · refine code (toNat_encode8_eq_of_units hp (by decide) le_rfl (fun h1 => ?_) fun h => absurd h (by decide))
    rw [hpos]
    exact (thr_finite hp h1 le_rfl).2.le
  · refine code (toNat_encode8_eq_of_units hp (by decide) (Nat.zero_le _) (fun h => absurd h (by decide)) fun _ => ?_)
    rw [hneg]
    exact (thr_finite hp le_rfl (by decide)).1
  · exact code (toNat_encode8_eq hp (Nat.zero_le _) (fun h => absurd h (by decide)) fun _ => Num.fge_of_isNaN _ hx)

/-! ### The round trip (R98) -/

/-- An amplitude lies above the table entry below its code. -/
theorem decAt_pred_lt {p : Params} (hp : p.Valid) {x : F32} (hx : Num.isNaN x = false) (h1 : 1 ≤ (encode8 p x).toNat) :
    Num.units (p.decAt ((encode8 p x).toNat - 1)) < Num.units x := by
  obtain ⟨-, -, ht, -⟩ := id hp
  have hle := encode8_le p x
  have hreach := (le_encode8_iff hp x h1 hle).mp le_rfl
  rw [Num.fge_iff hx (Params.isNaN_thrAt ht h1 hle)] at hreach
  exact (thr_between hp h1 hle).1.trans_le hreach

/-- An amplitude lies below the table entry above its code. -/
theorem lt_decAt_succ {p : Params} (hp : p.Valid) {x : F32} (hx : Num.isNaN x = false) (h : (encode8 p x).toNat < 255) :
    Num.units x < Num.units (p.decAt ((encode8 p x).toNat + 1)) := by
  obtain ⟨-, -, ht, -⟩ := id hp
  have hnot := not_reached_above_encode8 hp x (Nat.lt_succ_self _) h
  rw [← Bool.not_eq_true, Num.fge_iff hx (Params.isNaN_thrAt ht (by omega) h), not_le] at hnot
  exact hnot.trans_le (thr_between hp (by omega) h).2

/-- Settles O41: the amplitude lies between the table entries beside its code, so it is no farther from its own entry
than the wider of the two spacings. -/
theorem compandingRoundTripWithinOneStep : Obligations.CompandingRoundTripWithinOneStep := by
  intro p x hp hx hmin hmax
  have hbelow := decAt_pred_lt hp hx
  have habove := lt_decAt_succ hp hx
  have hle := encode8_le p x
  rw [abs_le, decode8, Params.stepAt]
  generalize (encode8 p x).toNat = u at *
  split
  case isTrue h0 =>
    subst h0
    have := habove (by decide)
    simp only [Nat.zero_add] at this
    omega
  case isFalse h0 =>
    have := hbelow (by omega)
    split
    case isTrue h255 => subst h255; simp only [Nat.reduceSub] at this; omega
    case isFalse h255 => have := habove (by omega); omega

/-! ### The range of the samples (R132, R134) -/

/-- Settles O51: the answer is two values of the quantiser, which keeps within the clamp bound. -/
theorem everySampleLiesInRange : Obligations.EverySampleLiesInRange := by
  intro e1 e0 s hk he hp
  have hbound : ∀ y, -32767 ≤ quant s.params.consts y ∧ quant s.params.consts y ≤ 32767 := fun y => by
    rw [hk]
    exact quant_bounds (k := specConsts) (by decide) y
  have hword : ∀ y, (BitVec.ofInt 16 (quant s.params.consts y)).signExtend 32 =
      BitVec.ofInt 32 (quant s.params.consts y) := fun y => (sample_words (by have := hbound y; omega)).2
  have hc := completes_commit e1 e0 he hp
  rw [committedSamples, hword, hword] at hc
  exact ⟨_, _, _, hc, (hbound _).1, (hbound _).2, (hbound _).1, (hbound _).2⟩

end Machine
end Sys2Proof

/-! Proofs of the statements about the arithmetic (00_scope.md R14): one rounding to nearest, ties to even, for each
primitive, its special values, the ordered comparisons, and the prediction of a zero context (R126). -/

namespace Sys2Proof

/-! ### One rounding to nearest, ties to even (R14) -/

/-- `r` is the exact value `x`, which counts units of 2^-(149+e), rounded once: finite below half a step above the
largest finite value, then nearest among all finite values, and even in a tie. -/
def Num.RoundedOnce (e : Nat) (x : Int) (r : F32) : Prop :=
  (Num.isFinite r = true ↔ |x| < (2 ^ 25 - 1) * 2 ^ 252 * 2 ^ e) ∧
  (Num.isFinite r = true → ∀ c : F32, Num.isFinite c = true →
    |Num.units r * 2 ^ e - x| ≤ |Num.units c * 2 ^ e - x| ∧
    (|Num.units r * 2 ^ e - x| = |Num.units c * 2 ^ e - x| → Num.units c ≠ Num.units r → r.getLsbD 0 = false))

theorem Num.roundedOnce_round {neg : Bool} {m e : Nat} {x : Int} (hx : x = if neg then -(m : Int) else m) :
    Num.RoundedOnce e x (Num.round neg m e) := by
  have habs : |x| = (m : Int) := by
    rw [hx]
    split <;> simp
  have hiff : |x| < (2 ^ 25 - 1) * 2 ^ 252 * 2 ^ e ↔ m < Num.overflowAt * 2 ^ e := by
    rw [habs, Num.overflowAt, ← Int.ofNat_lt]
    push_cast
    rfl
  refine ⟨(Num.isFinite_round_iff neg m e).trans hiff.symm, fun hfin c hc => ?_⟩
  exact Num.round_nearest neg m e ((Num.isFinite_round_iff neg m e).mp hfin) c hc x hx

/-- An exact zero is not rounded: either zero stands for it. -/
theorem Num.roundedOnce_zero {z : F32} (hz : z = 0x80000000#32 ∨ z = 0#32) : Num.RoundedOnce 0 0 z := by
  have hfin : Num.isFinite z = true := by rcases hz with rfl | rfl <;> decide
  have hunits : Num.units z = 0 := by rcases hz with rfl | rfl <;> decide
  refine ⟨iff_of_true hfin (by norm_num), fun _ c _ => ?_⟩
  simp only [hunits, zero_mul, sub_zero, abs_zero]
  exact ⟨abs_nonneg _, fun h hne => absurd ((mul_eq_zero_iff_right (by norm_num)).mp (abs_eq_zero.mp h.symm)) hne⟩

/-- The finite sum and difference of R14: a zero of some sign, or the rounded value. -/
theorem Num.roundedOnce_exact (x : Int) (negZero : Bool) :
    Num.RoundedOnce 0 x
      (if x = 0 then if negZero then 0x80000000#32 else 0#32 else Num.round (decide (x < 0)) x.natAbs 0) := by
  split
  case isTrue h =>
    subst h
    exact Num.roundedOnce_zero (by cases negZero <;> simp)
  case isFalse =>
    refine Num.roundedOnce_round ?_
    simp only [decide_eq_true_eq]
    split <;> omega

/-- Settles O54: a sum and a difference of finite values are each the exact one rounded once. -/
theorem additionRoundsToNearestEven : Obligations.AdditionRoundsToNearestEven := by
  intro free a b ha hb
  have hadd := Num.roundedOnce_exact (Num.units a + Num.units b) (Num.signBit a && Num.signBit b)
  have hsub := Num.roundedOnce_exact (Num.units a - Num.units b) (Num.signBit a && !Num.signBit b)
  rw [← Num.fadd_finite free a b ha hb] at hadd
  rw [← Num.fsub_finite free a b ha hb] at hsub
  simp only [Num.RoundedOnce, pow_zero, mul_one] at hadd hsub
  exact ⟨hadd.1, hadd.2, hsub.1, hsub.2⟩

/-- Settles O55: a product of finite values is the exact one, in units of 2^-298, rounded once. -/
theorem multiplicationRoundsToNearestEven : Obligations.MultiplicationRoundsToNearestEven := by
  intro free a b ha hb
  rw [Num.fmul_finite free a b ha hb]
  exact Num.roundedOnce_round (Num.units_mul a b)

/-! ### NaNs, signs and infinities (R14) -/

/-- Settles O56: a difference is the sum with the second sign turned. -/
theorem naNsAriseExactlyWhereInvalid : Obligations.NaNsAriseExactlyWhereInvalid := by
  refine fun free a b => ⟨Num.isNaN_fadd_iff free a b, ?_, Num.isNaN_fmul_iff free a b⟩
  rw [Num.fsub, Num.isNaN_fadd_iff, Num.isNaN_neg, Num.isInf_neg, Num.signBit_neg, ne_eq, Bool.eq_not, not_not]

/-- A rounded value that is not finite is an infinity (R14). -/
theorem Num.isInf_round {neg : Bool} {m e : Nat} (h : Num.isFinite (Num.round neg m e) = false) :
    Num.isInf (Num.round neg m e) = true := by
  by_contra hinf
  rw [(Num.isFinite_iff _).mpr ⟨Num.isNaN_round neg m e, by simpa using hinf⟩] at h
  cases h

/-- A sum or a difference that overflows is the infinity of the exact value's sign (R14). -/
theorem Num.overflow_exact {r : F32} {x : Int} {negZero : Bool}
    (hr : r = if x = 0 then if negZero then 0x80000000#32 else 0#32 else Num.round (decide (x < 0)) x.natAbs 0)
    (h : Num.isFinite r = false) : Num.isInf r = true ∧ Num.signBit r = decide (x < 0) := by
  subst hr
  split at h
  case isTrue => cases negZero <;> cases h
  case isFalse hx =>
    rw [if_neg hx]
    exact ⟨Num.isInf_round h, Num.signBit_round _ _ _⟩

/-- An infinity absorbs a finite value, on either side (R14). -/
theorem Num.fadd_inf_finite (free : Word) {a b : F32} (ha : Num.isInf a = true) (hb : Num.isFinite b = true) :
    Num.fadd free a b = a ∧ Num.fadd free b a = a := by
  simp [Num.fadd, ha, Num.isNaN_of_isInf ha, Num.isNaN_of_isFinite hb, Num.isInf_of_isFinite hb]

/-- An infinity absorbs its equal in a sum (R14). -/
theorem Num.fadd_inf_inf (free : Word) {a b : F32} (ha : Num.isInf a = true) (hb : Num.isInf b = true)
    (hs : Num.signBit a = Num.signBit b) : Num.fadd free a b = a := by
  simp [Num.fadd, ha, hs, Num.isNaN_of_isInf ha, Num.isNaN_of_isInf hb]

theorem Num.neg_neg (a : F32) : Num.neg (Num.neg a) = a := by
  rw [Num.neg, Num.neg, BitVec.xor_assoc, BitVec.xor_self, BitVec.xor_zero]

/-- A product that is no NaN has the product of the signs, and is infinite with an infinite factor (R14). -/
theorem Num.fmul_sign (free : Word) (a b : F32) (h : Num.isNaN (Num.fmul free a b) = false) :
    Num.signBit (Num.fmul free a b) = (Num.signBit a != Num.signBit b) ∧
      (Num.isInf a = true ∨ Num.isInf b = true → Num.isInf (Num.fmul free a b) = true) := by
  unfold Num.fmul at h ⊢
  split at h
  case isTrue => rw [Num.isNaN_nanOf] at h; cases h
  case isFalse hnan =>
    rw [if_neg hnan]
    split at h
    case isTrue hinf =>
      rw [if_pos hinf]
      split at h
      case isTrue => rw [Num.isNaN_nanOf] at h; cases h
      case isFalse hzero =>
        rw [if_neg hzero]
        cases Num.signBit a != Num.signBit b <;> exact ⟨by decide, fun _ => by decide⟩
    case isFalse hinf =>
      rw [if_neg hinf]
      rw [Bool.or_eq_true] at hinf
      exact ⟨Num.signBit_round _ _ _, fun h => absurd h hinf⟩

/-- Settles O57: the finite cases are the exact sum or difference, those with an infinity are read off `fadd`, and a
difference is the sum with the second sign turned. -/
theorem signsZerosAndInfinities : Obligations.SignsZerosAndInfinities := by
  intro free a b
  refine ⟨fun ha hb h => ?_, fun ha hb h => ?_, fun ha hb => Num.fadd_inf_finite free ha hb,
    fun ha hb hs => Num.fadd_inf_inf free ha hb hs, fun ha hb h => ?_, fun ha hb h => ?_, fun ha hb => ?_,
    fun ha hb hs => ?_, Num.fmul_sign free a b⟩
  · rw [Num.fadd_finite free a b ha hb, if_pos h]
  · exact Num.overflow_exact (Num.fadd_finite free a b ha hb) h
  · rw [Num.fsub_finite free a b ha hb, if_pos (sub_eq_zero.mpr h)]
  · have hover := Num.overflow_exact (Num.fsub_finite free a b ha hb) h
    simpa only [sub_neg] using hover
  · exact ⟨(Num.fadd_inf_finite free ha (by rwa [Num.isFinite_neg])).1,
      (Num.fadd_inf_finite free (by rwa [Num.isInf_neg]) hb).2⟩
  · refine Num.fadd_inf_inf free ha (by rwa [Num.isInf_neg]) ?_
    rwa [Num.signBit_neg, Bool.eq_not]

/-! ### The ordered comparisons (R14) -/

/-- Exact values are ordered as their units. -/
theorem Num.real_lt_iff (a b : F32) : Num.real a < Num.real b ↔ Num.units a < Num.units b := by
  rw [Num.real, Num.real, div_lt_div_iff_of_pos_right (by positivity), Int.cast_lt]

theorem Num.real_le_iff (a b : F32) : Num.real a ≤ Num.real b ↔ Num.units a ≤ Num.units b := by
  rw [← not_lt, ← not_lt, Num.real_lt_iff]

/-- A value that is no NaN is an infinity, beyond every finite one, or lies strictly between them. -/
theorem Num.units_of_not_isNaN {a : F32} (h : Num.isNaN a = false) :
    (Num.units a ≤ 2 ^ 277 ∧ (Num.units a = 2 ^ 277 ↔ a = 0x7F800000#32)) ∧
      -2 ^ 277 ≤ Num.units a ∧ (Num.units a = -2 ^ 277 ↔ a = 0xFF800000#32) := by
  cases hinf : Num.isInf a with
  | true =>
    have hbig : (0 : Int) < 2 ^ 277 := by positivity
    rcases Num.eq_of_isInf hinf with rfl | rfl
    · have hunits : Num.units 0x7F800000#32 = 2 ^ 277 := Num.units_of_isInf hinf
      exact ⟨⟨hunits.le, iff_of_true hunits rfl⟩, by omega, iff_of_false (by omega) (by decide)⟩
    · have hunits : Num.units 0xFF800000#32 = -2 ^ 277 := Num.units_of_isInf hinf
      exact ⟨⟨by omega, iff_of_false (by omega) (by decide)⟩, hunits.ge, iff_of_true hunits rfl⟩
  | false =>
    obtain ⟨hlow, hhigh⟩ := Num.units_lt_of_isFinite ((Num.isFinite_iff a).mpr ⟨h, hinf⟩)
    have hpos : a ≠ 0x7F800000#32 := by rintro rfl; cases hinf
    have hneg : a ≠ 0xFF800000#32 := by rintro rfl; cases hinf
    exact ⟨⟨hhigh.le, iff_of_false hhigh.ne hpos⟩, hlow.le, iff_of_false hlow.ne' hneg⟩

/-- Settles O58: each comparison is one of units, where an infinity has the extreme value and is alone with it. -/
theorem comparisonsAreOrdered : Obligations.ComparisonsAreOrdered := by
  refine ⟨fun a b h => ?_, fun a b ha hb => ?_, fun a h => ?_⟩
  · rcases h with h | h <;> simp [Num.flt, Num.fgt, Num.fge, h]
  · simp [Num.flt, Num.fgt, Num.fge, Num.isNaN_of_isFinite ha, Num.isNaN_of_isFinite hb, Num.real_lt_iff,
      Num.real_le_iff]
  · obtain ⟨⟨hle, hpos⟩, hge, hneg⟩ := Num.units_of_not_isNaN h
    have hposUnits : Num.units 0x7F800000#32 = 2 ^ 277 := Num.units_of_isInf (by decide)
    have hnegUnits : Num.units 0xFF800000#32 = -2 ^ 277 := Num.units_of_isInf (by decide)
    have hposNum : Num.isNaN 0x7F800000#32 = false := by decide
    have hnegNum : Num.isNaN 0xFF800000#32 = false := by decide
    simp only [Num.flt, Num.fgt, Num.fge, h, hposNum, hnegNum, hposUnits, hnegUnits, Bool.not_false, Bool.true_and,
      decide_eq_decide, decide_eq_false_iff_not, decide_eq_true_eq, ne_eq, ← hpos, ← hneg]
    omega

/-! ### A zero context predicts zero (R126) -/

/-- A finite product with a zero factor is a zero, of either sign. -/
theorem Num.fmul_zero (free : Word) {x z : F32} (hx : Num.isFinite x = true) (hz : z = 0#32) :
    (Num.fmul free x z = 0#32 ∨ Num.fmul free x z = 0x80000000#32) ∧
      (Num.fmul free z x = 0#32 ∨ Num.fmul free z x = 0x80000000#32) := by
  subst hz
  have hzero : ∀ neg, Num.round neg 0 149 = 0#32 ∨ Num.round neg 0 149 = 0x80000000#32 := by decide
  have hmag : Num.mag 0#32 = 0 := by decide
  rw [Num.fmul_finite free x _ hx (by decide), Num.fmul_finite free _ x (by decide) hx, hmag,
    Nat.mul_zero, Nat.zero_mul]
  exact ⟨hzero _, hzero _⟩

/-- +0.0 less a zero of either sign is +0.0. -/
theorem Num.fsub_zero (free : Word) {z : F32} (hz : z = 0#32 ∨ z = 0x80000000#32) : Num.fsub free 0#32 z = 0#32 := by
  rcases hz with rfl | rfl <;> rw [Num.fsub_finite free _ _ (by decide) (by decide)] <;> decide

namespace Machine

/-- While every product is a zero the accumulator stays +0.0 (R125, R126). -/
theorem lpcAccumulate_zero (epoch : Nat) {c : List F32} :
    ∀ (j : Nat) {s : List F32},
      (∀ x ∈ s, ∀ y ∈ c, ∀ free, Num.fmul free x y = 0#32 ∨ Num.fmul free x y = 0x80000000#32) →
      lpcAccumulate epoch j 0#32 s c = 0#32 := by
  induction c with
  | nil => intro j s _; cases s <;> rfl
  | cons y c ih =>
    intro j s h
    cases s with
    | nil => rfl
    | cons x s =>
      rw [lpcAccumulate, Num.fsub_zero _ (h x (by simp) y (by simp) _)]
      exact ih _ fun x' hx' y' hy' => h x' (by simp [hx']) y' (by simp [hy'])

/-- Settles O47: each product has a zero factor and a finite one. -/
theorem zeroContextPredictsZero : Obligations.ZeroContextPredictsZero := by
  rintro epoch c s (⟨hc, hs⟩ | ⟨hs, hc⟩)
  · exact lpcAccumulate_zero epoch 0 fun x hx y hy free => (Num.fmul_zero free (hs x hx) (hc y hy)).1
  · exact lpcAccumulate_zero epoch 0 fun x hx y hy free => (Num.fmul_zero free (hc y hy) (hs x hx)).2

end Machine
end Sys2Proof
